-- ==== Sys2Proof/Word.lean ====
section
/-! DEFINITION. The word types of FXE: a 32-bit port word (30_encoding.md R62), a byte (R63, kind `Y`) and a number of
the math engine's intermediate format (00_scope.md R12). -/

namespace Sys2Proof

/-- A 32-bit port word: the storage cell of a value (10_state.md R20), the command word, an operand or a result. -/
abbrev Word := BitVec 32

/-- A byte of a value's byte image (20_memory.md R41). -/
abbrev Byte := BitVec 8

/-- A Q16.16 number: 32 bits, 16 of them fractional, value `raw / 65536` (00_scope.md R12); `raw` is read as a signed
number (log 7). -/
abbrev Q16 := BitVec 32

end Sys2Proof
end

