-- ==== Sys2Proof/Syntax.lean ====
section
/-! DEFINITION. The syntax of FXE: the type fields of a command word and one constructor of `Instr` per row of
the opcode map (30_encoding.md R61, R66). A constructor carries the fields of its command word; the operands are
on the operand ports. -/

namespace Sys2Proof

/-- The signedness field `U` (00_scope.md R7): 0 is `IntN` and `Fixed`, 1 is `UIntN` and `UFixed`. -/
inductive Family where
  | signed
  | unsigned
  deriving DecidableEq, Repr, Inhabited

/-- The type fields of an integer operation: family and bit width `N` as the 6-bit field holds it
(30_encoding.md R61). The values 33 to 63 are encodable and raise NotSupportedError (00_scope.md R5). -/
structure IntType where
  u : Family
  n : BitVec 6
  deriving DecidableEq, Repr, Inhabited

/-- The type fields of a fixed-point or math operation: family, bit width `N`, fraction width `F`
(30_encoding.md R61, 00_scope.md R6). -/
structure FixType where
  u : Family
  n : BitVec 6
  f : BitVec 6
  deriving DecidableEq, Repr, Inhabited

/-- The selectors ICONST allows: X = 0, 2, 3 (40_construct_const.md R102). -/
inductive IntSel where
  | zero
  | min
  | max
  deriving DecidableEq, Repr, Inhabited

/-- The selectors FCONST allows: X = 0, 1, 2, 3 (40_construct_const.md R103). -/
inductive FixSel where
  | zero
  | one
  | min
  | max
  deriving DecidableEq, Repr, Inhabited

/-- The operations of FXE, in the order of 30_encoding.md R66. Each line names the opcode and the rule that gives
the meaning. -/
inductive Instr where
  /-- `IWRAP`, OP 0x00: R100. -/
  | iwrap (t : IntType)
  /-- `ICONST`, OP 0x01: R102. -/
  | iconst (t : IntType) (sel : IntSel)
  /-- `IADD`, OP 0x02: R120. -/
  | iadd (t : IntType)
  /-- `ISUB`, OP 0x03: R121. -/
  | isub (t : IntType)
  /-- `IMUL`, OP 0x04: R122. -/
  | imul (t : IntType)
  /-- `IDIV`, OP 0x05: R123. -/
  | idiv (t : IntType)
  /-- `IMOD`, OP 0x06: R124. -/
  | imod (t : IntType)
  /-- `IADDSAT`, OP 0x07: R126. -/
  | iaddsat (t : IntType)
  /-- `ISUBSAT`, OP 0x08: R127. -/
  | isubsat (t : IntType)
  /-- `IMULSAT`, OP 0x09: R128. -/
  | imulsat (t : IntType)
  /-- `ICLAMP`, OP 0x0A: R130. -/
  | iclamp (t : IntType)
  /-- `ICLAMP01`, OP 0x0B: R131. -/
  | iclamp01 (t : IntType)
  /-- `ICLAMPOFS`, OP 0x0C: R132. -/
  | iclampofs (t : IntType)
  /-- `IMULPOW2`, OP 0x10: R151. -/
  | imulpow2 (t : IntType)
  /-- `IDIVPOW2`, OP 0x11: R152. -/
  | idivpow2 (t : IntType)
  /-- `ISHL`, OP 0x12: R153. -/
  | ishl (t : IntType)
  /-- `ISHR`, OP 0x13: R154. -/
  | ishr (t : IntType)
  /-- `IMODPOW2`, OP 0x14: R155. -/
  | imodpow2 (t : IntType)
  /-- `IROL`, OP 0x15: R157. -/
  | irol (t : IntType)
  /-- `IROR`, OP 0x16: R158. -/
  | iror (t : IntType)
  /-- `IPOPCNT`, OP 0x20: R160. -/
  | ipopcnt (t : IntType)
  /-- `IPARITY`, OP 0x21: R161. -/
  | iparity (t : IntType)
  /-- `ICLZ`, OP 0x22: R162. -/
  | iclz (t : IntType)
  /-- `ICTZ`, OP 0x23: R163. -/
  | ictz (t : IntType)
  /-- `IBSR`, OP 0x24: R164. -/
  | ibsr (t : IntType)
  /-- `IBSF`, OP 0x25: R165. -/
  | ibsf (t : IntType)
  /-- `ITOBYTES`, OP 0x30: R181. -/
  | itobytes (t : IntType)
  /-- `IFROMBYTES`, OP 0x31: R182. -/
  | ifrombytes (t : IntType)
  /-- `IGETBYTE`, OP 0x32: R183. -/
  | igetbyte (t : IntType)
  /-- `ISETBYTE`, OP 0x33: R184. -/
  | isetbyte (t : IntType)
  /-- `FWRAP`, OP 0x40: R101. -/
  | fwrap (t : FixType)
  /-- `FCONST`, OP 0x41: R103. -/
  | fconst (t : FixType) (sel : FixSel)
  /-- `FADD`, OP 0x42: R200. -/
  | fadd (t : FixType)
  /-- `FSUB`, OP 0x43: R201. -/
  | fsub (t : FixType)
  /-- `FMUL`, OP 0x44: R202. -/
  | fmul (t : FixType)
  /-- `FDIV`, OP 0x45: R203. -/
  | fdiv (t : FixType)
  /-- `FMOD`, OP 0x46: R204. -/
  | fmod (t : FixType)
  /-- `FADDSAT`, OP 0x47: R206. -/
  | faddsat (t : FixType)
  /-- `FSUBSAT`, OP 0x48: R207. -/
  | fsubsat (t : FixType)
  /-- `FMULSAT`, OP 0x49: R208. -/
  | fmulsat (t : FixType)
  /-- `FCLAMP`, OP 0x4A: R210. -/
  | fclamp (t : FixType)
  /-- `FCLAMP01`, OP 0x4B: R211. -/
  | fclamp01 (t : FixType)
  /-- `FCLAMPOFS`, OP 0x4C: R212. -/
  | fclampofs (t : FixType)
  /-- `FCVT`, OP 0x50: R230. -/
  | fcvt (t : FixType) (f2 : BitVec 6)
  /-- `FFLOOR`, OP 0x51: R232. -/
  | ffloor (t : FixType)
  /-- `FCEIL`, OP 0x52: R233. -/
  | fceil (t : FixType)
  /-- `FROUND`, OP 0x53: R235. -/
  | fround (t : FixType)
  /-- `FTOBYTES`, OP 0x60: R186. -/
  | ftobytes (t : FixType)
  /-- `FFROMBYTES`, OP 0x61: R187. -/
  | ffrombytes (t : FixType)
  /-- `FGETBYTE`, OP 0x62: R188. -/
  | fgetbyte (t : FixType)
  /-- `FSETBYTE`, OP 0x63: R189. -/
  | fsetbyte (t : FixType)
  /-- `SIN`, OP 0x70: R256. -/
  | sin (t : FixType)
  /-- `COS`, OP 0x71: R259. -/
  | cos (t : FixType)
  /-- `TAN`, OP 0x72: R261. -/
  | tan (t : FixType)
  /-- `ASIN`, OP 0x73: R265. -/
  | asin (t : FixType)
  /-- `ACOS`, OP 0x74: R267. -/
  | acos (t : FixType)
  /-- `ATAN`, OP 0x75: R270. -/
  | atan (t : FixType)
  /-- `ATAN2`, OP 0x76: R272. -/
  | atan2 (t : FixType)
  /-- `SQRT`, OP 0x77: R300. -/
  | sqrt (t : FixType)
  /-- `EXP2`, OP 0x78: R302. -/
  | exp2 (t : FixType)
  /-- `EXP`, OP 0x79: R304. -/
  | exp (t : FixType)
  /-- `LOG2`, OP 0x7A: R306. -/
  | log2 (t : FixType)
  deriving DecidableEq, Repr

end Sys2Proof
end

