-- ==== Sys2Proof/WellFormed.lean ====
section
/-! DEFINITION. Well-formed instructions: those that pass checks 4 and 5 of 30_encoding.md R65. An instruction
that is not well-formed is still decoded and served; its response is NotSupportedError (60_exceptions.md R404).
(Checks 1 to 3 are about words that are no instruction at all; `Sys2Proof.decode` makes them.) -/

namespace Sys2Proof

/-- Check 4 on one width field: 0 to 32 are supported (00_scope.md R5, R6). -/
def widthSupported (w : BitVec 6) : Bool := decide (w.toNat ≤ 32)

/-- Check 4 for an integer type. -/
def IntType.supported (t : IntType) : Bool := widthSupported t.n

/-- Check 4 for a fixed-point type. -/
def FixType.supported (t : FixType) : Bool := widthSupported t.n && widthSupported t.f

/-- Checks 4 and 5 for an angle function: `N` in [2, 31] (00_scope.md R11). -/
def FixType.angleSupported (t : FixType) : Bool :=
  t.supported && decide (2 ≤ t.n.toNat) && decide (t.n.toNat ≤ 31)

/-- Checks 4 and 5 of 30_encoding.md R65, instruction by instruction. -/
def Instr.wellFormed : Instr → Bool
  | .iwrap t => t.supported
  | .iconst t _ => t.supported
  | .iadd t => t.supported
  | .isub t => t.supported
  | .imul t => t.supported
  | .idiv t => t.supported
  | .imod t => t.supported
  | .iaddsat t => t.supported
  | .isubsat t => t.supported
  | .imulsat t => t.supported
  | .iclamp t => t.supported
  | .iclamp01 t => t.supported
  | .iclampofs t => t.supported
  | .imulpow2 t => t.supported
  | .idivpow2 t => t.supported
  | .ishl t => t.supported
  | .ishr t => t.supported
  | .imodpow2 t => t.supported
  | .irol t => t.supported
  | .iror t => t.supported
  | .ipopcnt t => t.supported
  | .iparity t => t.supported
  | .iclz t => t.supported
  | .ictz t => t.supported
  | .ibsr t => t.supported
  | .ibsf t => t.supported
  | .itobytes t => t.supported
  | .ifrombytes t => t.supported
  | .igetbyte t => t.supported
  | .isetbyte t => t.supported
  | .fwrap t => t.supported
  | .fconst t _ => t.supported
  | .fadd t => t.supported
  | .fsub t => t.supported
  | .fmul t => t.supported
  | .fdiv t => t.supported
  | .fmod t => t.supported
  | .faddsat t => t.supported
  | .fsubsat t => t.supported
  | .fmulsat t => t.supported
  | .fclamp t => t.supported
  | .fclamp01 t => t.supported
  | .fclampofs t => t.supported
  | .fcvt t f2 => t.supported && widthSupported f2
  | .ffloor t => t.supported
  | .fceil t => t.supported
  | .fround t => t.supported
  | .ftobytes t => t.supported
  | .ffrombytes t => t.supported
  | .fgetbyte t => t.supported
  | .fsetbyte t => t.supported
  | .sin t => t.angleSupported
  | .cos t => t.angleSupported
  | .tan t => t.angleSupported
  | .asin t => t.angleSupported
  | .acos t => t.angleSupported
  | .atan t => t.angleSupported
  | .atan2 t => t.angleSupported
  | .sqrt t => t.supported
  | .exp2 t => t.supported
  | .exp t => t.supported
  | .log2 t => t.supported

end Sys2Proof
end

