-- ==== Sys2Proof/Decode.lean ====
section
/-! DEFINITION. Decoding of a command word (30_encoding.md R61, R65 checks 1 to 3, R66, R67) and, after it, the
encoder. A word that is no instruction is rejected by name; the machine answers it with IllegalCommand. -/

namespace Sys2Proof

/-- Why a command word is no instruction: the first of checks 1 to 3 of 30_encoding.md R65 that fails. -/
inductive DecodeError where
  /-- Check 1: `Z ≠ 0`. -/
  | reservedBits
  /-- Check 1: `OP` is not in the opcode map. -/
  | reservedOpcode
  /-- Check 2: an integer opcode with `F ≠ 0`. -/
  | fractionOnInteger
  /-- Check 3: `X` not allowed for this `OP`. -/
  | auxNotAllowed
  deriving DecidableEq, Repr

/-- `OP = cw[7:0]` (30_encoding.md R61). -/
def fieldOP (cw : Word) : BitVec 8 := cw.extractLsb' 0 8

/-- `N = cw[13:8]` (30_encoding.md R61). -/
def fieldN (cw : Word) : BitVec 6 := cw.extractLsb' 8 6

/-- `F = cw[19:14]` (30_encoding.md R61). -/
def fieldF (cw : Word) : BitVec 6 := cw.extractLsb' 14 6

/-- `X = cw[25:20]` (30_encoding.md R61). -/
def fieldX (cw : Word) : BitVec 6 := cw.extractLsb' 20 6

/-- `U = cw[26]`: 0 is the signed family, 1 the unsigned (30_encoding.md R61). -/
def fieldU (cw : Word) : Family := if cw.getLsbD 26 then .unsigned else .signed

/-- `Z = cw[31:27]`, reserved, must be 0 (30_encoding.md R61). -/
def fieldZ (cw : Word) : BitVec 5 := cw.extractLsb' 27 5

/-- The type fields of an integer operation. -/
def intTypeOf (cw : Word) : IntType := ⟨fieldU cw, fieldN cw⟩

/-- The type fields of a fixed-point or math operation. -/
def fixTypeOf (cw : Word) : FixType := ⟨fieldU cw, fieldN cw, fieldF cw⟩

/-- The ICONST selector: `X ∈ {0, 2, 3}` (40_construct_const.md R102). -/
def intSelOf (x : BitVec 6) : Option IntSel :=
  match x.toNat with
  | 0 => some .zero
  | 2 => some .min
  | 3 => some .max
  | _ => none

/-- The FCONST selector: `X ∈ {0, 1, 2, 3}` (40_construct_const.md R103). -/
def fixSelOf (x : BitVec 6) : Option FixSel :=
  match x.toNat with
  | 0 => some .zero
  | 1 => some .one
  | 2 => some .min
  | 3 => some .max
  | _ => none

/-- What a row of the opcode map builds: an integer operation, a fixed-point or math operation, or one of the three
operations that use `X`. -/
inductive OpRow where
  | int (mk : IntType → Instr)
  | fix (mk : FixType → Instr)
  | iconst
  | fconst
  | fcvt

/-- Rows 0x0_: construction, integer arithmetic, saturation, clamps (30_encoding.md R66). -/
def opRowsIntArith : List (BitVec 8 × OpRow) :=
  [(0x00#8, .int .iwrap), (0x01#8, .iconst), (0x02#8, .int .iadd), (0x03#8, .int .isub),
   (0x04#8, .int .imul), (0x05#8, .int .idiv), (0x06#8, .int .imod), (0x07#8, .int .iaddsat),
   (0x08#8, .int .isubsat), (0x09#8, .int .imulsat), (0x0A#8, .int .iclamp), (0x0B#8, .int .iclamp01),
   (0x0C#8, .int .iclampofs)]

/-- Rows 0x1_: shifts and rotates (30_encoding.md R66). -/
def opRowsIntShift : List (BitVec 8 × OpRow) :=
  [(0x10#8, .int .imulpow2), (0x11#8, .int .idivpow2), (0x12#8, .int .ishl), (0x13#8, .int .ishr),
   (0x14#8, .int .imodpow2), (0x15#8, .int .irol), (0x16#8, .int .iror)]

/-- Rows 0x2_: bit scans (30_encoding.md R66). -/
def opRowsIntBits : List (BitVec 8 × OpRow) :=
  [(0x20#8, .int .ipopcnt), (0x21#8, .int .iparity), (0x22#8, .int .iclz), (0x23#8, .int .ictz),
   (0x24#8, .int .ibsr), (0x25#8, .int .ibsf)]

/-- Rows 0x3_: integer bytes (30_encoding.md R66). -/
def opRowsIntBytes : List (BitVec 8 × OpRow) :=
  [(0x30#8, .int .itobytes), (0x31#8, .int .ifrombytes), (0x32#8, .int .igetbyte), (0x33#8, .int .isetbyte)]

/-- Rows 0x4_: fixed-point arithmetic (30_encoding.md R66). -/
def opRowsFixArith : List (BitVec 8 × OpRow) :=
  [(0x40#8, .fix .fwrap), (0x41#8, .fconst), (0x42#8, .fix .fadd), (0x43#8, .fix .fsub),
   (0x44#8, .fix .fmul), (0x45#8, .fix .fdiv), (0x46#8, .fix .fmod), (0x47#8, .fix .faddsat),
   (0x48#8, .fix .fsubsat), (0x49#8, .fix .fmulsat), (0x4A#8, .fix .fclamp), (0x4B#8, .fix .fclamp01),
   (0x4C#8, .fix .fclampofs)]

/-- Rows 0x5_: conversion and rounding (30_encoding.md R66). -/
def opRowsFixRound : List (BitVec 8 × OpRow) :=
  [(0x50#8, .fcvt), (0x51#8, .fix .ffloor), (0x52#8, .fix .fceil), (0x53#8, .fix .fround)]

/-- Rows 0x6_: fixed-point bytes (30_encoding.md R66). -/
def opRowsFixBytes : List (BitVec 8 × OpRow) :=
  [(0x60#8, .fix .ftobytes), (0x61#8, .fix .ffrombytes), (0x62#8, .fix .fgetbyte), (0x63#8, .fix .fsetbyte)]

/-- Rows 0x7_: math engine (30_encoding.md R66). -/
def opRowsMath : List (BitVec 8 × OpRow) :=
  [(0x70#8, .fix .sin), (0x71#8, .fix .cos), (0x72#8, .fix .tan), (0x73#8, .fix .asin),
   (0x74#8, .fix .acos), (0x75#8, .fix .atan), (0x76#8, .fix .atan2), (0x77#8, .fix .sqrt),
   (0x78#8, .fix .exp2), (0x79#8, .fix .exp), (0x7A#8, .fix .log2)]

/-- The opcode map (30_encoding.md R66). -/
def opTable : List (BitVec 8 × OpRow) :=
  opRowsIntArith ++ opRowsIntShift ++ opRowsIntBits ++ opRowsIntBytes ++
  opRowsFixArith ++ opRowsFixRound ++ opRowsFixBytes ++ opRowsMath

/-- The row of an opcode, if the opcode is in the map. -/
def opRow (op : BitVec 8) : Option OpRow := opTable.lookup op

/-- Check 3 of 30_encoding.md R65 and the instruction a row builds from the fields. -/
def OpRow.build (row : OpRow) (cw : Word) : Except DecodeError Instr :=
  match row with
  | .int mk => if fieldX cw = 0 then .ok (mk (intTypeOf cw)) else .error .auxNotAllowed
  | .fix mk => if fieldX cw = 0 then .ok (mk (fixTypeOf cw)) else .error .auxNotAllowed
  | .iconst =>
    match intSelOf (fieldX cw) with
    | some sel => .ok (.iconst (intTypeOf cw) sel)
    | none => .error .auxNotAllowed
  | .fconst =>
    match fixSelOf (fieldX cw) with
    | some sel => .ok (.fconst (fixTypeOf cw) sel)
    | none => .error .auxNotAllowed
  | .fcvt => .ok (.fcvt (fixTypeOf cw) (fieldX cw))

/-- The decoder: checks 1, 2 and 3 of 30_encoding.md R65, in that order, on any 32-bit word. -/
def decode (cw : Word) : Except DecodeError Instr :=
  if fieldZ cw ≠ 0 then .error .reservedBits
  else
    match opRow (fieldOP cw) with
    | none => .error .reservedOpcode
    | some row =>
      if (fieldOP cw).toNat < 0x40 ∧ fieldF cw ≠ 0 then .error .fractionOnInteger
      else row.build cw

/-- What the decoder reads from the command word `w`. The command word is one 32-bit port word, so there is no byte
order to lay out; the bits above `nbits` are 0. -/
def decodeTableWord (nbits w : Nat) : Option Instr :=
  match decode (BitVec.ofNat 32 (w % 2 ^ nbits)) with
  | .ok i => some i
  | .error _ => none

/-! ### The encoder -/

/-- The bit of the `U` field (00_scope.md R7). -/
def Family.bit : Family → BitVec 1
  | .signed => 0#1
  | .unsigned => 1#1

/-- The `X` field of an ICONST (40_construct_const.md R102). -/
def IntSel.bits : IntSel → BitVec 6
  | .zero => 0#6
  | .min => 2#6
  | .max => 3#6

/-- The `X` field of an FCONST (40_construct_const.md R103). -/
def FixSel.bits : FixSel → BitVec 6
  | .zero => 0#6
  | .one => 1#6
  | .min => 2#6
  | .max => 3#6

/-- `cw = OP | N << 8 | F << 14 | X << 20 | U << 26`, with `Z = 0` (30_encoding.md R61). -/
def packWord (op : BitVec 8) (n f x : BitVec 6) (u : Family) : Word :=
  op.setWidth 32 ||| (n.setWidth 32 <<< 8) ||| (f.setWidth 32 <<< 14) ||| (x.setWidth 32 <<< 20) |||
    (u.bit.setWidth 32 <<< 26)

/-- The command word of an instruction (30_encoding.md R61, R66). -/
def encode : Instr → Word
  | .iwrap t => packWord 0x00#8 t.n 0 0 t.u
  | .iconst t sel => packWord 0x01#8 t.n 0 sel.bits t.u
  | .iadd t => packWord 0x02#8 t.n 0 0 t.u
  | .isub t => packWord 0x03#8 t.n 0 0 t.u
  | .imul t => packWord 0x04#8 t.n 0 0 t.u
  | .idiv t => packWord 0x05#8 t.n 0 0 t.u
  | .imod t => packWord 0x06#8 t.n 0 0 t.u
  | .iaddsat t => packWord 0x07#8 t.n 0 0 t.u
  | .isubsat t => packWord 0x08#8 t.n 0 0 t.u
  | .imulsat t => packWord 0x09#8 t.n 0 0 t.u
  | .iclamp t => packWord 0x0A#8 t.n 0 0 t.u
  | .iclamp01 t => packWord 0x0B#8 t.n 0 0 t.u
  | .iclampofs t => packWord 0x0C#8 t.n 0 0 t.u
  | .imulpow2 t => packWord 0x10#8 t.n 0 0 t.u
  | .idivpow2 t => packWord 0x11#8 t.n 0 0 t.u
  | .ishl t => packWord 0x12#8 t.n 0 0 t.u
  | .ishr t => packWord 0x13#8 t.n 0 0 t.u
  | .imodpow2 t => packWord 0x14#8 t.n 0 0 t.u
  | .irol t => packWord 0x15#8 t.n 0 0 t.u
  | .iror t => packWord 0x16#8 t.n 0 0 t.u
  | .ipopcnt t => packWord 0x20#8 t.n 0 0 t.u
  | .iparity t => packWord 0x21#8 t.n 0 0 t.u
  | .iclz t => packWord 0x22#8 t.n 0 0 t.u
  | .ictz t => packWord 0x23#8 t.n 0 0 t.u
  | .ibsr t => packWord 0x24#8 t.n 0 0 t.u
  | .ibsf t => packWord 0x25#8 t.n 0 0 t.u
  | .itobytes t => packWord 0x30#8 t.n 0 0 t.u
  | .ifrombytes t => packWord 0x31#8 t.n 0 0 t.u
  | .igetbyte t => packWord 0x32#8 t.n 0 0 t.u
  | .isetbyte t => packWord 0x33#8 t.n 0 0 t.u
  | .fwrap t => packWord 0x40#8 t.n t.f 0 t.u
  | .fconst t sel => packWord 0x41#8 t.n t.f sel.bits t.u
  | .fadd t => packWord 0x42#8 t.n t.f 0 t.u
  | .fsub t => packWord 0x43#8 t.n t.f 0 t.u
  | .fmul t => packWord 0x44#8 t.n t.f 0 t.u
  | .fdiv t => packWord 0x45#8 t.n t.f 0 t.u
  | .fmod t => packWord 0x46#8 t.n t.f 0 t.u
  | .faddsat t => packWord 0x47#8 t.n t.f 0 t.u
  | .fsubsat t => packWord 0x48#8 t.n t.f 0 t.u
  | .fmulsat t => packWord 0x49#8 t.n t.f 0 t.u
  | .fclamp t => packWord 0x4A#8 t.n t.f 0 t.u
  | .fclamp01 t => packWord 0x4B#8 t.n t.f 0 t.u
  | .fclampofs t => packWord 0x4C#8 t.n t.f 0 t.u
  | .fcvt t f2 => packWord 0x50#8 t.n t.f f2 t.u
  | .ffloor t => packWord 0x51#8 t.n t.f 0 t.u
  | .fceil t => packWord 0x52#8 t.n t.f 0 t.u
  | .fround t => packWord 0x53#8 t.n t.f 0 t.u
  | .ftobytes t => packWord 0x60#8 t.n t.f 0 t.u
  | .ffrombytes t => packWord 0x61#8 t.n t.f 0 t.u
  | .fgetbyte t => packWord 0x62#8 t.n t.f 0 t.u
  | .fsetbyte t => packWord 0x63#8 t.n t.f 0 t.u
  | .sin t => packWord 0x70#8 t.n t.f 0 t.u
  | .cos t => packWord 0x71#8 t.n t.f 0 t.u
  | .tan t => packWord 0x72#8 t.n t.f 0 t.u
  | .asin t => packWord 0x73#8 t.n t.f 0 t.u
  | .acos t => packWord 0x74#8 t.n t.f 0 t.u
  | .atan t => packWord 0x75#8 t.n t.f 0 t.u
  | .atan2 t => packWord 0x76#8 t.n t.f 0 t.u
  | .sqrt t => packWord 0x77#8 t.n t.f 0 t.u
  | .exp2 t => packWord 0x78#8 t.n t.f 0 t.u
  | .exp t => packWord 0x79#8 t.n t.f 0 t.u
  | .log2 t => packWord 0x7A#8 t.n t.f 0 t.u

end Sys2Proof
end

