-- ==== Sys2Proof/Machine/State.lean ====
section
/-! DEFINITION. The state of FXE as plain data: its request ports and its response (30_encoding.md R62). FXE has no
other state that can change: no registers, program counter, flags, control registers or memory (10_state.md R31 to
R37). Its constant tables are `Sys2Proof.Config.params` and the width tables of Machine/Numeric.lean. -/

namespace Sys2Proof.Machine

/-- The error kinds a response can carry (60_exceptions.md R400, status 1 to 5). -/
inductive ErrorKind where
  /-- A divisor whose value is 0: IDIV, IMOD, FDIV, FMOD (60_exceptions.md R401). -/
  | divisionByZero
  /-- A count or byte index outside the domain of the operation (60_exceptions.md R402). -/
  | rangeError
  /-- A wrong byte-array length; on the host side also malformed text or a width mismatch (60_exceptions.md R403). -/
  | formatError
  /-- A width outside the supported range (60_exceptions.md R404). -/
  | notSupportedError
  /-- A command word that is no operation (60_exceptions.md R405, 30_encoding.md R67). -/
  | illegalCommand
  deriving DecidableEq, Repr, Inhabited

/-- A response: either a result or an error kind, never both (60_exceptions.md R410, 93_implementation_defined.md
U11). A result is one word on `r` (result kinds V and I), or a byte array, data word on `r` and length on `r2`
(30_encoding.md R64). A port the operation does not name carries no defined word (R62) and so is not here. -/
inductive Response where
  | word (r : Word)
  | bytes (r r2 : Word)
  | error (kind : ErrorKind)
  deriving DecidableEq, Repr, Inhabited

/-- The machine: the request ports as the host drives them, and the response to the last command served, if one has
been served (30_encoding.md R62; before the first response the result ports hold no defined word,
70_reset_and_hazards.md R452). -/
structure State where
  cw : Word
  a : Word
  b : Word
  c : Word
  d : Word
  e : Word
  response : Option Response
  deriving DecidableEq, Repr, Inhabited

/-- Why the machine would stop. FXE never stops: every error is the status of one response and the next command is
served like any other (60_exceptions.md R410, R411), so there is no constructor (safe: nothing is left out). -/
inductive Fault
  deriving DecidableEq, Repr

/-- Why a step would have no meaning. -/
inductive Refusal where
  /-- Raised by an arm of `exec` whose instruction has no meaning yet, of which there is none (safe: it only stops). -/
  | notModelled (mnemonic : String)
  deriving DecidableEq, Repr

/-- FXE right after reset (10_state.md R38, 70_reset_and_hazards.md R450, R452): no response has been given. The
request ports have no reset value in the spec; DESIGN CHOICE (log 1): they read 0. -/
def State.reset : State :=
  { cw := 0#32, a := 0#32, b := 0#32, c := 0#32, d := 0#32, e := 0#32, response := none }

end Sys2Proof.Machine
end

