-- ==== Sys2Proof/Machine/Flags.lean ====
section
/-! DEFINITION. FXE has no flags (10_state.md R33). What a command leaves for the host to test is the status of its
response: the codes of 60_exceptions.md R400 and the words on the response ports. -/

namespace Sys2Proof.Machine

/-- The status code of an error kind (60_exceptions.md R400). -/
def ErrorKind.code : ErrorKind → BitVec 3
  | .divisionByZero => 1#3
  | .rangeError => 2#3
  | .formatError => 3#3
  | .notSupportedError => 4#3
  | .illegalCommand => 5#3

/-- The status port `st` of a response: 0 is OK (60_exceptions.md R400). -/
def Response.st : Response → BitVec 3
  | .word _ => 0#3
  | .bytes _ _ => 0#3
  | .error kind => kind.code

/-- The result port `r`, where the response carries a word on it (30_encoding.md R64, 60_exceptions.md R410). -/
def Response.r : Response → Option Word
  | .word r => some r
  | .bytes r _ => some r
  | .error _ => none

/-- The result port `r2`, where the response carries a word on it (30_encoding.md R64). -/
def Response.r2 : Response → Option Word
  | .word _ => none
  | .bytes _ r2 => some r2
  | .error _ => none

end Sys2Proof.Machine
end

