-- ==== Sys2Proof/Config.lean ====
section
/-! DEFINITION. What one instance of FXE fixes: the named sizes and thresholds of 00_scope.md R9, R10, R12, the
open parameters (R13) as fields of `Params`, and the one instance `Config.params`, which has no body: nothing can
evaluate it and no proof can lean on a value of it.

DEDUCED (log 6, log 14): where a rule fixes the structure of an open core and leaves its pieces open (TAN_CORE R262,
ASIN_CORE R266, ATAN_CORE R269, ATAN2_CORE R271; EXP2_CORE R302, EXP_ARG R304, LOG2_CORE R306), the pieces are the open
fields here and the structure is Machine/MathCores.lean. -/

namespace Sys2Proof

namespace Config

/-- `LUT_LEN` (00_scope.md R9). -/
def lutLen : Nat := 4096

/-- `LUT_MASK`, FE's `lutMask` (00_scope.md R9). -/
def lutMask : Nat := 4095

/-- `TAIL_LEN` (00_scope.md R9). -/
def tailLen : Nat := 2048

/-- `SIN_RETRO_MAX_N` (00_scope.md R10): SIN, COS and TAN are retro up to this width. -/
def sinRetroMaxN : Nat := 14

/-- `ASIN_RETRO_MAX_N` (00_scope.md R10): ASIN and ACOS use the nearest entry up to this width. -/
def asinRetroMaxN : Nat := 6

/-- 1.0 in the common intermediate format Q16.16, `2 ^ QI` with `QI = 16` (00_scope.md R12). -/
def q16One : Int := 65536

/-- The two readings of FROUND on a negative raw (90_conflicts.md C2). -/
inductive RoundNegMode where
  | literal
  | away
  deriving DecidableEq, Repr

/-! The three parameters of 92_eei_decisions.md section 2 that a decision settles. The operations that read one take it
as an argument (`roundRaw`, `fmodNumerator`, `imageWord`), so that both values have their meaning; the instance modelled
passes them the value that the numbered rules state (log 8). -/

/-- `ROUND_NEG_MODE` (92_eei_decisions.md D26): 45_fixed_round.md R235 follows the formula (log 8). -/
def roundNegMode : RoundNegMode := .literal

/-- `FMOD_PRESHIFT` (92_eei_decisions.md D25): 44_fixed_arith.md R204 pre-shifts the numerator (log 8). -/
def fmodPreshift : Bool := true

/-- `BYTE_PAD_SIGNED` (92_eei_decisions.md D22): 43_bytes.md R180 takes the pad bits from the storage cell (log 8). -/
def bytePadSigned : Bool := true

/-- A host floating-point number (48_host_codecs.md R327): not a number, an infinity, or the finite number
`± mant · 2 ^ exp`. -/
inductive HostReal where
  | nan
  | inf (neg : Bool)
  | finite (neg : Bool) (mant : Nat) (exp : Int)
  deriving DecidableEq, Repr, Inhabited

/-- The host's two floating-point formats (48_host_codecs.md R327). -/
inductive RealFormat where
  | binary32
  | binary64
  deriving DecidableEq, Repr, Inhabited

/-- The open parameters (00_scope.md R13, 46_math_trig.md R279, 47_math_sqrt_exp_log.md R309, 92_eei_decisions.md
section 2). A field says only the type of the value; nothing else is assumed of it. -/
structure Params where
  /-- `SIN_LUT`, 4096 Q16.16 entries (10_state.md R27). -/
  sinLut : Fin 4096 → Q16
  /-- `TAN_LUT` (10_state.md R27). -/
  tanLut : Fin 4096 → Q16
  /-- `ATAN_LUT` (10_state.md R27). -/
  atanLut : Fin 4096 → Q16
  /-- `ASIN_LUT` (10_state.md R28). -/
  asinLut : Fin 4096 → Q16
  /-- `ASIN_TAIL` (10_state.md R29): stored word `i` is the sample of index `i - 1`, indexes -1 to 2048. -/
  asinTail : Fin 2050 → Q16
  /-- The Q16.16 number that stands for an exact result, in units of 1/65536, that 32 bits do not hold (00_scope.md
  R12; no rule says what results; log 7). -/
  q16Outside : Int → Q16
  /-- `RESCALE_IN(U, N, F, v)` (46_math_trig.md R251). -/
  rescaleIn : Family → Nat → Nat → Int → Q16
  /-- `RESCALE_OUT(U, N, F, q)` (46_math_trig.md R251). -/
  rescaleOut : Family → Nat → Nat → Q16 → Int
  /-- `CATMULL_ROM(p0, p1, p2, p3, t)`, `t` the fraction in 1/65536 (46_math_trig.md R255). -/
  catmullRom : Q16 → Q16 → Q16 → Q16 → BitVec 16 → Q16
  /-- `SIN_POS(N, mirror, phase)`, a Q16.16 table position (46_math_trig.md R258). -/
  sinPos : Nat → Bool → Nat → Q16
  /-- TAN bucket N = 2, "trivial" (46_math_trig.md R262): the raw for `(U, F, quad)`; the phase is always 0. -/
  tanTrivial : Family → Nat → Nat → Int
  /-- TAN, direct-LUT bucket (R262): the index of the one entry read, for `(N, quad, phase)`. -/
  tanIndex : Nat → Nat → Nat → Fin 4096
  /-- TAN, direct-LUT bucket (R262): the raw for `(U, N, F, quad, phase)` and the entry read, with the bucket's own
  "edge rounding". -/
  tanDirect : Family → Nat → Nat → Nat → Nat → Q16 → Int
  /-- TAN, N = 14 "dedicated formula" (R262): the raw for `(U, N, F, quad, phase)`. -/
  tanDedicated : Family → Nat → Nat → Nat → Nat → Int
  /-- Whether TAN at N = 13 takes the direct-LUT formula or the dedicated one (90_conflicts.md C4). -/
  tan13Direct : Bool
  /-- TAN, Catmull-Rom bucket (R262): the position in `TAN_LUT` for `(N, quad, phase)`. -/
  tanPos : Nat → Nat → Nat → Q16
  /-- TAN, Catmull-Rom bucket (R262): the raw for `(U, N, F, quad, phase)` and the interpolated sample. -/
  tanSpline : Family → Nat → Nat → Nat → Nat → Q16 → Int
  /-- The Q16.16 value used for sin 75 degrees (46_math_trig.md R266). -/
  sin75 : Q16
  /-- Whether a magnitude equal to `sin75` counts as beyond it (R266, "whether the threshold is inclusive"). -/
  sin75Inclusive : Bool
  /-- Whether the retro band of asin also uses the tail (R266). -/
  asinRetroTail : Bool
  /-- The position in `ASIN_LUT` for `(N, x)` (R266). -/
  asinPos : Nat → Q16 → Q16
  /-- The position in `ASIN_TAIL` for `(N, x)` (R266). -/
  asinTailPos : Nat → Q16 → Q16
  /-- The tie rule of "nearest" for `(N, x)` (R266): true takes the upper of two equally near entries. -/
  asinTieUp : Nat → Q16 → Bool
  /-- The angle for `(N, x)`, `x` negative, and the tail's angle: how a negative `x` is handled in the tail (R266). -/
  asinTailAngle : Nat → Q16 → Q16 → Q16
  /-- The core's angle for `|x| > 1.0`, for which nothing is stated (93_implementation_defined.md U9). -/
  asinOutside : Nat → Q16 → Q16
  /-- `HALF_PI_Q16` (46_math_trig.md R267). -/
  halfPi : Q16
  /-- `1/x` for `N` and a magnitude, in units of 1/65536, above 1.0 (46_math_trig.md R269). -/
  atanRecip : Nat → Nat → Q16
  /-- Whether ATAN interpolates the table at width `N` (R269; 91_not_in_source.md N22). -/
  atanInterpolates : Nat → Bool
  /-- ATAN's position in `ATAN_LUT` for `(N, ratio)` (R269). -/
  atanPos : Nat → Q16 → Q16
  /-- ATAN's index in `ATAN_LUT` for `(N, ratio)` where the table is not interpolated (R269). -/
  atanIndex : Nat → Q16 → Fin 4096
  /-- The angle for `(N, x)`, `x` negative, and the angle of `|x|`: how the sign of `x` is handled (R269). -/
  atanAngle : Nat → Q16 → Q16 → Q16
  /-- Whether ATAN2's operands are rescaled to Q16.16 first or used raw (46_math_trig.md R271). -/
  atan2Rescales : Bool
  /-- The angle for `(N, y, x)` with an operand that is 0 (46_math_trig.md R271, U9). -/
  atan2Axis : Nat → Int → Int → Q16
  /-- Whether `|x| = |y|` takes the branch of `|y| > |x|` (R271, "the branches themselves"). -/
  atan2EqualSteep : Bool
  /-- The ratio in [0, 1] for `(N, y, x)` (R271). -/
  atan2Ratio : Nat → Int → Int → Q16
  /-- Whether ATAN2 interpolates the table at width `N`; R271 does not tie it to ATAN (91_not_in_source.md N22). -/
  atan2Interpolates : Nat → Bool
  /-- ATAN2's position in `ATAN_LUT` for `(N, ratio)`; R271 does not tie it to ATAN. -/
  atan2Pos : Nat → Q16 → Q16
  /-- ATAN2's index in `ATAN_LUT` for `(N, ratio)` where the table is not interpolated (R271). -/
  atan2Index : Nat → Q16 → Fin 4096
  /-- The angle for `N`, the branch (`|y|` the larger, `x` negative, `y` negative) and the table's angle (R271). -/
  atan2Angle : Nat → Bool → Bool → Bool → Q16 → Q16
  /-- `REQUANT_A(U, N, q)`, for ASIN and ATAN (46_math_trig.md R263). -/
  requantA : Family → Nat → Q16 → Int
  /-- `REQUANT_ATAN2(U, N, q)` (R263). -/
  requantAtan2 : Family → Nat → Q16 → Int
  /-- `REQUANT_ACOS(U, N, q)` (R263). -/
  requantAcos : Family → Nat → Q16 → Int
  /-- `LN2_Q`: ln 2 scaled to so many fractional bits (47_math_sqrt_exp_log.md R303, R309). -/
  ln2Q : Nat → Int
  /-- `LOG2E_Q`: log2 e scaled to so many fractional bits (R305, R309). -/
  log2eQ : Nat → Int
  /-- EXP2: whether the integer part of `(U, N, F, A)`, `A` not a whole number, is the one above it, not the floor; its
  fractional part is then negative (R302, "the order ... or the rounding"; 91_not_in_source.md N27). -/
  exp2WholeUp : Family → Nat → Nat → Int → Bool
  /-- EXP2: in how many fractional bits `1 + f·ln2` is formed and shifted, for `(U, N, F, A)` (R302, "the order
  and width"). -/
  exp2Bits : Family → Nat → Nat → Int → Nat
  /-- EXP2: the product `f·ln2` scaled to those bits, for `(U, N, F)`, the bits and the exact product, which is not 0
  (R302, "the order and width of the operations or the rounding"). -/
  exp2Scaled : Family → Nat → Nat → Nat → Int → Int
  /-- EXP2: whether a right shift by the integer part that loses bits rounds up, for `(U, N, F, A)` (R302, "the
  rounding"). -/
  exp2RoundUp : Family → Nat → Nat → Int → Bool
  /-- EXP2: whether bringing the shifted number from those bits to `F` rounds up where it loses bits, for `(U, N, F, A)`
  (R302, "the rounding"). -/
  exp2RescaleUp : Family → Nat → Nat → Int → Bool
  /-- EXP2: the raw for `(U, N, F, A)` where the shifted number is beyond a 32-bit word or the result outside the type
  (N27, "overflow for a large one"). -/
  exp2Overflow : Family → Nat → Nat → Int → Int
  /-- EXP: the product `A · log2 e` scaled to an argument, for `(U, N, F)` and the exact product, which is not 0, wrapped
  or not (R304). -/
  expArgScaled : Family → Nat → Nat → Int → Int
  /-- LOG2: the slope of the linear correction, for `(U, N, F)` (R306; 91_not_in_source.md N27). -/
  log2Slope : Family → Nat → Nat → Int
  /-- LOG2: the value of the linear correction at a mantissa of 1.0, for `(U, N, F)`, in the slope's scale (R306, N27). -/
  log2Offset : Family → Nat → Nat → Int
  /-- LOG2: the linear correction scaled to a raw, for `(U, N, F)`, the bit position `k` and the exact correction times
  `2^k`, which is not 0 (R306, N27). -/
  log2Scaled : Family → Nat → Nat → Nat → Int → Int
  /-- LOG2: the raw for `(U, N, F, A)` where the sum is outside the type (N27). -/
  log2Overflow : Family → Nat → Nat → Int → Int
  /-- LOG2 of `A ≤ 0`, for which nothing is stated (R306; 93_implementation_defined.md U9). -/
  log2Outside : Family → Nat → Nat → Int → Int
  /-- The tie rule of `FROM_REAL_ROUND` (48_host_codecs.md R330): for the lower neighbour, whether the upper is taken. -/
  fromRealTieUp : Int → Bool
  /-- The raw for a non-finite number in a fixed-point conversion (R330), by source format, `N` and `F`. -/
  fromRealNonFinite : RealFormat → Family → Nat → Nat → HostReal → Int
  /-- The integer for a finite value whose truncation does not fit 32 bits, by source format (R328). -/
  castWide : RealFormat → Family → Nat → Int → Int
  /-- The integer for a non-finite input of an integer cast other than double to unsigned, by source format (R329,
  N26). -/
  castNonFinite : RealFormat → Family → Nat → HostReal → Int
  /-- The binary32 number for a raw with more than 24 significant bits (R331), by raw and `F`. -/
  toFloatRounded : Int → Nat → HostReal
  deriving Inhabited

/-- The open parameters of the instance modelled. NO BODY: every value in it is a free value (log 5). -/
opaque params : Params

end Config

end Sys2Proof
end

