-- ==== Sys2Proof/Machine/Numeric.lean ====
section
/-! DEFINITION. The arithmetic vocabulary of the spec over unbounded integers: shifts and masks (00_scope.md R14),
the width tables (R15), the wrap functions (R16), clamp, division, square root (R17), bit scans (42_int_shift_bit.md
R159 to R165) and the byte count (20_memory.md R41). -/

namespace Sys2Proof.Machine

/-! ### Shifts and masks (00_scope.md R14) -/

/-- `a << k`, that is `a · 2^k`, for any `k` (00_scope.md R14). -/
def shl (a : Int) (k : Nat) : Int := a * 2 ^ k

/-- `a >> k`, that is `floor(a / 2^k)`, for any `k` (00_scope.md R14). -/
def shr (a : Int) (k : Nat) : Int := a / 2 ^ k

/-- `a & MASK[k]` on the infinite two's-complement expansion: the low `k` bits of `a` (00_scope.md R14). -/
def lowBits (a : Int) (k : Nat) : Int := a % 2 ^ k

/-- `a & ~MASK[k]` on the infinite two's-complement expansion: `a` with its low `k` bits cleared (00_scope.md R14). -/
def clearLow (a : Int) (k : Nat) : Int := a - a % 2 ^ k

/-! ### The width tables (00_scope.md R15, 10_state.md R26) -/

/-- `MASK[n]`. -/
def maskOf (n : Nat) : Int := 2 ^ n - 1

/-- `UNSIGNED_MAX[n]`. -/
def unsignedMax (n : Nat) : Int := 2 ^ n - 1

/-- `SIGNED_MAX[n]`. -/
def signedMax (n : Nat) : Int := if n = 0 then 0 else 2 ^ (n - 1) - 1

/-- `SIGNED_MIN[n]`. -/
def signedMin (n : Nat) : Int := if n = 0 then 0 else -2 ^ (n - 1)

/-- `SIGN_BIT[n]`. -/
def signBit (n : Nat) : Int := if n = 0 then 0 else 2 ^ (n - 1)

/-- `TMIN(U, n)`, the type's minimum value (00_scope.md R17). -/
def tmin (u : Family) (n : Nat) : Int :=
  match u with
  | .signed => signedMin n
  | .unsigned => 0

/-- `TMAX(U, n)`, the type's maximum value (00_scope.md R17). -/
def tmax (u : Family) (n : Nat) : Int :=
  match u with
  | .signed => signedMax n
  | .unsigned => unsignedMax n

/-! ### Wrap functions (00_scope.md R16) -/

/-- `zext_n(v) = v mod 2^n`. -/
def zext (n : Nat) (v : Int) : Int := v % 2 ^ n

/-- `sext_n(v)`, by the cases of 00_scope.md R16. -/
def sext (n : Nat) (v : Int) : Int :=
  if n = 0 then 0
  else if 2 ^ (n - 1) ≤ zext n v then zext n v - 2 ^ n
  else zext n v

/-- `wrap(U, n, v)`: FE's constructor (00_scope.md R16). -/
def wrap (u : Family) (n : Nat) (v : Int) : Int :=
  match u with
  | .signed => sext n v
  | .unsigned => zext n v

/-- `cell(U, n, v) = zext_32(v)`: the port word that carries value `v` (00_scope.md R17, 10_state.md R20). -/
def cell (v : Int) : Word := BitVec.ofInt 32 v

/-! ### Other primitives (00_scope.md R17) -/

/-- `clamp(v, lo, hi)`: the test against `lo` comes first. -/
def clamp (v lo hi : Int) : Int := if v < lo then lo else if hi < v then hi else v

/-- `tdiv(a, b)`: the quotient rounded toward zero. -/
def tdiv (a b : Int) : Int := Int.tdiv a b

/-- `trem(a, b) = a − b · tdiv(a, b)`. -/
def trem (a b : Int) : Int := a - b * tdiv a b

/-- `fmod(a, m) = a − m · floor(a / m)`, for `m > 0`. -/
def fmod (a m : Int) : Int := a - m * (a / m)

/-- The shift-and-subtract square root (47_math_sqrt_exp_log.md R300): the bits below `k` are still to be tried on top
of the root `r`. -/
def isqrtFrom (x : Nat) : Nat → Nat → Nat
  | 0, r => r
  | k + 1, r => if (r + 2 ^ k) * (r + 2 ^ k) ≤ x then isqrtFrom x k (r + 2 ^ k) else isqrtFrom x k r

/-- `isqrt(x)`, the largest `r` with `r · r ≤ x` (00_scope.md R17), for the 64-bit arguments SQRT can form
(47_math_sqrt_exp_log.md R300, corner case 1). -/
def isqrt (x : Nat) : Nat := isqrtFrom x 32 0

/-! ### Bit scans (42_int_shift_bit.md R159 to R165) -/

/-- The number of ones among the low `n` bits of `p` (R160). -/
def popCount (p : Nat) : Nat → Nat
  | 0 => 0
  | i + 1 => popCount p i + (if p.testBit i then 1 else 0)

/-- The largest `i < n` with bit `i` of `p` set (R164). -/
def highestSet (p : Nat) : Nat → Option Nat
  | 0 => none
  | i + 1 => if p.testBit i then some i else highestSet p i

/-- The smallest `i < n` with bit `i` of `p` set (R165). -/
def lowestSet (p : Nat) : Nat → Option Nat
  | 0 => none
  | i + 1 =>
    match lowestSet p i with
    | some j => some j
    | none => if p.testBit i then some i else none

/-! ### The byte image (20_memory.md R41) -/

/-- `B(N) = ceil(N / 8)`. -/
def byteCount (n : Nat) : Nat := (n + 7) / 8

end Sys2Proof.Machine
end

