-- ==== Sys2Proof/Machine/Ops.lean ====
section
/-! DEFINITION. The shared operations of every meaning: giving a response, raising an error (the one analogue of
taking an exception that FXE has, 60_exceptions.md R410), completing with a result, the width checks 4 and 5 of
30_encoding.md R65, and fetching the command. There is no return from an error to model: nothing is saved and the
next command is served like any other (60_exceptions.md R411). -/

namespace Sys2Proof.Machine

/-- The outcome of serving one command. -/
abbrev Answer := Host.Outcome State Fault Refusal

/-- The command word the machine serves next: the word on the port `cw` (30_encoding.md R62). -/
def State.fetch (s : State) : Word := s.cw

/-- The state after a response: the response ports change and nothing else does (10_state.md R25). -/
def State.respond (s : State) (resp : Response) : State := { s with response := some resp }

/-- `raise K`: the response has status `K` and no result; nothing is saved, no mode changes, control goes nowhere
(60_exceptions.md R406, R410). -/
def raise (kind : ErrorKind) (s : State) : Answer := .next (s.respond (.error kind))

/-- Complete with the word `r` (30_encoding.md R64, kinds V and I). -/
def complete (r : Word) (s : State) : Answer := .next (s.respond (.word r))

/-- Complete with a byte array: data word and length (30_encoding.md R64, kind BA). -/
def completeBytes (r r2 : Word) (s : State) : Answer := .next (s.respond (.bytes r r2))

/-- Complete with a value that is passed through the constructor: `r <- cell(U, N, wrap(U, N, v))`. -/
def completeWrapped (u : Family) (n : Nat) (v : Int) (s : State) : Answer := complete (cell (wrap u n v)) s

/-- Complete with a value that is already in range, stored "without re-wrap masking" (41_int_arith.md R126):
`r <- cell(U, N, v)`. -/
def completeInRange (v : Int) (s : State) : Answer := complete (cell v) s

/-- Complete with a plain integer, result kind I: `r <- zext_32(k)` (30_encoding.md R64). -/
def completeInt (k : Int) (s : State) : Answer := complete (BitVec.ofInt 32 k) s

/-- Check 4 for an integer operation (30_encoding.md R65): `N > 32` raises NotSupportedError. -/
def guardInt (t : IntType) (s : State) (body : Answer) : Answer :=
  if 32 < t.n.toNat then raise .notSupportedError s else body

/-- Check 4 for a fixed-point or math operation: `N > 32` or `F > 32` raises NotSupportedError. -/
def guardFix (t : FixType) (s : State) (body : Answer) : Answer :=
  if 32 < t.n.toNat ∨ 32 < t.f.toNat then raise .notSupportedError s else body

/-- Check 4 for FCVT, whose target fraction width is checked too. -/
def guardCvt (t : FixType) (f2 : BitVec 6) (s : State) (body : Answer) : Answer :=
  if 32 < t.n.toNat ∨ 32 < t.f.toNat ∨ 32 < f2.toNat then raise .notSupportedError s else body

/-- Checks 4 and 5 for an angle function: then `N < 2` or `N > 31` raises NotSupportedError (00_scope.md R11). -/
def guardAngle (t : FixType) (s : State) (body : Answer) : Answer :=
  guardFix t s (if t.n.toNat < 2 ∨ 31 < t.n.toNat then raise .notSupportedError s else body)

end Sys2Proof.Machine
end

