-- ==== Sys2Proof/Machine/Operands.lean ====
section
/-! DEFINITION. The operand kinds of 30_encoding.md R63: how the word on an operand port is read. -/

namespace Sys2Proof.Machine

/-- Kind V: `val(U, N, p) = wrap(U, N, p)`; only bits `N − 1` down to 0 of the port count (10_state.md R24). -/
def operandV (u : Family) (n : Nat) (p : Word) : Int := wrap u n p.toNat

/-- Kind I: `sext_32(p)`. -/
def operandI (p : Word) : Int := p.toInt

/-- Kind Y: `p[7:0]`. -/
def operandY (p : Word) : Byte := p.extractLsb' 0 8

/-- The length port of kind BA: `zext_32(p)` (20_memory.md R43). -/
def operandLen (p : Word) : Nat := p.toNat

/-- The `N`-bit pattern `P = zext_N(A)` of a value (42_int_shift_bit.md, head of the file). -/
def patternOf (n : Nat) (v : Int) : Nat := (zext n v).toNat

end Sys2Proof.Machine
end

