-- ==== Sys2Proof/Machine/Shared.lean ====
section
/-! DEFINITION. The operations that an integer instruction and its fixed-point twin share: arithmetic on raws
(44_fixed_arith.md R205), saturation and clamping (44_fixed_arith.md R206, R210, R212) and the byte codec
(43_bytes.md R186 to R190). Each instruction has its own meaning, in the file of its family, over these. -/

namespace Sys2Proof.Machine

/-! ### Arithmetic on two values -/

/-- The value on port `a` of a command of type (`U`, `N`) (41_int_arith.md, head of the file). -/
def State.valA (s : State) (u : Family) (n : Nat) : Int := operandV u n s.a

/-- The value on port `b`. -/
def State.valB (s : State) (u : Family) (n : Nat) : Int := operandV u n s.b

/-- The value on port `c`. -/
def State.valC (s : State) (u : Family) (n : Nat) : Int := operandV u n s.c

/-- `r <- cell(U, N, wrap(U, N, op(A, B)))` (41_int_arith.md R120 to R122, 44_fixed_arith.md R200 to R202). -/
def wrapping (u : Family) (n : Nat) (op : Int → Int → Int) (s : State) : Answer :=
  completeWrapped u n (op (s.valA u n) (s.valB u n)) s

/-- `r <- cell(U, N, clamp(op(A, B), TMIN(U, N), TMAX(U, N)))` (41_int_arith.md R126 to R128, 44_fixed_arith.md R206
to R208). -/
def saturating (u : Family) (n : Nat) (op : Int → Int → Int) (s : State) : Answer :=
  completeInRange (clamp (op (s.valA u n) (s.valB u n)) (tmin u n) (tmax u n)) s

/-- A division or remainder of the numerator `num` by the value on port `b`: DivisionByZero when that value is 0
(41_int_arith.md R123, R124, 44_fixed_arith.md R203, R204, 60_exceptions.md R401). -/
def dividing (u : Family) (n : Nat) (op : Int → Int → Int) (num : Int) (s : State) : Answer :=
  if s.valB u n = 0 then raise .divisionByZero s else completeWrapped u n (op num (s.valB u n)) s

/-! ### Clamps -/

/-- `r <- cell(U, N, clamp(A, B, C))` (41_int_arith.md R130, 44_fixed_arith.md R210). -/
def clamping (u : Family) (n : Nat) (s : State) : Answer :=
  completeInRange (clamp (s.valA u n) (s.valB u n) (s.valC u n)) s

/-- `r <- cell(U, N, clamp(A, 0, one))` with exact bounds (41_int_arith.md R131, 44_fixed_arith.md R211). -/
def clampingZeroTo (one : Int) (u : Family) (n : Nat) (s : State) : Answer :=
  completeInRange (clamp (s.valA u n) 0 one) s

/-- Steps 1 and 2 of ClampWithOffset for one bound: the exact sum, re-clamped to the type's own range
(41_int_arith.md R132). -/
def offsetBound (u : Family) (n : Nat) (bound delta : Int) : Int := clamp (bound + delta) (tmin u n) (tmax u n)

/-- Steps 3 and 4 of ClampWithOffset: inverted bounds are swapped, then the value is clamped (41_int_arith.md R132). -/
def clampSwapped (v lo hi : Int) : Int := if hi < lo then clamp v hi lo else clamp v lo hi

/-- The four steps of ClampWithOffset (41_int_arith.md R132, 44_fixed_arith.md R212). -/
def clampingWithOffset (u : Family) (n : Nat) (s : State) : Answer :=
  completeInRange
    (clampSwapped (s.valA u n) (offsetBound u n (s.valB u n) (operandI s.d))
      (offsetBound u n (s.valC u n) (operandI s.e))) s

/-! ### The byte codec -/

/-- The word whose bytes are the byte image of a value, by `BYTE_PAD_SIGNED`: the storage cell, so that the pad bits of
the top byte are sign copies for the signed family and zero for the unsigned (43_bytes.md R180), or zero for both
(93_implementation_defined.md U6). -/
def imageWord (padSigned : Bool) (n : Nat) (v : Int) : Word := if padSigned then cell v else cell (zext n v)

/-- `MASK[8·B]` as a port word, for `B` bytes. -/
def byteMask (count : Nat) : Word := BitVec.ofNat 32 (2 ^ (8 * count) - 1)

/-- Byte `i` of a word, bits `8i+7` down to `8i` (20_memory.md R41). -/
def byteAt (w : Word) (i : Nat) : Byte := w.extractLsb' (8 * i) 8

/-- `(W & ~(0xFF << 8i)) | (byte << 8i)` (43_bytes.md R184). -/
def replaceByte (w : Word) (i : Nat) (new : Byte) : Word :=
  (w &&& ~~~(0xFF#32 <<< (8 * i))) ||| (new.setWidth 32 <<< (8 * i))

/-- ToBytes: the `B` low bytes of the image, and `B` (43_bytes.md R181, R186). -/
def toBytes (u : Family) (n : Nat) (s : State) : Answer :=
  completeBytes (imageWord Config.bytePadSigned n (s.valA u n) &&& byteMask (byteCount n)) (BitVec.ofNat 32 (byteCount n)) s

/-- FromBytes: FormatError unless the length is accepted, else the first `B` bytes through the constructor
(43_bytes.md R182, R187, R190). -/
def fromBytes (accepts : Nat → Bool) (u : Family) (n : Nat) (s : State) : Answer :=
  if accepts (operandLen s.b) then completeWrapped u n ((s.a &&& byteMask (byteCount n)).toNat) s
  else raise .formatError s

/-- GetByte: RangeError outside `[0, B)`, else byte `i` of the image (43_bytes.md R183, R188). -/
def getByte (u : Family) (n : Nat) (s : State) : Answer :=
  if operandI s.b < 0 ∨ (byteCount n : Int) ≤ operandI s.b then raise .rangeError s
  else completeInt ((byteAt (imageWord Config.bytePadSigned n (s.valA u n)) (operandI s.b).toNat).toNat) s

/-- SetByte: RangeError outside `[0, B)`, else the storage cell with byte `i` replaced, through the constructor
(43_bytes.md R184, R189). -/
def setByte (u : Family) (n : Nat) (s : State) : Answer :=
  if operandI s.b < 0 ∨ (byteCount n : Int) ≤ operandI s.b then raise .rangeError s
  else completeWrapped u n ((replaceByte (cell (s.valA u n)) (operandI s.b).toNat (operandY s.c)).toNat) s

end Sys2Proof.Machine
end

