-- ==== Sys2Proof/Machine/Bytes.lean ====
section
/-! DEFINITION. The byte codec of the integer and of the fixed-point types (43_bytes.md). -/

namespace Sys2Proof.Machine

/-- ITOBYTES (43_bytes.md R181). -/
def execItobytes (t : IntType) (s : State) : Answer :=
  guardInt t s (toBytes t.u t.n.toNat s)

/-- IFROMBYTES accepts at least `B` bytes (43_bytes.md R182). -/
def execIfrombytes (t : IntType) (s : State) : Answer :=
  guardInt t s (fromBytes (fun len => decide (byteCount t.n.toNat ≤ len)) t.u t.n.toNat s)

/-- IGETBYTE (43_bytes.md R183). -/
def execIgetbyte (t : IntType) (s : State) : Answer :=
  guardInt t s (getByte t.u t.n.toNat s)

/-- ISETBYTE (43_bytes.md R184). -/
def execIsetbyte (t : IntType) (s : State) : Answer :=
  guardInt t s (setByte t.u t.n.toNat s)

/-- FTOBYTES: the image of the raw; `F` is not part of it (43_bytes.md R186). -/
def execFtobytes (t : FixType) (s : State) : Answer :=
  guardFix t s (toBytes t.u t.n.toNat s)

/-- FFROMBYTES accepts exactly `B` bytes (43_bytes.md R187, R190). -/
def execFfrombytes (t : FixType) (s : State) : Answer :=
  guardFix t s (fromBytes (fun len => decide (len = byteCount t.n.toNat)) t.u t.n.toNat s)

/-- FGETBYTE (43_bytes.md R188). -/
def execFgetbyte (t : FixType) (s : State) : Answer :=
  guardFix t s (getByte t.u t.n.toNat s)

/-- FSETBYTE (43_bytes.md R189). -/
def execFsetbyte (t : FixType) (s : State) : Answer :=
  guardFix t s (setByte t.u t.n.toNat s)

end Sys2Proof.Machine
end

