-- ==== Sys2Proof/Machine/Construct.lean ====
section
/-! DEFINITION. Construction and constants (40_construct_const.md): IWRAP, ICONST, FWRAP, FCONST. -/

namespace Sys2Proof.Machine

/-- IWRAP (40_construct_const.md R100). -/
def execIwrap (t : IntType) (s : State) : Answer :=
  guardInt t s (completeWrapped t.u t.n.toNat (operandI s.a) s)

/-- FWRAP: the integer construction of the raw; `F` plays no part (40_construct_const.md R101). -/
def execFwrap (t : FixType) (s : State) : Answer :=
  guardFix t s (completeWrapped t.u t.n.toNat (operandI s.a) s)

/-- The value of an integer constant (40_construct_const.md R102). -/
def intConst (u : Family) (n : Nat) : IntSel → Int
  | .zero => 0
  | .min => tmin u n
  | .max => tmax u n

/-- ICONST (40_construct_const.md R102). -/
def execIconst (t : IntType) (sel : IntSel) (s : State) : Answer :=
  guardInt t s (completeInRange (intConst t.u t.n.toNat sel) s)

/-- The raw of a fixed-point constant; ONE passes through the constructor (40_construct_const.md R103). -/
def fixConst (u : Family) (n f : Nat) : FixSel → Int
  | .zero => 0
  | .one => wrap u n (2 ^ f)
  | .min => tmin u n
  | .max => tmax u n

/-- FCONST (40_construct_const.md R103). -/
def execFconst (t : FixType) (sel : FixSel) (s : State) : Answer :=
  guardFix t s (completeInRange (fixConst t.u t.n.toNat t.f.toNat sel) s)

end Sys2Proof.Machine
end

