-- ==== Sys2Proof/Machine/FixArith.lean ====
section
/-! DEFINITION. Fixed-point arithmetic, saturation and clamping on raws (44_fixed_arith.md). -/

namespace Sys2Proof.Machine

/-- The scaled product `(A · B) >> F`: exact product, arithmetic shift (44_fixed_arith.md R202, R208). -/
def scaledMul (f : Nat) (x y : Int) : Int := shr (x * y) f

/-- FADD (44_fixed_arith.md R200). -/
def execFadd (t : FixType) (s : State) : Answer :=
  guardFix t s (wrapping t.u t.n.toNat (fun x y => x + y) s)

/-- FSUB (44_fixed_arith.md R201). -/
def execFsub (t : FixType) (s : State) : Answer :=
  guardFix t s (wrapping t.u t.n.toNat (fun x y => x - y) s)

/-- FMUL (44_fixed_arith.md R202). -/
def execFmul (t : FixType) (s : State) : Answer :=
  guardFix t s (wrapping t.u t.n.toNat (scaledMul t.f.toNat) s)

/-- FDIV: the numerator is pre-shifted left by `F` (44_fixed_arith.md R203). -/
def execFdiv (t : FixType) (s : State) : Answer :=
  guardFix t s (dividing t.u t.n.toNat tdiv (shl (s.valA t.u t.n.toNat) t.f.toNat) s)

/-- FMOD's numerator, by `FMOD_PRESHIFT`: pre-shifted left by `F` (44_fixed_arith.md R204), or the raw as it is
(92_eei_decisions.md D25). -/
def fmodNumerator (preshift : Bool) (f : Nat) (v : Int) : Int := if preshift then shl v f else v

/-- FMOD: the remainder of the same pre-shifted division as FDIV (44_fixed_arith.md R204). -/
def execFmod (t : FixType) (s : State) : Answer :=
  guardFix t s
    (dividing t.u t.n.toNat trem
      (fmodNumerator Config.fmodPreshift t.f.toNat (s.valA t.u t.n.toNat)) s)

/-- FADDSAT (44_fixed_arith.md R206). -/
def execFaddsat (t : FixType) (s : State) : Answer :=
  guardFix t s (saturating t.u t.n.toNat (fun x y => x + y) s)

/-- FSUBSAT (44_fixed_arith.md R207). -/
def execFsubsat (t : FixType) (s : State) : Answer :=
  guardFix t s (saturating t.u t.n.toNat (fun x y => x - y) s)

/-- FMULSAT: the shift comes before the clamp (44_fixed_arith.md R208). -/
def execFmulsat (t : FixType) (s : State) : Answer :=
  guardFix t s (saturating t.u t.n.toNat (scaledMul t.f.toNat) s)

/-- FCLAMP (44_fixed_arith.md R210). -/
def execFclamp (t : FixType) (s : State) : Answer :=
  guardFix t s (clamping t.u t.n.toNat s)

/-- FCLAMP01: the bounds are the exact integers 0 and `2^F` (44_fixed_arith.md R211). -/
def execFclamp01 (t : FixType) (s : State) : Answer :=
  guardFix t s (clampingZeroTo (2 ^ t.f.toNat) t.u t.n.toNat s)

/-- FCLAMPOFS (44_fixed_arith.md R212). -/
def execFclampofs (t : FixType) (s : State) : Answer :=
  guardFix t s (clampingWithOffset t.u t.n.toNat s)

end Sys2Proof.Machine
end

