-- ==== Sys2Proof/Machine/FixRound.lean ====
section
/-! DEFINITION. Fraction-width conversion and rounding (45_fixed_round.md). -/

namespace Sys2Proof.Machine

/-- `ConvertFrac`: a right shift when fractional bits are lost, a left shift when they are gained
(45_fixed_round.md R230). -/
def convertFrac (f f2 : Nat) (v : Int) : Int := if f2 ≤ f then shr v (f - f2) else shl v (f2 - f)

/-- FCVT (45_fixed_round.md R230). -/
def execFcvt (t : FixType) (f2 : BitVec 6) (s : State) : Answer :=
  guardCvt t f2 s
    (completeWrapped t.u t.n.toNat (convertFrac t.f.toNat f2.toNat (s.valA t.u t.n.toNat)) s)

/-- FFLOOR: `A & ~FM` (45_fixed_round.md R232). -/
def execFfloor (t : FixType) (s : State) : Answer :=
  guardFix t s (completeWrapped t.u t.n.toNat (clearLow (s.valA t.u t.n.toNat) t.f.toNat) s)

/-- FCEIL before the wrap: the rounding term `FM` is added only to a raw that is not negative
(45_fixed_round.md R233, R234). -/
def ceilRaw (f : Nat) (v : Int) : Int := if 0 ≤ v then clearLow (v + maskOf f) f else clearLow v f

/-- FCEIL (45_fixed_round.md R233); a raw of the unsigned family is never negative. -/
def execFceil (t : FixType) (s : State) : Answer :=
  guardFix t s (completeWrapped t.u t.n.toNat (ceilRaw t.f.toNat (s.valA t.u t.n.toNat)) s)

/-- `half`: `2^(F−1)`, 0 at `F = 0` (45_fixed_round.md R235). -/
def halfUnit (f : Nat) : Int := if f = 0 then 0 else 2 ^ (f - 1)

/-- FROUND before the wrap, by `ROUND_NEG_MODE`: the formula of 45_fixed_round.md R235, or the other reading of
90_conflicts.md C2 (92_eei_decisions.md D26). -/
def roundRaw (mode : Config.RoundNegMode) (f : Nat) (v : Int) : Int :=
  if 0 ≤ v then clearLow (v + halfUnit f) f
  else
    match mode with
    | .literal => clearLow (v - halfUnit f) f
    | .away => -clearLow (-v + halfUnit f) f

/-- FROUND (45_fixed_round.md R235). -/
def execFround (t : FixType) (s : State) : Answer :=
  guardFix t s (completeWrapped t.u t.n.toNat (roundRaw Config.roundNegMode t.f.toNat (s.valA t.u t.n.toNat)) s)

end Sys2Proof.Machine
end

