-- ==== Sys2Proof/Machine/IntArith.lean ====
section
/-! DEFINITION. Integer arithmetic, saturation and clamping (41_int_arith.md). -/

namespace Sys2Proof.Machine

/-- IADD (41_int_arith.md R120). -/
def execIadd (t : IntType) (s : State) : Answer :=
  guardInt t s (wrapping t.u t.n.toNat (fun x y => x + y) s)

/-- ISUB (41_int_arith.md R121). -/
def execIsub (t : IntType) (s : State) : Answer :=
  guardInt t s (wrapping t.u t.n.toNat (fun x y => x - y) s)

/-- IMUL (41_int_arith.md R122). -/
def execImul (t : IntType) (s : State) : Answer :=
  guardInt t s (wrapping t.u t.n.toNat (fun x y => x * y) s)

/-- IDIV (41_int_arith.md R123). -/
def execIdiv (t : IntType) (s : State) : Answer :=
  guardInt t s (dividing t.u t.n.toNat tdiv (s.valA t.u t.n.toNat) s)

/-- IMOD (41_int_arith.md R124). -/
def execImod (t : IntType) (s : State) : Answer :=
  guardInt t s (dividing t.u t.n.toNat trem (s.valA t.u t.n.toNat) s)

/-- IADDSAT (41_int_arith.md R126). -/
def execIaddsat (t : IntType) (s : State) : Answer :=
  guardInt t s (saturating t.u t.n.toNat (fun x y => x + y) s)

/-- ISUBSAT (41_int_arith.md R127). -/
def execIsubsat (t : IntType) (s : State) : Answer :=
  guardInt t s (saturating t.u t.n.toNat (fun x y => x - y) s)

/-- IMULSAT (41_int_arith.md R128). -/
def execImulsat (t : IntType) (s : State) : Answer :=
  guardInt t s (saturating t.u t.n.toNat (fun x y => x * y) s)

/-- ICLAMP (41_int_arith.md R130). -/
def execIclamp (t : IntType) (s : State) : Answer :=
  guardInt t s (clamping t.u t.n.toNat s)

/-- ICLAMP01: the bounds are the exact integers 0 and 1 (41_int_arith.md R131). -/
def execIclamp01 (t : IntType) (s : State) : Answer :=
  guardInt t s (clampingZeroTo 1 t.u t.n.toNat s)

/-- ICLAMPOFS (41_int_arith.md R132). -/
def execIclampofs (t : IntType) (s : State) : Answer :=
  guardInt t s (clampingWithOffset t.u t.n.toNat s)

end Sys2Proof.Machine
end

