-- ==== Sys2Proof/Machine/IntBits.lean ====
section
/-! DEFINITION. Bit scans and counts over exactly `N` bits (42_int_shift_bit.md section 3). -/

namespace Sys2Proof.Machine

/-- The pattern `P` of the value on port `a` (42_int_shift_bit.md R159). -/
def State.pattern (s : State) (t : IntType) : Nat := patternOf t.n.toNat (s.valA t.u t.n.toNat)

/-- A bit index, or −1 when no bit is set (42_int_shift_bit.md R164, R165). -/
def indexOrMinusOne : Option Nat → Int
  | some i => i
  | none => -1

/-- IPOPCNT (42_int_shift_bit.md R160). -/
def execIpopcnt (t : IntType) (s : State) : Answer :=
  guardInt t s (completeInt (popCount (s.pattern t) t.n.toNat) s)

/-- IPARITY: 1 for an odd number of ones (42_int_shift_bit.md R161). -/
def execIparity (t : IntType) (s : State) : Answer :=
  guardInt t s (completeInt ((popCount (s.pattern t) t.n.toNat % 2 : Nat)) s)

/-- ICLZ: `N` for zero, else `N − 1 − IBSR` (42_int_shift_bit.md R162). -/
def execIclz (t : IntType) (s : State) : Answer :=
  guardInt t s
    (if s.pattern t = 0 then completeInt t.n.toNat s
    else completeInt ((t.n.toNat : Int) - 1 - indexOrMinusOne (highestSet (s.pattern t) t.n.toNat)) s)

/-- ICTZ: `N` for zero, else `IBSF` (42_int_shift_bit.md R163). -/
def execIctz (t : IntType) (s : State) : Answer :=
  guardInt t s
    (if s.pattern t = 0 then completeInt t.n.toNat s
    else completeInt (indexOrMinusOne (lowestSet (s.pattern t) t.n.toNat)) s)

/-- IBSR (42_int_shift_bit.md R164). -/
def execIbsr (t : IntType) (s : State) : Answer :=
  guardInt t s (completeInt (indexOrMinusOne (highestSet (s.pattern t) t.n.toNat)) s)

/-- IBSF (42_int_shift_bit.md R165). -/
def execIbsf (t : IntType) (s : State) : Answer :=
  guardInt t s (completeInt (indexOrMinusOne (lowestSet (s.pattern t) t.n.toNat)) s)

end Sys2Proof.Machine
end

