-- ==== Sys2Proof/Machine/IntShift.lean ====
section
/-! DEFINITION. Integer shifts and rotates (42_int_shift_bit.md sections 1 and 2). -/

namespace Sys2Proof.Machine

/-- A shift by the count on port `b`: RangeError outside `[0, N)` (42_int_shift_bit.md R150). -/
def shifting (n : Nat) (s : State) (body : Nat → Answer) : Answer :=
  if operandI s.b < 0 ∨ (n : Int) ≤ operandI s.b then raise .rangeError s else body (operandI s.b).toNat

/-- `wrap(U, N, A · 2^n)` (42_int_shift_bit.md R151, R153). -/
def shiftLeft (u : Family) (n : Nat) (s : State) : Answer :=
  shifting n s (fun k => completeWrapped u n (shl (s.valA u n) k) s)

/-- `floor(A / 2^n)` (42_int_shift_bit.md R152, R154). -/
def shiftRight (u : Family) (n : Nat) (s : State) : Answer :=
  shifting n s (fun k => completeInRange (shr (s.valA u n) k) s)

/-- IMULPOW2 (42_int_shift_bit.md R151). -/
def execImulpow2 (t : IntType) (s : State) : Answer :=
  guardInt t s (shiftLeft t.u t.n.toNat s)

/-- IDIVPOW2 (42_int_shift_bit.md R152). -/
def execIdivpow2 (t : IntType) (s : State) : Answer :=
  guardInt t s (shiftRight t.u t.n.toNat s)

/-- ISHL (42_int_shift_bit.md R153). -/
def execIshl (t : IntType) (s : State) : Answer :=
  guardInt t s (shiftLeft t.u t.n.toNat s)

/-- ISHR (42_int_shift_bit.md R154). -/
def execIshr (t : IntType) (s : State) : Answer :=
  guardInt t s (shiftRight t.u t.n.toNat s)

/-- IMODPOW2: the domain is `[0, N]`, and `A & MASK[n]` is re-wrapped (42_int_shift_bit.md R150, R155). -/
def execImodpow2 (t : IntType) (s : State) : Answer :=
  guardInt t s
    (if operandI s.b < 0 ∨ (t.n.toNat : Int) < operandI s.b then raise .rangeError s
    else completeWrapped t.u t.n.toNat (lowBits (s.valA t.u t.n.toNat) (operandI s.b).toNat) s)

/-- `((P << k) | (P >> (N − k))) & MASK[N]` (42_int_shift_bit.md R157). -/
def rotLeft (n p k : Nat) : Nat := ((p <<< k) ||| (p >>> (n - k))) &&& (2 ^ n - 1)

/-- `((P >> k) | (P << (N − k))) & MASK[N]` (42_int_shift_bit.md R158). -/
def rotRight (n p k : Nat) : Nat := ((p >>> k) ||| (p <<< (n - k))) &&& (2 ^ n - 1)

/-- A rotate by the count on port `b` modulo `N`: RangeError only for `N = 0` (42_int_shift_bit.md R157, R158). -/
def rotating (rot : Nat → Nat → Nat → Nat) (u : Family) (n : Nat) (s : State) : Answer :=
  if n = 0 then raise .rangeError s
  else completeWrapped u n (rot n (patternOf n (s.valA u n)) (fmod (operandI s.b) n).toNat) s

/-- IROL (42_int_shift_bit.md R157). -/
def execIrol (t : IntType) (s : State) : Answer :=
  guardInt t s (rotating rotLeft t.u t.n.toNat s)

/-- IROR (42_int_shift_bit.md R158). -/
def execIror (t : IntType) (s : State) : Answer :=
  guardInt t s (rotating rotRight t.u t.n.toNat s)

end Sys2Proof.Machine
end

