-- ==== Sys2Proof/Machine/MathCores.lean ====
section
/-! DEFINITION. The cores of the math engine as functions of the open parameters `P` (46_math_trig.md, 00_scope.md
R13): what the rules say of their structure, over the open pieces of `Config.Params`. -/

namespace Sys2Proof.Machine

open Sys2Proof.Config (Params)

/-! ### Q16.16 numbers (00_scope.md R12) -/

/-- The Q16.16 number for an exact `v`, in units of 1/65536. A `v` that 32 bits do not hold is no Q16.16 number: no rule
says what results, and the result is a free value (DESIGN CHOICE, log 7). -/
def toQ16 (P : Params) (v : Int) : Q16 := if -2 ^ 31 ≤ v ∧ v < 2 ^ 31 then BitVec.ofInt 32 v else P.q16Outside v

/-- `−q`. -/
def negQ16 (P : Params) (q : Q16) : Q16 := toQ16 P (-q.toInt)

/-- `p − q`. -/
def subQ16 (P : Params) (p q : Q16) : Q16 := toQ16 P (p.toInt - q.toInt)

/-! ### Tables and interpolation -/

/-- `Rom(T, clamp(k, 0, 4095))`: an entry of a 4096-entry table, edge-clamped (20_memory.md R40, 46_math_trig.md R255,
R258). -/
def sample (T : Fin 4096 → Q16) (k : Int) : Q16 := T (Fin.ofNat 4096 (clamp k 0 4095).toNat)

/-- Entry `k` of `ASIN_TAIL`, indexes −1 to 2048 (10_state.md R29, 46_math_trig.md R255). -/
def tailSample (P : Params) (k : Int) : Q16 := P.asinTail (Fin.ofNat 2050 (clamp k (-1) 2048 + 1).toNat)

/-- The integer part of a Q16.16 position, `pos >> 16` (46_math_trig.md R258). -/
def wholePart (pos : Q16) : Int := shr pos.toInt 16

/-- The fraction of a Q16.16 position, `pos & 0xFFFF` (46_math_trig.md R258). -/
def fracPart (pos : Q16) : BitVec 16 := pos.setWidth 16

/-- The 4-point spline through the samples around a Q16.16 position (46_math_trig.md R255). -/
def spline (P : Params) (entry : Int → Q16) (pos : Q16) : Q16 :=
  P.catmullRom (entry (wholePart pos - 1)) (entry (wholePart pos)) (entry (wholePart pos + 1))
    (entry (wholePart pos + 2)) (fracPart pos)

/-- The index nearest to a Q16.16 position; `tieUp` decides a position halfway between two (46_math_trig.md R266). -/
def nearestIndex (pos : Q16) (tieUp : Bool) : Int :=
  if (fracPart pos).toNat < 32768 then wholePart pos
  else if 32768 < (fracPart pos).toNat then wholePart pos + 1
  else if tieUp then wholePart pos + 1 else wholePart pos

/-! ### Angles (46_math_trig.md R252, R253) -/

/-- The quadrant of an angle: the top two bits of its `N`-bit pattern (46_math_trig.md R253). -/
def quadrant (n : Nat) (v : Int) : Nat := (shr (zext n v) (n - 2)).toNat

/-- The phase of an angle: the `N − 2` bits below the quadrant (46_math_trig.md R253). -/
def phase (n : Nat) (v : Int) : Nat := (lowBits (zext n v) (n - 2)).toNat

/-! ### Sine (46_math_trig.md R256 to R258) -/

/-- The table index of the retro sine: the phase in the top bits of the 12-bit index, mirrored when the quadrant's low
bit is set (46_math_trig.md R257). -/
def retroIndex (n : Nat) (mirror : Bool) (ph : Nat) : Int :=
  if mirror then (Config.lutMask : Int) - shl ph (14 - n) else shl ph (14 - n)

/-- `SIN_MAG(N, quad[0], phase)`: one table entry up to `SIN_RETRO_MAX_N`, the spline above (46_math_trig.md R254,
R257, R258). -/
def sinMag (P : Params) (n : Nat) (mirror : Bool) (ph : Nat) : Q16 :=
  if n ≤ Config.sinRetroMaxN then sample P.sinLut (retroIndex n mirror ph)
  else spline P (sample P.sinLut) (P.sinPos n mirror ph)

/-- The sine in Q16.16: the magnitude, negated when the quadrant's high bit is set (46_math_trig.md R256). -/
def sinQ16 (P : Params) (n : Nat) (v : Int) : Q16 :=
  if (quadrant n v).testBit 1 then negQ16 P (sinMag P n ((quadrant n v).testBit 0) (phase n v))
  else sinMag P n ((quadrant n v).testBit 0) (phase n v)

/-- SIN before the final wrap (46_math_trig.md R256). -/
def sinRaw (P : Params) (u : Family) (n f : Nat) (v : Int) : Int := P.rescaleOut u n f (sinQ16 P n v)

/-- The angle a quarter turn ahead (46_math_trig.md R252, R259). -/
def quarterAhead (u : Family) (n : Nat) (v : Int) : Int := wrap u n (v + 2 ^ (n - 2))

/-! ### Tangent (46_math_trig.md R261, R262) -/

/-- `TAN_CORE(U, N, F, quad, phase)`: the four bit-width buckets of 46_math_trig.md R262. N = 13 takes one of the two
retro formulas, never the spline (90_conflicts.md C4). -/
def tanCore (P : Params) (u : Family) (n f quad ph : Nat) : Int :=
  if n = 2 then P.tanTrivial u f quad
  else if n ≤ 12 ∨ (n = 13 ∧ P.tan13Direct = true) then
    P.tanDirect u n f quad ph (P.tanLut (P.tanIndex n quad ph))
  else if n ≤ 14 then P.tanDedicated u n f quad ph
  else P.tanSpline u n f quad ph (spline P (sample P.tanLut) (P.tanPos n quad ph))

/-- TAN as a raw: the exact sentinels at 90 and 270 degrees, else the wrapped core (46_math_trig.md R261). -/
def tanRaw (P : Params) (u : Family) (n f : Nat) (v : Int) : Int :=
  if phase n v = 0 ∧ quadrant n v = 1 then tmax u n
  else if phase n v = 0 ∧ quadrant n v = 3 then tmin u n
  else wrap u n (tanCore P u n f (quadrant n v) (phase n v))

/-! ### Arcsine and arccosine (46_math_trig.md R264 to R268) -/

/-- Whether the magnitude of `x` is beyond sin 75 degrees (46_math_trig.md R266 (3)). -/
def beyondSin75 (P : Params) (x : Q16) : Bool :=
  decide (P.sin75.toInt < |x.toInt|) || (P.sin75Inclusive && decide (|x.toInt| = P.sin75.toInt))

/-- The angle of `x`, given the angle looked up: that angle itself for `x ≥ 0`, where no sign is left to handle; for a
negative `x` what the open function `negative` makes of it (46_math_trig.md R266, R269). -/
def forSign (negative : Q16 → Q16) (x angle : Q16) : Q16 := if x.toInt < 0 then negative angle else angle

/-- The nearest-neighbour asin of the retro band (46_math_trig.md R266 (2)). -/
def asinNearest (P : Params) (n : Nat) (x : Q16) : Q16 :=
  if P.asinRetroTail && beyondSin75 P x then
    forSign (P.asinTailAngle n x) x (tailSample P (nearestIndex (P.asinTailPos n x) (P.asinTieUp n x)))
  else sample P.asinLut (nearestIndex (P.asinPos n x) (P.asinTieUp n x))

/-- The interpolated asin: the tail beyond sin 75 degrees, the main table below (46_math_trig.md R266 (1), (3), (4)). -/
def asinSpline (P : Params) (n : Nat) (x : Q16) : Q16 :=
  if beyondSin75 P x then forSign (P.asinTailAngle n x) x (spline P (tailSample P) (P.asinTailPos n x))
  else spline P (sample P.asinLut) (P.asinPos n x)

/-- `ASIN_CORE(N, x)` (46_math_trig.md R266); nothing is stated for `|x| > 1.0` (93_implementation_defined.md U9). -/
def asinCore (P : Params) (n : Nat) (x : Q16) : Q16 :=
  if Config.q16One < |x.toInt| then P.asinOutside n x
  else if n ≤ Config.asinRetroMaxN then asinNearest P n x
  else asinSpline P n x

/-- ASIN before the final wrap (46_math_trig.md R265). -/
def asinRaw (P : Params) (u : Family) (n f : Nat) (v : Int) : Int :=
  P.requantA u n (asinCore P n (P.rescaleIn u n f v))

/-- ACOS before the final wrap: `π/2 − asin` on the core's Q16.16 angle (46_math_trig.md R264, R267, R268). -/
def acosRaw (P : Params) (u : Family) (n f : Nat) (v : Int) : Int :=
  P.requantAcos u n (subQ16 P P.halfPi (asinCore P n (P.rescaleIn u n f v)))

/-! ### Arctangent (46_math_trig.md R269 to R272) -/

/-- The angle that `ATAN_LUT` gives, interpolated or not (46_math_trig.md R269, R271: the one core table). -/
def atanLookup (P : Params) (interpolates : Bool) (pos : Q16) (index : Fin 4096) : Q16 :=
  if interpolates then spline P (sample P.atanLut) pos else P.atanLut index

/-- ATAN's angle of a ratio in [0, 1] (46_math_trig.md R269). -/
def atanTable (P : Params) (n : Nat) (ratio : Q16) : Q16 :=
  atanLookup P (P.atanInterpolates n) (P.atanPos n ratio) (P.atanIndex n ratio)

/-- ATAN2's angle of a ratio in [0, 1], from the same table (46_math_trig.md R271). Whether it is interpolated and where
a ratio lies in it is open, and not tied to ATAN's. -/
def atan2Table (P : Params) (n : Nat) (ratio : Q16) : Q16 :=
  atanLookup P (P.atan2Interpolates n) (P.atan2Pos n ratio) (P.atan2Index n ratio)

/-- `ATAN_CORE(N, x)`: the magnitude is looked up, through `π/2 − atan(1/x)` above 1.0 (46_math_trig.md R269).
For `x ≥ 0` that angle is the result; how a negative `x` is handled is open. -/
def atanCore (P : Params) (n : Nat) (x : Q16) : Q16 :=
  forSign (P.atanAngle n x) x
    (if Config.q16One < |x.toInt| then subQ16 P P.halfPi (atanTable P n (P.atanRecip n x.toInt.natAbs))
    else atanTable P n (BitVec.ofNat 32 x.toInt.natAbs))

/-- ATAN before the final wrap; it shares ASIN's requantizer (46_math_trig.md R270). -/
def atanRaw (P : Params) (u : Family) (n f : Nat) (v : Int) : Int :=
  P.requantA u n (atanCore P n (P.rescaleIn u n f v))

/-- Whether ATAN2 takes the branch of `|y|` above `|x|` (46_math_trig.md R271). -/
def atan2Steep (P : Params) (y x : Int) : Bool := decide (|x| < |y|) || (P.atan2EqualSteep && decide (|x| = |y|))

/-- `ATAN2_CORE(N, y, x)`: branches on the relative magnitude and on the signs, over the same table
(46_math_trig.md R271); an operand that is 0 is left open (93_implementation_defined.md U9). Its operands are those
of `atan2Operand`. -/
def atan2Core (P : Params) (n : Nat) (y x : Int) : Q16 :=
  if y = 0 ∨ x = 0 then P.atan2Axis n y x
  else P.atan2Angle n (atan2Steep P y x) (decide (x < 0)) (decide (y < 0)) (atan2Table P n (P.atan2Ratio n y x))

/-- An operand of ATAN2 as the core sees it: the raw, or its Q16.16 number, which R271 leaves open (46_math_trig.md R271,
R272; log 15). -/
def atan2Operand (P : Params) (u : Family) (n f : Nat) (v : Int) : Int :=
  if P.atan2Rescales then (P.rescaleIn u n f v).toInt else v

/-- ATAN2 before the final wrap (46_math_trig.md R272). -/
def atan2Raw (P : Params) (u : Family) (n f : Nat) (y x : Int) : Int :=
  P.requantAtan2 u n (atan2Core P n (atan2Operand P u n f y) (atan2Operand P u n f x))

/-! ### Square root, exponential, logarithm (47_math_sqrt_exp_log.md)

R308: SQRT alone is exact, so `sqrtRaw` takes no open parameter; EXP2, EXP and LOG2 are the low-order approximations of
R302, R304 and R306 over open pieces, and no library value is assumed of them (log 14). -/

/-- SQRT before the final wrap: `isqrt(|A| · 2^F)` (47_math_sqrt_exp_log.md R300), exact and fully defined (R308). -/
def sqrtRaw (f : Nat) (v : Int) : Int := isqrt (v.natAbs * 2 ^ f)

/-- An exact raw that the type holds, else the open result `other` of an overflow (91_not_in_source.md N27; log 14). -/
def rawOrElse (u : Family) (n : Nat) (v other : Int) : Int := if tmin u n ≤ v ∧ v ≤ tmax u n then v else other

/-- A product brought to another scale by an open function, its order, width and rounding; a product of 0 is 0 in every
scale, so that `1 + f·ln2` is 1 at `f = 0` and `x · log2 e` is 0 at `x = 0` (47_math_sqrt_exp_log.md R302, R304; log
14). -/
def scaled (scale : Int → Int) (product : Int) : Int := if product = 0 then 0 else scale product

/-- `m · 2^e` by bit-shift; `up` rounds up a right shift that loses bits (47_math_sqrt_exp_log.md R302). -/
def shiftBy (up : Bool) (m e : Int) : Int :=
  if 0 ≤ e then shl m e.toNat
  else if up && decide (lowBits m (-e).toNat ≠ 0) then shr m (-e).toNat + 1
  else shr m (-e).toNat

/-- The integer part of the exponent: `A / 2^f` where that is whole, else the whole number below or above it
(47_math_sqrt_exp_log.md R302, N27). -/
def exp2Whole (P : Params) (u : Family) (n f : Nat) (v : Int) : Int :=
  if P.exp2WholeUp u n f v && decide (lowBits v f ≠ 0) then shr v f + 1 else shr v f

/-- `1 + f·ln2` in the working fractional bits, for the fractional part of the exponent (47_math_sqrt_exp_log.md
R302). -/
def exp2Mantissa (P : Params) (u : Family) (n f : Nat) (v : Int) : Int :=
  2 ^ P.exp2Bits u n f v +
    scaled (P.exp2Scaled u n f (P.exp2Bits u n f v)) ((v - exp2Whole P u n f v * 2 ^ f) * P.ln2Q (P.exp2Bits u n f v))

/-- `2^intPart · 2^fracPart` in the working fractional bits, the integer part by bit-shift (47_math_sqrt_exp_log.md
R302). -/
def exp2Shifted (P : Params) (u : Family) (n f : Nat) (v : Int) : Int :=
  shiftBy (P.exp2RoundUp u n f v) (exp2Mantissa P u n f v) (exp2Whole P u n f v)

/-- `EXP2_CORE(U, N, F, A)`: the shifted number brought to `F` fractional bits (47_math_sqrt_exp_log.md R302). The order
is open: a working precision of `F` bits, or one so wide that the first shift loses nothing, makes the two shifts one.
Where the shifted number is at least 2.0 and beyond a 32-bit word, or the result is outside the type, the raw is open
(91_not_in_source.md N27, "overflow for a large one"; log 14). -/
def exp2Core (P : Params) (u : Family) (n f : Nat) (v : Int) : Int :=
  if exp2Shifted P u n f v < 2 ^ (P.exp2Bits u n f v + 1) ∨ exp2Shifted P u n f v ≤ tmax u 32 then
    rawOrElse u n (shiftBy (P.exp2RescaleUp u n f v) (exp2Shifted P u n f v) (f - P.exp2Bits u n f v))
      (P.exp2Overflow u n f v)
  else P.exp2Overflow u n f v

/-- `EXP_ARG(U, N, F, A)`: `x · log2 e` (47_math_sqrt_exp_log.md R304). -/
def expArg (P : Params) (u : Family) (n f : Nat) (v : Int) : Int := scaled (P.expArgScaled u n f) (v * P.log2eQ f)

/-- The linear fractional correction for a raw whose highest set bit is `k`: slope times the mantissa above 1.0, plus the
offset, times `2^k`, scaled to a raw (47_math_sqrt_exp_log.md R306). -/
def log2Correction (P : Params) (u : Family) (n f k : Nat) (v : Int) : Int :=
  scaled (P.log2Scaled u n f k) (P.log2Slope u n f * (v - 2 ^ k) + P.log2Offset u n f * 2 ^ k)

/-- `LOG2_CORE(U, N, F, A)`: the position of the most significant set bit plus the correction (47_math_sqrt_exp_log.md
R306); nothing is stated for `A ≤ 0` (93_implementation_defined.md U9). -/
def log2Core (P : Params) (u : Family) (n f : Nat) (v : Int) : Int :=
  match highestSet v.toNat 32 with
  | some k => rawOrElse u n (((k : Int) - f) * 2 ^ f + log2Correction P u n f k v) (P.log2Overflow u n f v)
  | none => P.log2Outside u n f v

/-- EXP2 before the final wrap (47_math_sqrt_exp_log.md R302). -/
def exp2Raw (P : Params) (u : Family) (n f : Nat) (v : Int) : Int := exp2Core P u n f v

/-- EXP before the final wrap: `Exp2(x · log2 e)` (47_math_sqrt_exp_log.md R304). -/
def expRaw (P : Params) (u : Family) (n f : Nat) (v : Int) : Int := exp2Core P u n f (expArg P u n f v)

/-- LOG2 before the final wrap (47_math_sqrt_exp_log.md R306). -/
def log2Raw (P : Params) (u : Family) (n f : Nat) (v : Int) : Int := log2Core P u n f v

/-! ### The spec's defaults for executable tests

The functions above never use them; a claim about them is a claim about the defaults (47_math_sqrt_exp_log.md R309). -/

/-- Default `RESCALE_IN` (46_math_trig.md R251). -/
def rescaleInRef (f : Nat) (v : Int) : Int := if f ≤ 16 then shl v (16 - f) else shr v (f - 16)

/-- Default `RESCALE_OUT` (46_math_trig.md R251). -/
def rescaleOutRef (f : Nat) (q : Int) : Int := if f ≤ 16 then shr q (16 - f) else shl q (f - 16)

/-- The unmirrored default position (46_math_trig.md R258). -/
def sinPos0Ref (n ph : Nat) : Int := if n ≤ 30 then shl ph (30 - n) else shr ph 1

/-- Default `SIN_POS` (46_math_trig.md R258). -/
def sinPosRef (n : Nat) (mirror : Bool) (ph : Nat) : Int :=
  if mirror then max 0 (shl Config.lutMask 16 - sinPos0Ref n ph) else sinPos0Ref n ph

/-- Default `LN2_Q(F)` (47_math_sqrt_exp_log.md R303). -/
def ln2QRef (f : Nat) : Int := shr 0xB17217F7 (32 - f)

/-- Default `LOG2E_Q(F)` (47_math_sqrt_exp_log.md R305). -/
def log2eQRef (f : Nat) : Int := shr 0x171547652 (32 - f)

/-- Reference `EXP2_CORE` over a constant `LN2_Q` (47_math_sqrt_exp_log.md R303). -/
def exp2CoreRef (ln2 : Nat → Int) (f : Nat) (v : Int) : Int :=
  shiftBy false (2 ^ f + shr (lowBits v f * ln2 f) f) (shr v f)

/-- Reference `EXP_ARG` over a constant `LOG2E_Q` (47_math_sqrt_exp_log.md R305). -/
def expArgRef (log2e : Nat → Int) (u : Family) (n f : Nat) (v : Int) : Int := wrap u n (shr (v * log2e f) f)

/-- Reference `LOG2_CORE` for a raw above 0 (47_math_sqrt_exp_log.md R307), where `k` is the highest set bit. -/
def log2CoreRef (f : Nat) (v : Int) (k : Nat) : Int :=
  shl ((k : Int) - f) f + shr (shl (v - 2 ^ k) f) k

/-- Parameters with the spec's defaults in place of what has one; the rest, LOG2 of `A ≤ 0` included, stays as in `P`
(92_eei_decisions.md section 2). -/
def withDefaults (P : Params) : Params :=
  { P with
    rescaleIn := fun _ _ f v => toQ16 P (rescaleInRef f v)
    rescaleOut := fun _ _ f q => rescaleOutRef f q.toInt
    sinPos := fun n mirror ph => toQ16 P (sinPosRef n mirror ph)
    ln2Q := ln2QRef
    log2eQ := log2eQRef
    exp2WholeUp := fun _ _ _ _ => false
    exp2Bits := fun _ _ f _ => f
    exp2Scaled := fun _ _ f _ p => shr p f
    exp2RoundUp := fun _ _ _ _ => false
    exp2RescaleUp := fun _ _ _ _ => false
    exp2Overflow := fun _ _ f v => exp2CoreRef ln2QRef f v
    expArgScaled := fun u n f p => wrap u n (shr p f)
    log2Slope := fun _ _ f => 2 ^ f
    log2Offset := fun _ _ _ => 0
    log2Scaled := fun _ _ _ k p => shr p k
    log2Overflow := fun u n f v =>
      match highestSet v.toNat 32 with
      | some k => log2CoreRef f v k
      | none => P.log2Outside u n f v }

end Sys2Proof.Machine
end

