-- ==== Sys2Proof/Machine/Math.lean ====
section
/-! DEFINITION. The math engine's operations (46_math_trig.md, 47_math_sqrt_exp_log.md) over the open parameters of the
instance, `Config.params`. Every result passes through the constructor (46_math_trig.md R251). -/

namespace Sys2Proof.Machine

/-- SIN (46_math_trig.md R256). -/
def execSin (t : FixType) (s : State) : Answer :=
  guardAngle t s
    (completeWrapped t.u t.n.toNat
      (sinRaw Config.params t.u t.n.toNat t.f.toNat (s.valA t.u t.n.toNat)) s)

/-- COS: SIN of the angle a quarter turn ahead, no separate table (46_math_trig.md R259). -/
def execCos (t : FixType) (s : State) : Answer :=
  guardAngle t s
    (completeWrapped t.u t.n.toNat
      (sinRaw Config.params t.u t.n.toNat t.f.toNat (quarterAhead t.u t.n.toNat (s.valA t.u t.n.toNat))) s)

/-- TAN (46_math_trig.md R261). -/
def execTan (t : FixType) (s : State) : Answer :=
  guardAngle t s
    (completeInRange (tanRaw Config.params t.u t.n.toNat t.f.toNat (s.valA t.u t.n.toNat)) s)

/-- ASIN (46_math_trig.md R265). -/
def execAsin (t : FixType) (s : State) : Answer :=
  guardAngle t s
    (completeWrapped t.u t.n.toNat
      (asinRaw Config.params t.u t.n.toNat t.f.toNat (s.valA t.u t.n.toNat)) s)

/-- ACOS (46_math_trig.md R267). -/
def execAcos (t : FixType) (s : State) : Answer :=
  guardAngle t s
    (completeWrapped t.u t.n.toNat
      (acosRaw Config.params t.u t.n.toNat t.f.toNat (s.valA t.u t.n.toNat)) s)

/-- ATAN (46_math_trig.md R270). -/
def execAtan (t : FixType) (s : State) : Answer :=
  guardAngle t s
    (completeWrapped t.u t.n.toNat
      (atanRaw Config.params t.u t.n.toNat t.f.toNat (s.valA t.u t.n.toNat)) s)

/-- ATAN2: `y` on port `a`, `x` on port `b` (46_math_trig.md R272). -/
def execAtan2 (t : FixType) (s : State) : Answer :=
  guardAngle t s
    (completeWrapped t.u t.n.toNat
      (atan2Raw Config.params t.u t.n.toNat t.f.toNat (s.valA t.u t.n.toNat) (s.valB t.u t.n.toNat)) s)

/-- SQRT (47_math_sqrt_exp_log.md R300). -/
def execSqrt (t : FixType) (s : State) : Answer :=
  guardFix t s (completeWrapped t.u t.n.toNat (sqrtRaw t.f.toNat (s.valA t.u t.n.toNat)) s)

/-- EXP2 (47_math_sqrt_exp_log.md R302). -/
def execExp2 (t : FixType) (s : State) : Answer :=
  guardFix t s
    (completeWrapped t.u t.n.toNat
      (exp2Raw Config.params t.u t.n.toNat t.f.toNat (s.valA t.u t.n.toNat)) s)

/-- EXP (47_math_sqrt_exp_log.md R304). -/
def execExp (t : FixType) (s : State) : Answer :=
  guardFix t s
    (completeWrapped t.u t.n.toNat
      (expRaw Config.params t.u t.n.toNat t.f.toNat (s.valA t.u t.n.toNat)) s)

/-- LOG2 (47_math_sqrt_exp_log.md R306). -/
def execLog2 (t : FixType) (s : State) : Answer :=
  guardFix t s
    (completeWrapped t.u t.n.toNat
      (log2Raw Config.params t.u t.n.toNat t.f.toNat (s.valA t.u t.n.toNat)) s)

end Sys2Proof.Machine
end

