-- ==== Sys2Proof/Machine/Dispatch.lean ====
section
/-! DEFINITION. The one map from instructions to their meanings: each arm calls the meaning of its row of
30_encoding.md R66. -/

namespace Sys2Proof.Machine

/-- Serve a decoded command. -/
def exec (i : Instr) (s : State) : Host.Outcome State Fault Refusal :=
  match i with
  | .iwrap t => Sys2Proof.Machine.execIwrap t s
  | .iconst t sel => Sys2Proof.Machine.execIconst t sel s
  | .iadd t => Sys2Proof.Machine.execIadd t s
  | .isub t => Sys2Proof.Machine.execIsub t s
  | .imul t => Sys2Proof.Machine.execImul t s
  | .idiv t => Sys2Proof.Machine.execIdiv t s
  | .imod t => Sys2Proof.Machine.execImod t s
  | .iaddsat t => Sys2Proof.Machine.execIaddsat t s
  | .isubsat t => Sys2Proof.Machine.execIsubsat t s
  | .imulsat t => Sys2Proof.Machine.execImulsat t s
  | .iclamp t => Sys2Proof.Machine.execIclamp t s
  | .iclamp01 t => Sys2Proof.Machine.execIclamp01 t s
  | .iclampofs t => Sys2Proof.Machine.execIclampofs t s
  | .imulpow2 t => Sys2Proof.Machine.execImulpow2 t s
  | .idivpow2 t => Sys2Proof.Machine.execIdivpow2 t s
  | .ishl t => Sys2Proof.Machine.execIshl t s
  | .ishr t => Sys2Proof.Machine.execIshr t s
  | .imodpow2 t => Sys2Proof.Machine.execImodpow2 t s
  | .irol t => Sys2Proof.Machine.execIrol t s
  | .iror t => Sys2Proof.Machine.execIror t s
  | .ipopcnt t => Sys2Proof.Machine.execIpopcnt t s
  | .iparity t => Sys2Proof.Machine.execIparity t s
  | .iclz t => Sys2Proof.Machine.execIclz t s
  | .ictz t => Sys2Proof.Machine.execIctz t s
  | .ibsr t => Sys2Proof.Machine.execIbsr t s
  | .ibsf t => Sys2Proof.Machine.execIbsf t s
  | .itobytes t => Sys2Proof.Machine.execItobytes t s
  | .ifrombytes t => Sys2Proof.Machine.execIfrombytes t s
  | .igetbyte t => Sys2Proof.Machine.execIgetbyte t s
  | .isetbyte t => Sys2Proof.Machine.execIsetbyte t s
  | .fwrap t => Sys2Proof.Machine.execFwrap t s
  | .fconst t sel => Sys2Proof.Machine.execFconst t sel s
  | .fadd t => Sys2Proof.Machine.execFadd t s
  | .fsub t => Sys2Proof.Machine.execFsub t s
  | .fmul t => Sys2Proof.Machine.execFmul t s
  | .fdiv t => Sys2Proof.Machine.execFdiv t s
  | .fmod t => Sys2Proof.Machine.execFmod t s
  | .faddsat t => Sys2Proof.Machine.execFaddsat t s
  | .fsubsat t => Sys2Proof.Machine.execFsubsat t s
  | .fmulsat t => Sys2Proof.Machine.execFmulsat t s
  | .fclamp t => Sys2Proof.Machine.execFclamp t s
  | .fclamp01 t => Sys2Proof.Machine.execFclamp01 t s
  | .fclampofs t => Sys2Proof.Machine.execFclampofs t s
  | .fcvt t f2 => Sys2Proof.Machine.execFcvt t f2 s
  | .ffloor t => Sys2Proof.Machine.execFfloor t s
  | .fceil t => Sys2Proof.Machine.execFceil t s
  | .fround t => Sys2Proof.Machine.execFround t s
  | .ftobytes t => Sys2Proof.Machine.execFtobytes t s
  | .ffrombytes t => Sys2Proof.Machine.execFfrombytes t s
  | .fgetbyte t => Sys2Proof.Machine.execFgetbyte t s
  | .fsetbyte t => Sys2Proof.Machine.execFsetbyte t s
  | .sin t => Sys2Proof.Machine.execSin t s
  | .cos t => Sys2Proof.Machine.execCos t s
  | .tan t => Sys2Proof.Machine.execTan t s
  | .asin t => Sys2Proof.Machine.execAsin t s
  | .acos t => Sys2Proof.Machine.execAcos t s
  | .atan t => Sys2Proof.Machine.execAtan t s
  | .atan2 t => Sys2Proof.Machine.execAtan2 t s
  | .sqrt t => Sys2Proof.Machine.execSqrt t s
  | .exp2 t => Sys2Proof.Machine.execExp2 t s
  | .exp t => Sys2Proof.Machine.execExp t s
  | .log2 t => Sys2Proof.Machine.execLog2 t s

end Sys2Proof.Machine
end

