-- ==== Sys2Proof/Machine/Step.lean ====
section
/-! DEFINITION. One step of FXE: it serves the command on its request ports and gives the response
(70_reset_and_hazards.md R457). -/

namespace Sys2Proof.Machine

/-- Serve the command presented: decode its word (30_encoding.md R65); a word that is no instruction gets the status
IllegalCommand (30_encoding.md R67), any other is executed. The request ports keep what the host drives on them. -/
def step (s : State) : Host.Outcome State Fault Refusal :=
  match decode s.fetch with
  | .ok i => exec i s
  | .error _ => raise .illegalCommand s

/-- The host presents the command word `w` (its bits above `nbits` are 0) on the port the next step reads; the operand
ports stay as they are (log 13). -/
def State.withFetchWord (s : State) (nbits w : Nat) : State := { s with cw := BitVec.ofNat 32 (w % 2 ^ nbits) }

end Sys2Proof.Machine
end

