-- ==== Sys2Proof/Machine/HostCodec.lean ====
section
/-! DEFINITION. The host-side codecs of 48_host_codecs.md: numeric strings (R320 to R322), the two JSON forms (R323 to
R326) and the floating-point conversions (R327 to R331). They have no opcode and `step` never uses them: each ends in,
or starts from, an IWRAP or FWRAP of the host (30_encoding.md R71). Text is a list of characters; JSON text is
modelled as far as the two forms of R323 and R324 need it (log 11).

DESIGN CHOICE (log 16): the target types are those with `N ≤ 32` and `F ≤ 32`, the library's types (00_scope.md R5,
R6). For a wider one the IWRAP or FWRAP at the end would raise NotSupportedError (60_exceptions.md R404) and no rule
says what the host function gives; the functions here wrap to that width and raise nothing of the kind. -/

namespace Sys2Proof.Machine

open Sys2Proof.Config (Params HostReal RealFormat)

/-! ### Numeric strings -/

/-- The value of a digit character in a base, letters in either case (48_host_codecs.md R320). -/
def digitValue (base : Nat) (ch : Char) : Option Nat :=
  let code := ch.toNat
  let d :=
    if 48 ≤ code ∧ code ≤ 57 then code - 48
    else if 65 ≤ code ∧ code ≤ 70 then code - 55
    else if 97 ≤ code ∧ code ≤ 102 then code - 87
    else base
  if d < base then some d else none

/-- A run of digits on top of the value read so far. -/
def digitsFrom (base : Nat) : Nat → List Char → Option Nat
  | acc, [] => some acc
  | acc, ch :: rest =>
    match digitValue base ch with
    | some d => digitsFrom base (acc * base + d) rest
    | none => none

/-- One or more digits. -/
def digits (base : Nat) (text : List Char) : Option Nat :=
  match text with
  | [] => none
  | _ :: _ => digitsFrom base 0 text

/-- A numeric string: decimal, `0x` hexadecimal or `0b` binary, in either case (48_host_codecs.md R320). Anything else
is malformed (92_eei_decisions.md D42), but for a decimal with a leading minus sign, which `toJson` writes (DESIGN
CHOICE, log 11). -/
def parseNumber (text : List Char) : Option Int :=
  match text with
  | '0' :: 'x' :: rest => (digits 16 rest).map Int.ofNat
  | '0' :: 'X' :: rest => (digits 16 rest).map Int.ofNat
  | '0' :: 'b' :: rest => (digits 2 rest).map Int.ofNat
  | '0' :: 'B' :: rest => (digits 2 rest).map Int.ofNat
  | '-' :: rest => (digits 10 rest).map (fun v : Nat => -(v : Int))
  | _ => (digits 10 text).map Int.ofNat

/-- `Parse`: a value that is out of range wraps, malformed text raises FormatError (48_host_codecs.md R321, R322); a width
above 32 is not checked (DESIGN CHOICE, log 16). -/
def parse (u : Family) (n : Nat) (text : List Char) : Except ErrorKind Word :=
  match parseNumber text with
  | some v => .ok (cell (wrap u n v))
  | none => .error .formatError

/-- `TryParse`: a value, or the flag that says there is none; it never raises (48_host_codecs.md R322). -/
def tryParse (u : Family) (n : Nat) (text : List Char) : Option Word :=
  match parseNumber text with
  | some v => some (cell (wrap u n v))
  | none => none

/-! ### JSON -/

/-- The decimal digits of a number, with `fuel` more digits at most. -/
def decimalFrom : Nat → Nat → List Char → List Char
  | 0, _, acc => acc
  | fuel + 1, v, acc =>
    let acc' := Char.ofNat (48 + v % 10) :: acc
    if v / 10 = 0 then acc' else decimalFrom fuel (v / 10) acc'

/-- A raw of at most 32 bits in decimal (48_host_codecs.md R323; ten digits are enough). -/
def decimal (v : Int) : List Char :=
  if v < 0 then '-' :: decimalFrom 10 v.natAbs [] else decimalFrom 10 v.natAbs []

/-- The characters of JSON's own punctuation, by code: the quotation mark, the comma, the colon, the braces. -/
def quoteChar : Char := Char.ofNat 34
def commaChar : Char := Char.ofNat 44
def colonChar : Char := Char.ofNat 58
def openBrace : Char := Char.ofNat 123
def closeBrace : Char := Char.ofNat 125

/-- A JSON string of characters that need no escape. -/
def quoted (text : List Char) : List Char := quoteChar :: (text ++ [quoteChar])

/-- The text inside a JSON string; one that is not closed, or that has text after it, is none. An escape stays as
written, and so is no digit (log 11). -/
def unquoted (text : List Char) : Option (List Char) :=
  match text with
  | [] => none
  | ch :: rest =>
    if ch = quoteChar ∧ rest.getLast? = some quoteChar then some rest.dropLast else none

/-- `ToJson`: the raw in decimal, as a JSON string (48_host_codecs.md R323). -/
def toJson (u : Family) (n : Nat) (w : Word) : List Char := quoted (decimal (operandV u n w))

/-- `FromJson`: such a JSON string, its text read by the rules of numeric strings; anything else is malformed
(48_host_codecs.md R323, R322). -/
def fromJson (u : Family) (n : Nat) (text : List Char) : Except ErrorKind Word :=
  match unquoted text with
  | some inner => parse u n inner
  | none => .error .formatError

/-- The keys of the self-describing form (48_host_codecs.md R324). -/
inductive MetaKey where
  | intBits
  | uintBits
  | fracBits
  | raw
  deriving DecidableEq, Repr

/-- A key as it is written. -/
def MetaKey.text : MetaKey → List Char
  | .intBits => ['i', 'n', 't', 'B', 'i', 't', 's']
  | .uintBits => ['u', 'i', 'n', 't', 'B', 'i', 't', 's']
  | .fracBits => ['f', 'r', 'a', 'c', 'B', 'i', 't', 's']
  | .raw => ['r', 'a', 'w']

/-- The width key of a family: `intBits` or `uintBits` (48_host_codecs.md R324). -/
def widthKey : Family → MetaKey
  | .signed => .intBits
  | .unsigned => .uintBits

/-- One member of the object as it is written: the key as a JSON string, a colon, a JSON number. -/
def memberText (key : MetaKey) (v : Int) : List Char := quoted key.text ++ colonChar :: decimal v

/-- `ToJsonWithMeta`: the object's text, the width, the fraction and the raw in that order (48_host_codecs.md R324). -/
def toJsonWithMeta (t : FixType) (w : Word) : List Char :=
  openBrace :: (memberText (widthKey t.u) t.n.toNat ++
    commaChar :: (memberText .fracBits t.f.toNat ++
      commaChar :: (memberText .raw (operandV t.u t.n.toNat w) ++ [closeBrace])))

/-- The text without its leading JSON white space. -/
def skipSpace : List Char → List Char
  | [] => []
  | ch :: rest =>
    if ch.toNat = 32 ∨ ch.toNat = 9 ∨ ch.toNat = 10 ∨ ch.toNat = 13 then skipSpace rest else ch :: rest

/-- The text after one character, with white space allowed before it. -/
def expectChar (want : Char) (text : List Char) : Option (List Char) :=
  match skipSpace text with
  | [] => none
  | ch :: rest => if ch = want then some rest else none

/-- The text after a fixed run of characters. -/
def expectText : List Char → List Char → Option (List Char)
  | [], text => some text
  | _ :: _, [] => none
  | want :: wants, ch :: rest => if ch = want then expectText wants rest else none

/-- The leading run of decimal digits, and the text after it. -/
def splitDigits : List Char → List Char × List Char
  | [] => ([], [])
  | ch :: rest =>
    match digitValue 10 ch with
    | some _ => (ch :: (splitDigits rest).1, (splitDigits rest).2)
    | none => ([], ch :: rest)

/-- A JSON integer, with white space allowed before it: digits, after a minus sign or not. -/
def readInt (text : List Char) : Option (Int × List Char) :=
  match skipSpace text with
  | '-' :: rest => (digits 10 (splitDigits rest).1).map (fun v => (-(v : Int), (splitDigits rest).2))
  | rest => (digits 10 (splitDigits rest).1).map (fun v => ((v : Int), (splitDigits rest).2))

/-- One member with that key, with white space allowed between its parts. -/
def readMember (key : MetaKey) (text : List Char) : Option (Int × List Char) :=
  (expectText (quoted key.text) (skipSpace text)).bind fun afterKey =>
    (expectChar colonChar afterKey).bind readInt

/-- A self-describing object as its key and number pairs, in the order they stand. -/
abbrev MetaObject := List (MetaKey × Int)

/-- One member with any of the four keys. -/
def readAnyMember (text : List Char) : Option ((MetaKey × Int) × List Char) :=
  [MetaKey.intBits, .uintBits, .fracBits, .raw].findSome? fun key =>
    (readMember key text).map fun r => ((key, r.1), r.2)

/-- So many more members, each after a comma, then the closing brace and nothing after it but white space. -/
def readMembers : Nat → List Char → Option MetaObject
  | 0, text => (expectChar closeBrace text).bind fun rest => if skipSpace rest = [] then some [] else none
  | more + 1, text =>
    (expectChar commaChar text).bind fun rest =>
      (readAnyMember rest).bind fun r => (readMembers more r.2).map (r.1 :: ·)

/-- A self-describing object of three members (48_host_codecs.md R324), in any order. -/
def readMeta (text : List Char) : Option MetaObject :=
  (expectChar openBrace text).bind fun rest =>
    (readAnyMember rest).bind fun r => (readMembers 2 r.2).map (r.1 :: ·)

/-- `FromJsonWithMeta`: the width key and the widths must be those of the target, else FormatError and no value; then
FWRAP of the raw (48_host_codecs.md R325). An object must hold the three keys of a shape of R324 once each; one with
both width keys, a key twice, a key missing or a key more fails closed (DESIGN CHOICE, log 11); a target with a width above 32 is not
checked (DESIGN CHOICE, log 16). -/
def fromJsonWithMeta (t : FixType) (text : List Char) : Except ErrorKind Word :=
  match readMeta text with
  | none => .error .formatError
  | some obj =>
    match obj.lookup (widthKey t.u), obj.lookup .fracBits, obj.lookup .raw with
    | some n, some f, some raw =>
      if n = t.n.toNat ∧ f = t.f.toNat then .ok (cell (wrap t.u t.n.toNat raw)) else .error .formatError
    | _, _, _ => .error .formatError

/-! ### Floating point at the boundary -/

/-- The real number of an IEEE 754 word with `eb` exponent bits and `fb` fraction bits, given its sign, exponent field
and fraction field (48_host_codecs.md R327; PRESUMED, log 12). -/
def realOfFields (eb fb : Nat) (neg : Bool) (ex frac : Nat) : HostReal :=
  if ex = 2 ^ eb - 1 then (if frac = 0 then .inf neg else .nan)
  else if ex = 0 then .finite neg frac (2 - (2 ^ (eb - 1) : Int) - fb)
  else .finite neg (2 ^ fb + frac) ((ex : Int) + 1 - 2 ^ (eb - 1) - fb)

/-- A `float`, IEEE 754 binary32 (48_host_codecs.md R327). -/
def realOfFloat (w : BitVec 32) : HostReal :=
  realOfFields 8 23 (w.getLsbD 31) (w.extractLsb' 23 8).toNat (w.extractLsb' 0 23).toNat

/-- A `double`, IEEE 754 binary64 (48_host_codecs.md R327). -/
def realOfDouble (w : BitVec 64) : HostReal :=
  realOfFields 11 52 (w.getLsbD 63) (w.extractLsb' 52 11).toNat (w.extractLsb' 0 52).toNat

/-- `sign · m`. -/
def withSign (neg : Bool) (m : Int) : Int := if neg then -m else m

/-- A finite value truncated toward zero (48_host_codecs.md R328). -/
def truncReal (neg : Bool) (mant : Nat) (exp : Int) : Int :=
  withSign neg (if 0 ≤ exp then shl mant exp.toNat else shr mant (-exp).toNat)

/-- The constructor's result for a whole number that fits 32 bits, read as signed or as unsigned; for any other it is the
result for the open number `other` (91_not_in_source.md N26; log 10). A width above 32 is not checked (DESIGN CHOICE,
log 16). -/
def constructOr (u : Family) (n : Nat) (v other : Int) : Word :=
  if -2 ^ 31 ≤ v ∧ v < 2 ^ 32 then cell (wrap u n v) else cell (wrap u n other)

/-- The integer construction of a finite value: truncate, then IWRAP; where the truncation does not fit 32 bits the
integer is open, for each source format (48_host_codecs.md R328). -/
def castFinite (P : Params) (fmt : RealFormat) (u : Family) (n : Nat) (neg : Bool) (mant : Nat) (exp : Int) : Word :=
  constructOr u n (truncReal neg mant exp) (P.castWide fmt u n (truncReal neg mant exp))

/-- A `double` cast to an integer type (48_host_codecs.md R328, R329). -/
def castDouble (P : Params) (u : Family) (n : Nat) (x : HostReal) : Word :=
  match x, u with
  | .finite neg mant exp, _ => castFinite P .binary64 u n neg mant exp
  | .nan, .unsigned => 0#32
  | .inf false, .unsigned => cell (unsignedMax n)
  | .inf true, .unsigned => cell (signBit n)
  | .nan, .signed => cell (wrap u n (P.castNonFinite .binary64 u n x))
  | .inf _, .signed => cell (wrap u n (P.castNonFinite .binary64 u n x))

/-- A `float` cast to an integer type; nothing is said of a non-finite one (48_host_codecs.md R328, R329). -/
def castFloat (P : Params) (u : Family) (n : Nat) (x : HostReal) : Word :=
  match x with
  | .finite neg mant exp => castFinite P .binary32 u n neg mant exp
  | .nan => cell (wrap u n (P.castNonFinite .binary32 u n x))
  | .inf _ => cell (wrap u n (P.castNonFinite .binary32 u n x))

/-- `num / 2^k` rounded to nearest, ties by the open rule of `FROM_REAL_ROUND` (48_host_codecs.md R330). -/
def roundNearest (P : Params) (num : Int) (k : Nat) : Int :=
  if 2 * lowBits num k < 2 ^ k then shr num k
  else if 2 ^ k < 2 * lowBits num k then shr num k + 1
  else if P.fromRealTieUp (shr num k) then shr num k + 1 else shr num k

/-- `round(value · 2^f)` of a finite value (48_host_codecs.md R330). -/
def roundScaled (P : Params) (f : Nat) (neg : Bool) (mant : Nat) (exp : Int) : Int :=
  if 0 ≤ exp + f then shl (withSign neg mant) (exp + f).toNat
  else roundNearest P (withSign neg mant) (-(exp + f)).toNat

/-- A fixed-point raw from a real of a source format: `round(value · 2^F)`, then the constructor, which wraps any integer
(48_host_codecs.md R330, 00_scope.md R16). -/
def fixedOfReal (P : Params) (fmt : RealFormat) (t : FixType) (x : HostReal) : Word :=
  match x with
  | .finite neg mant exp =>
    cell (wrap t.u t.n.toNat (roundScaled P t.f.toNat neg mant exp))
  | .nan => cell (wrap t.u t.n.toNat (P.fromRealNonFinite fmt t.u t.n.toNat t.f.toNat x))
  | .inf _ => cell (wrap t.u t.n.toNat (P.fromRealNonFinite fmt t.u t.n.toNat t.f.toNat x))

/-- A fixed-point value as a `double`, exact: `raw / 2^F` (48_host_codecs.md R331). -/
def doubleOfFixed (t : FixType) (w : Word) : HostReal :=
  let v := operandV t.u t.n.toNat w
  .finite (decide (v < 0)) v.natAbs (-(t.f.toNat : Int))

/-- A fixed-point value as a `float`: exact where the raw needs at most 24 bits; how a wider one is rounded is open
(48_host_codecs.md R331). -/
def floatOfFixed (P : Params) (t : FixType) (w : Word) : HostReal :=
  let v := operandV t.u t.n.toNat w
  if v % 2 ^ (v.natAbs.log2 - 23) = 0 then .finite (decide (v < 0)) v.natAbs (-(t.f.toNat : Int))
  else P.toFloatRounded v t.f.toNat

end Sys2Proof.Machine
end

