-- ==== Sys2Proof/Safety.lean ====
section
/-! DEFINITION. The terms in which claims are stated, written without the model's own arithmetic: the N-bit register
behind a port word, the word a value is stored in, the storage invariant (10_state.md R21, R22), what a request is
answered with, and the form every response has. -/

namespace Sys2Proof

/-- The type of the value on `r`, for the operations whose result is of kind V (30_encoding.md R64, R66). -/
def Instr.resultType : Instr → Option (Family × Nat)
  | .iwrap t => some (t.u, t.n.toNat)
  | .iconst t _ => some (t.u, t.n.toNat)
  | .iadd t => some (t.u, t.n.toNat)
  | .isub t => some (t.u, t.n.toNat)
  | .imul t => some (t.u, t.n.toNat)
  | .idiv t => some (t.u, t.n.toNat)
  | .imod t => some (t.u, t.n.toNat)
  | .iaddsat t => some (t.u, t.n.toNat)
  | .isubsat t => some (t.u, t.n.toNat)
  | .imulsat t => some (t.u, t.n.toNat)
  | .iclamp t => some (t.u, t.n.toNat)
  | .iclamp01 t => some (t.u, t.n.toNat)
  | .iclampofs t => some (t.u, t.n.toNat)
  | .imulpow2 t => some (t.u, t.n.toNat)
  | .idivpow2 t => some (t.u, t.n.toNat)
  | .ishl t => some (t.u, t.n.toNat)
  | .ishr t => some (t.u, t.n.toNat)
  | .imodpow2 t => some (t.u, t.n.toNat)
  | .irol t => some (t.u, t.n.toNat)
  | .iror t => some (t.u, t.n.toNat)
  | .ipopcnt _ => none
  | .iparity _ => none
  | .iclz _ => none
  | .ictz _ => none
  | .ibsr _ => none
  | .ibsf _ => none
  | .itobytes _ => none
  | .ifrombytes t => some (t.u, t.n.toNat)
  | .igetbyte _ => none
  | .isetbyte t => some (t.u, t.n.toNat)
  | .fwrap t => some (t.u, t.n.toNat)
  | .fconst t _ => some (t.u, t.n.toNat)
  | .fadd t => some (t.u, t.n.toNat)
  | .fsub t => some (t.u, t.n.toNat)
  | .fmul t => some (t.u, t.n.toNat)
  | .fdiv t => some (t.u, t.n.toNat)
  | .fmod t => some (t.u, t.n.toNat)
  | .faddsat t => some (t.u, t.n.toNat)
  | .fsubsat t => some (t.u, t.n.toNat)
  | .fmulsat t => some (t.u, t.n.toNat)
  | .fclamp t => some (t.u, t.n.toNat)
  | .fclamp01 t => some (t.u, t.n.toNat)
  | .fclampofs t => some (t.u, t.n.toNat)
  | .fcvt t _ => some (t.u, t.n.toNat)
  | .ffloor t => some (t.u, t.n.toNat)
  | .fceil t => some (t.u, t.n.toNat)
  | .fround t => some (t.u, t.n.toNat)
  | .ftobytes _ => none
  | .ffrombytes t => some (t.u, t.n.toNat)
  | .fgetbyte _ => none
  | .fsetbyte t => some (t.u, t.n.toNat)
  | .sin t => some (t.u, t.n.toNat)
  | .cos t => some (t.u, t.n.toNat)
  | .tan t => some (t.u, t.n.toNat)
  | .asin t => some (t.u, t.n.toNat)
  | .acos t => some (t.u, t.n.toNat)
  | .atan t => some (t.u, t.n.toNat)
  | .atan2 t => some (t.u, t.n.toNat)
  | .sqrt t => some (t.u, t.n.toNat)
  | .exp2 t => some (t.u, t.n.toNat)
  | .exp t => some (t.u, t.n.toNat)
  | .log2 t => some (t.u, t.n.toNat)

/-- How many of the operand ports `a`, `b`, `c`, `d`, `e`, in that order, an operation names (30_encoding.md R66). -/
def Instr.portCount : Instr → Nat
  | .iwrap _ => 1
  | .iconst _ _ => 0
  | .iadd _ => 2
  | .isub _ => 2
  | .imul _ => 2
  | .idiv _ => 2
  | .imod _ => 2
  | .iaddsat _ => 2
  | .isubsat _ => 2
  | .imulsat _ => 2
  | .iclamp _ => 3
  | .iclamp01 _ => 1
  | .iclampofs _ => 5
  | .imulpow2 _ => 2
  | .idivpow2 _ => 2
  | .ishl _ => 2
  | .ishr _ => 2
  | .imodpow2 _ => 2
  | .irol _ => 2
  | .iror _ => 2
  | .ipopcnt _ => 1
  | .iparity _ => 1
  | .iclz _ => 1
  | .ictz _ => 1
  | .ibsr _ => 1
  | .ibsf _ => 1
  | .itobytes _ => 1
  | .ifrombytes _ => 2
  | .igetbyte _ => 2
  | .isetbyte _ => 3
  | .fwrap _ => 1
  | .fconst _ _ => 0
  | .fadd _ => 2
  | .fsub _ => 2
  | .fmul _ => 2
  | .fdiv _ => 2
  | .fmod _ => 2
  | .faddsat _ => 2
  | .fsubsat _ => 2
  | .fmulsat _ => 2
  | .fclamp _ => 3
  | .fclamp01 _ => 1
  | .fclampofs _ => 5
  | .fcvt _ _ => 1
  | .ffloor _ => 1
  | .fceil _ => 1
  | .fround _ => 1
  | .ftobytes _ => 1
  | .ffrombytes _ => 2
  | .fgetbyte _ => 2
  | .fsetbyte _ => 3
  | .sin _ => 1
  | .cos _ => 1
  | .tan _ => 1
  | .asin _ => 1
  | .acos _ => 1
  | .atan _ => 1
  | .atan2 _ => 2
  | .sqrt _ => 1
  | .exp2 _ => 1
  | .exp _ => 1
  | .log2 _ => 1

namespace Machine

/-- The low `n` bits of a port word: the N-bit register a value operand is (10_state.md R24). -/
def regBits (n : Nat) (p : Word) : BitVec n := p.setWidth n

/-- The number an N-bit register holds, by family (00_scope.md R7). -/
def regValue (u : Family) {n : Nat} (x : BitVec n) : Int :=
  match u with
  | .signed => x.toInt
  | .unsigned => x.toNat

/-- The 32-bit storage cell of an N-bit register: sign-extended or zero-extended (10_state.md R21, R22). -/
def storeBits (u : Family) {n : Nat} (x : BitVec n) : Word :=
  match u with
  | .signed => x.signExtend 32
  | .unsigned => x.setWidth 32

/-- The number on a port read as a value of type (`u`, `n`). -/
def portValue (u : Family) (n : Nat) (p : Word) : Int := regValue u (regBits n p)

/-- The least number of a type (00_scope.md R17). -/
def leastValue (u : Family) (n : Nat) : Int :=
  match u with
  | .signed => (BitVec.intMin n).toInt
  | .unsigned => 0

/-- The greatest number of a type (00_scope.md R17). -/
def greatestValue (u : Family) (n : Nat) : Int :=
  match u with
  | .signed => (BitVec.intMax n).toInt
  | .unsigned => (BitVec.allOnes n).toNat

/-- `v` limited to the range of a type. -/
def limit (u : Family) (n : Nat) (v : Int) : Int := max (leastValue u n) (min v (greatestValue u n))

/-- The storage invariant of a word that carries a value of type (`u`, `n`): signed, bits 31 down to `n − 1` are all
equal; unsigned, bits 31 down to `n` are zero; for `n = 0` the word is 0 (10_state.md R21, R22). -/
def Canonical (u : Family) (n : Nat) (w : Word) : Prop :=
  match u with
  | .signed => (n = 0 → w = 0#32) ∧ ∀ i, n ≤ i + 1 → i < 32 → w.getLsbD i = w.getLsbD 31
  | .unsigned => ∀ i, n ≤ i → w.getLsbD i = false

/-- Serving `i` in `s` gives the response `resp` and changes nothing else. -/
def Answers (i : Instr) (s : State) (resp : Response) : Prop := exec i s = .next { s with response := some resp }

/-- The answer is the word `r`, status OK. -/
def AnswersWord (i : Instr) (s : State) (r : Word) : Prop := Answers i s (.word r)

/-- The answer is an error kind and no result. -/
def Raises (i : Instr) (s : State) (kind : ErrorKind) : Prop := Answers i s (.error kind)

/-- One step gives the response `resp` and changes nothing else. -/
def StepAnswers (s : State) (resp : Response) : Prop := step s = .next { s with response := some resp }

/-- The form of a response to the command word `cw`: a word on `r` of a value type satisfies the storage invariant of
that type (10_state.md R23); a byte array answers only the ToBytes pair, has `ceil(N / 8)` bytes, at most four, and its
bytes at and beyond the length are zero (20_memory.md R41, R43). -/
def Response.Conforms (cw : Word) (resp : Response) : Prop :=
  match resp with
  | .word r =>
    ∀ i u n, decode cw = .ok i → i.resultType = some (u, n) → n ≤ 32 ∧ Canonical u n r
  | .bytes r r2 =>
    ((∃ t, decode cw = .ok (.itobytes t) ∧ r2.toNat = (t.n.toNat + 7) / 8) ∨
      (∃ t, decode cw = .ok (.ftobytes t) ∧ r2.toNat = (t.n.toNat + 7) / 8)) ∧
    r2.toNat ≤ 4 ∧ ∀ k, 8 * r2.toNat ≤ k → r.getLsbD k = false
  | .error _ => True

/-- The invariant of a state: whatever response is there conforms to the command word it answers. -/
def State.Conforms (s : State) : Prop := ∀ resp, s.response = some resp → resp.Conforms s.cw

end Machine

end Sys2Proof
end

