-- ==== Sys2Proof/Certificates/Slice0/Obligations.lean ====
section
/-! DEFINITION. The statements for the provers, in the terms of Safety.lean. `Answers i s resp` says both what the response
is and that nothing else changes: serving the instruction gives exactly `s` with that response on the response ports
(10_state.md R25). -/

open Sys2Proof Sys2Proof.Machine

/-! ### Encoding and the step -/

/-- Words written out from 30_encoding.md R61 and R66 decode to the instruction they stand for. -/
def Obligations.decode_written_words : Prop :=
  decode 0b00000_0_000000_000000_001000_00000010#32 = .ok (.iadd ⟨.signed, 8#6⟩) ∧
  decode 0b00000_1_000010_000000_001000_00000001#32 = .ok (.iconst ⟨.unsigned, 8#6⟩ .min) ∧
  decode 0b00000_0_000000_000000_100000_00010010#32 = .ok (.ishl ⟨.signed, 32#6⟩) ∧
  decode 0b00000_1_000000_000000_001100_00100100#32 = .ok (.ibsr ⟨.unsigned, 12#6⟩) ∧
  decode 0b00000_0_000000_000000_001100_00110011#32 = .ok (.isetbyte ⟨.signed, 12#6⟩) ∧
  decode 0b00000_0_000001_010000_010000_01000001#32 = .ok (.fconst ⟨.signed, 16#6, 16#6⟩ .one) ∧
  decode 0b00000_0_000100_001000_010000_01010000#32 = .ok (.fcvt ⟨.signed, 16#6, 8#6⟩ 4#6) ∧
  decode 0b00000_0_000000_001000_010000_01100001#32 = .ok (.ffrombytes ⟨.signed, 16#6, 8#6⟩) ∧
  decode 0b00000_0_000000_001000_010000_01110010#32 = .ok (.tan ⟨.signed, 16#6, 8#6⟩)

/-- Decoding the word of an instruction gives the instruction back, for every instruction and every value of its fields. -/
def Obligations.decode_encode : Prop :=
  ∀ i : Instr, decode (encode i) = .ok i

/-- A word that decodes is the word of the instruction it decodes to: no bit of it is dropped. -/
def Obligations.encode_decode : Prop :=
  ∀ (w : Word) (i : Instr), decode w = .ok i → encode i = w

/-- IllegalCommand is the answer to exactly the words that 30_encoding.md R67 reserves: a reserved `OP`, a non-zero `Z`, a
non-zero `F` on an integer opcode, an `X` the opcode does not allow. -/
def Obligations.illegal_command_exactly : Prop :=
  ∀ s : State,
    let w := s.cw.toNat
    let op := w % 2 ^ 8
    let f := w / 2 ^ 14 % 2 ^ 6
    let x := w / 2 ^ 20 % 2 ^ 6
    let z := w / 2 ^ 27
    StepAnswers s (.error .illegalCommand) ↔
      z ≠ 0 ∨
      (0x0D ≤ op ∧ op ≤ 0x0F) ∨ (0x17 ≤ op ∧ op ≤ 0x1F) ∨ (0x26 ≤ op ∧ op ≤ 0x2F) ∨ (0x34 ≤ op ∧ op ≤ 0x3F) ∨
      (0x4D ≤ op ∧ op ≤ 0x4F) ∨ (0x54 ≤ op ∧ op ≤ 0x5F) ∨ (0x64 ≤ op ∧ op ≤ 0x6F) ∨ 0x7B ≤ op ∨
      (op < 0x40 ∧ f ≠ 0) ∨
      (op = 0x01 ∧ x ≠ 0 ∧ x ≠ 2 ∧ x ≠ 3) ∨ (op = 0x41 ∧ 3 < x) ∨
      (op ≠ 0x01 ∧ op ≠ 0x41 ∧ op ≠ 0x50 ∧ x ≠ 0)

/-- A step serves the instruction on the command port, and answers IllegalCommand where there is none. -/
def Obligations.step_runs_decoded_command : Prop :=
  (∀ (s : State) (i : Instr), decode s.cw = .ok i → step s = exec i s) ∧
  (∀ (s : State) (err : DecodeError), decode s.cw = .error err → StepAnswers s (.error .illegalCommand))

/-- Every command is answered in one step, with a status of 60_exceptions.md R400; a status other than OK carries no
result, status OK carries a word on `r`, and the request ports are untouched (that a port without a defined word
carries nothing is the model's reading, log entry 2). -/
def Obligations.every_command_is_answered : Prop :=
  ∀ s : State, ∃ resp : Response,
    StepAnswers s resp ∧ resp.st.toNat ≤ 5 ∧ (resp.st = 0#3 ↔ resp.r ≠ none) ∧ (resp.st ≠ 0#3 → resp.r2 = none)

/-- A response is a function of its request: what was answered before plays no part. -/
def Obligations.response_depends_on_request_only : Prop :=
  ∀ (s : State) (old : Option Response), step { s with response := old } = step s

/-- The words on ports an operation does not name play no part in its response. -/
def Obligations.unnamed_ports_are_ignored : Prop :=
  ∀ (i : Instr) (s : State) (a b c d e : Word) (resp : Response),
    (1 ≤ i.portCount → a = s.a) → (2 ≤ i.portCount → b = s.b) → (3 ≤ i.portCount → c = s.c) →
    (4 ≤ i.portCount → d = s.d) → (5 ≤ i.portCount → e = s.e) →
    Answers i s resp → Answers i { s with a := a, b := b, c := c, d := d, e := e } resp

/-- The form of responses (value words satisfy the storage invariant, byte arrays are zero beyond their length) is kept
by every step. -/
def Obligations.step_keeps_conforming : Prop :=
  ∀ s t : State, s.Conforms → step s = .next t → t.Conforms

/-- Reset holds no response, so the form of responses holds there (R452's "no defined word" before the first response
is read as no response, log entry 2). -/
def Obligations.reset_has_no_response : Prop :=
  State.reset.response = none ∧ State.reset.Conforms

/-! ### Errors, over all commands -/

/-- DivisionByZero is raised by IDIV, IMOD, FDIV and FMOD of a supported type and by no other command, exactly when the
low `N` bits of the divisor port are zero. -/
def Obligations.division_by_zero_exactly : Prop :=
  ∀ s : State, StepAnswers s (.error .divisionByZero) ↔
    (∃ t : IntType, (decode s.cw = .ok (.idiv t) ∨ decode s.cw = .ok (.imod t)) ∧ t.supported = true ∧
      regBits t.n.toNat s.b = 0#_) ∨
    (∃ t : FixType, (decode s.cw = .ok (.fdiv t) ∨ decode s.cw = .ok (.fmod t)) ∧ t.supported = true ∧
      regBits t.n.toNat s.b = 0#_)

/-- RangeError is raised by the shifts, the rotates and the byte accesses of a supported type and by no other command,
exactly when the count or index is outside the domain. -/
def Obligations.range_error_exactly : Prop :=
  ∀ s : State, StepAnswers s (.error .rangeError) ↔
    (∃ t : IntType, t.supported = true ∧
      (((decode s.cw = .ok (.imulpow2 t) ∨ decode s.cw = .ok (.idivpow2 t) ∨ decode s.cw = .ok (.ishl t) ∨
          decode s.cw = .ok (.ishr t)) ∧ ¬(0 ≤ s.b.toInt ∧ s.b.toInt < t.n.toNat)) ∨
        (decode s.cw = .ok (.imodpow2 t) ∧ ¬(0 ≤ s.b.toInt ∧ s.b.toInt ≤ t.n.toNat)) ∨
        ((decode s.cw = .ok (.irol t) ∨ decode s.cw = .ok (.iror t)) ∧ t.n = 0#6) ∨
        ((decode s.cw = .ok (.igetbyte t) ∨ decode s.cw = .ok (.isetbyte t)) ∧
          ¬(0 ≤ s.b.toInt ∧ s.b.toInt < ((t.n.toNat + 7) / 8 : Nat))))) ∨
    (∃ t : FixType, t.supported = true ∧ (decode s.cw = .ok (.fgetbyte t) ∨ decode s.cw = .ok (.fsetbyte t)) ∧
      ¬(0 ≤ s.b.toInt ∧ s.b.toInt < ((t.n.toNat + 7) / 8 : Nat)))

/-- FormatError is raised by IFROMBYTES for fewer than `ceil(N/8)` bytes, by FFROMBYTES for any other number than
`ceil(N/8)`, and by no other command. -/
def Obligations.format_error_exactly : Prop :=
  ∀ s : State, StepAnswers s (.error .formatError) ↔
    (∃ t : IntType, t.supported = true ∧ decode s.cw = .ok (.ifrombytes t) ∧ s.b.toNat < (t.n.toNat + 7) / 8) ∨
    (∃ t : FixType, t.supported = true ∧ decode s.cw = .ok (.ffrombytes t) ∧ s.b.toNat ≠ (t.n.toNat + 7) / 8)

/-- Of the commands that are operations, NotSupportedError is raised by exactly those with `N > 32` or `F > 32`, an FCVT
with `F2 > 32`, or an angle function with `N` outside [2, 31]. -/
def Obligations.not_supported_exactly : Prop :=
  ∀ (s : State) (i : Instr), decode s.cw = .ok i →
    let w := s.cw.toNat
    let op := w % 2 ^ 8
    let n := w / 2 ^ 8 % 2 ^ 6
    let f := w / 2 ^ 14 % 2 ^ 6
    let x := w / 2 ^ 20 % 2 ^ 6
    StepAnswers s (.error .notSupportedError) ↔
      32 < n ∨ 32 < f ∨ (op = 0x50 ∧ 32 < x) ∨ (0x70 ≤ op ∧ op ≤ 0x76 ∧ (n < 2 ∨ 31 < n))

/-! ### Construction and constants -/

/-- IWRAP and FWRAP keep the low `N` bits of the operand, extended to the storage cell. -/
def Obligations.wrap_construction : Prop :=
  (∀ (t : IntType) (s : State), t.supported = true →
    AnswersWord (.iwrap t) s (storeBits t.u (regBits t.n.toNat s.a))) ∧
  (∀ (t : FixType) (s : State), t.supported = true →
    AnswersWord (.fwrap t) s (storeBits t.u (regBits t.n.toNat s.a)))

/-- Wrapping is idempotent: a word that IWRAP or FWRAP answers is answered unchanged. -/
def Obligations.wrap_is_idempotent : Prop :=
  (∀ (t : IntType) (s : State) (r : Word), t.supported = true →
    AnswersWord (.iwrap t) s r → AnswersWord (.iwrap t) { s with a := r } r) ∧
  (∀ (t : FixType) (s : State) (r : Word), t.supported = true →
    AnswersWord (.fwrap t) s r → AnswersWord (.fwrap t) { s with a := r } r)

/-- ICONST gives 0, the least and the greatest value of the type. -/
def Obligations.integer_constants : Prop :=
  ∀ (t : IntType) (s : State), t.supported = true →
    AnswersWord (.iconst t .zero) s 0#32 ∧
    AnswersWord (.iconst t .min) s (BitVec.ofInt 32 (leastValue t.u t.n.toNat)) ∧
    AnswersWord (.iconst t .max) s (BitVec.ofInt 32 (greatestValue t.u t.n.toNat))

/-- FCONST gives 0, the wrapped `2^F`, the least and the greatest raw of the type (`F = 32` runs by the rule as it
stands, no claim about the original software, log entry 9). -/
def Obligations.fixed_constants : Prop :=
  ∀ (t : FixType) (s : State), t.supported = true →
    AnswersWord (.fconst t .zero) s 0#32 ∧
    AnswersWord (.fconst t .one) s (storeBits t.u (1#(t.n.toNat) <<< t.f.toNat)) ∧
    AnswersWord (.fconst t .min) s (BitVec.ofInt 32 (leastValue t.u t.n.toNat)) ∧
    AnswersWord (.fconst t .max) s (BitVec.ofInt 32 (greatestValue t.u t.n.toNat))

/-! ### Arithmetic -/

/-- IADD, ISUB and IMUL are the operations of an N-bit register, read back in the family. -/
def Obligations.integer_ring_operations : Prop :=
  ∀ (t : IntType) (s : State), t.supported = true →
    AnswersWord (.iadd t) s (storeBits t.u (regBits t.n.toNat s.a + regBits t.n.toNat s.b)) ∧
    AnswersWord (.isub t) s (storeBits t.u (regBits t.n.toNat s.a - regBits t.n.toNat s.b)) ∧
    AnswersWord (.imul t) s (storeBits t.u (regBits t.n.toNat s.a * regBits t.n.toNat s.b))

/-- FADD and FSUB add and subtract the raws in an N-bit register. -/
def Obligations.fixed_add_sub : Prop :=
  ∀ (t : FixType) (s : State), t.supported = true →
    AnswersWord (.fadd t) s (storeBits t.u (regBits t.n.toNat s.a + regBits t.n.toNat s.b)) ∧
    AnswersWord (.fsub t) s (storeBits t.u (regBits t.n.toNat s.a - regBits t.n.toNat s.b))

/-- IDIV divides the N-bit registers, signed (toward zero, the least value by −1 wrapping) or unsigned; a zero divisor
raises DivisionByZero (the least 32-bit number by −1 runs by the rule, no claim about the original software, log entry
9). -/
def Obligations.integer_division : Prop :=
  ∀ (t : IntType) (s : State), t.supported = true →
    (regBits t.n.toNat s.b = 0#_ → Raises (.idiv t) s .divisionByZero) ∧
    (regBits t.n.toNat s.b ≠ 0#_ →
      (t.u = .signed → AnswersWord (.idiv t) s
        (storeBits .signed ((regBits t.n.toNat s.a).sdiv (regBits t.n.toNat s.b)))) ∧
      (t.u = .unsigned → AnswersWord (.idiv t) s
        (storeBits .unsigned ((regBits t.n.toNat s.a).udiv (regBits t.n.toNat s.b)))))

/-- IMOD is the remainder of the same division, with the sign of the dividend; a zero divisor raises DivisionByZero
(the least 32-bit number by −1 runs by the rule, no claim about the original software, log entry 9). -/
def Obligations.integer_remainder : Prop :=
  ∀ (t : IntType) (s : State), t.supported = true →
    (regBits t.n.toNat s.b = 0#_ → Raises (.imod t) s .divisionByZero) ∧
    (regBits t.n.toNat s.b ≠ 0#_ →
      (t.u = .signed → AnswersWord (.imod t) s
        (storeBits .signed ((regBits t.n.toNat s.a).srem (regBits t.n.toNat s.b)))) ∧
      (t.u = .unsigned → AnswersWord (.imod t) s
        (storeBits .unsigned ((regBits t.n.toNat s.a).umod (regBits t.n.toNat s.b)))))

/-- FMUL multiplies in 64 bits, shifts right by `F` (arithmetically for the signed family) and keeps the low `N` bits. -/
def Obligations.fixed_multiply : Prop :=
  ∀ (t : FixType) (s : State), t.supported = true →
    (t.u = .signed → AnswersWord (.fmul t) s (storeBits .signed
      ((((regBits t.n.toNat s.a).signExtend 64 * (regBits t.n.toNat s.b).signExtend 64).sshiftRight
        t.f.toNat).setWidth t.n.toNat))) ∧
    (t.u = .unsigned → AnswersWord (.fmul t) s (storeBits .unsigned
      ((((regBits t.n.toNat s.a).setWidth 64 * (regBits t.n.toNat s.b).setWidth 64) >>>
        t.f.toNat).setWidth t.n.toNat)))

/-- FDIV and FMOD are the truncated quotient and remainder of the pre-shifted numerator, wrapped; a zero divisor
raises DivisionByZero (the pre-shift of FMOD is the rule's setting, log entry 8; the overflowing quotient of U4 runs
by the rule, log entry 9). -/
def Obligations.fixed_division : Prop :=
  ∀ (t : FixType) (s : State), t.supported = true →
    (regBits t.n.toNat s.b = 0#_ →
      Raises (.fdiv t) s .divisionByZero ∧ Raises (.fmod t) s .divisionByZero) ∧
    (regBits t.n.toNat s.b ≠ 0#_ →
      AnswersWord (.fdiv t) s (storeBits t.u (BitVec.ofInt t.n.toNat
        ((portValue t.u t.n.toNat s.a * 2 ^ t.f.toNat).tdiv (portValue t.u t.n.toNat s.b)))) ∧
      AnswersWord (.fmod t) s (storeBits t.u (BitVec.ofInt t.n.toNat
        ((portValue t.u t.n.toNat s.a * 2 ^ t.f.toNat).tmod (portValue t.u t.n.toNat s.b)))))

/-- With no fractional bit the fixed-point multiply, divide and remainder are the integer ones, errors included. -/
def Obligations.fixed_arithmetic_without_fraction : Prop :=
  ∀ (u : Family) (n : BitVec 6) (s : State),
    exec (.fmul ⟨u, n, 0#6⟩) s = exec (.imul ⟨u, n⟩) s ∧
    exec (.fdiv ⟨u, n, 0#6⟩) s = exec (.idiv ⟨u, n⟩) s ∧
    exec (.fmod ⟨u, n, 0#6⟩) s = exec (.imod ⟨u, n⟩) s

/-- IADDSAT, ISUBSAT and IMULSAT limit the exact result to the range of the type. -/
def Obligations.integer_saturation : Prop :=
  ∀ (t : IntType) (s : State), t.supported = true →
    AnswersWord (.iaddsat t) s (BitVec.ofInt 32 (limit t.u t.n.toNat
      (portValue t.u t.n.toNat s.a + portValue t.u t.n.toNat s.b))) ∧
    AnswersWord (.isubsat t) s (BitVec.ofInt 32 (limit t.u t.n.toNat
      (portValue t.u t.n.toNat s.a - portValue t.u t.n.toNat s.b))) ∧
    AnswersWord (.imulsat t) s (BitVec.ofInt 32 (limit t.u t.n.toNat
      (portValue t.u t.n.toNat s.a * portValue t.u t.n.toNat s.b)))

/-- FADDSAT, FSUBSAT and FMULSAT limit the exact result, for the product after the shift by `F`, to the range of the
type. -/
def Obligations.fixed_saturation : Prop :=
  ∀ (t : FixType) (s : State), t.supported = true →
    AnswersWord (.faddsat t) s (BitVec.ofInt 32 (limit t.u t.n.toNat
      (portValue t.u t.n.toNat s.a + portValue t.u t.n.toNat s.b))) ∧
    AnswersWord (.fsubsat t) s (BitVec.ofInt 32 (limit t.u t.n.toNat
      (portValue t.u t.n.toNat s.a - portValue t.u t.n.toNat s.b))) ∧
    AnswersWord (.fmulsat t) s (BitVec.ofInt 32 (limit t.u t.n.toNat
      ⌊(portValue t.u t.n.toNat s.a * portValue t.u t.n.toNat s.b : ℚ) / 2 ^ t.f.toNat⌋))

/-- `MaxValue + 1` and `MinValue − 1` saturate, for every type that holds 1. -/
def Obligations.saturation_at_the_bounds : Prop :=
  ∀ (t : IntType) (s : State), t.supported = true → 1 ≤ greatestValue t.u t.n.toNat → s.b = 1#32 →
    (s.a = BitVec.ofInt 32 (greatestValue t.u t.n.toNat) → AnswersWord (.iaddsat t) s s.a) ∧
    (s.a = BitVec.ofInt 32 (leastValue t.u t.n.toNat) → AnswersWord (.isubsat t) s s.a)

/-! ### Clamps -/

/-- ICLAMP and FCLAMP give one of the three operands: the minimum below it, else the maximum above it, else the value
(with minimum above maximum it runs by the rule's order of tests, log entry 9). -/
def Obligations.clamps : Prop :=
  (∀ (t : IntType) (s : State), t.supported = true →
    AnswersWord (.iclamp t) s (storeBits t.u (regBits t.n.toNat
      (if portValue t.u t.n.toNat s.a < portValue t.u t.n.toNat s.b then s.b
      else if portValue t.u t.n.toNat s.c < portValue t.u t.n.toNat s.a then s.c else s.a)))) ∧
  (∀ (t : FixType) (s : State), t.supported = true →
    AnswersWord (.fclamp t) s (storeBits t.u (regBits t.n.toNat
      (if portValue t.u t.n.toNat s.a < portValue t.u t.n.toNat s.b then s.b
      else if portValue t.u t.n.toNat s.c < portValue t.u t.n.toNat s.a then s.c else s.a))))

/-- ICLAMP01 limits the value to the exact integers 0 and 1, FCLAMP01 the raw to 0 and `2^F` (where `2^F` is beyond
the type it runs by the rule, log entry 9). -/
def Obligations.clamps_to_one : Prop :=
  (∀ (t : IntType) (s : State), t.supported = true →
    AnswersWord (.iclamp01 t) s (BitVec.ofInt 32 (max 0 (min (portValue t.u t.n.toNat s.a) 1)))) ∧
  (∀ (t : FixType) (s : State), t.supported = true →
    AnswersWord (.fclamp01 t) s (BitVec.ofInt 32 (max 0 (min (portValue t.u t.n.toNat s.a) (2 ^ t.f.toNat)))))

/-- ICLAMPOFS and FCLAMPOFS: the bounds are offset exactly, limited to the type, put in order, and then limit the
value. -/
def Obligations.clamps_with_offset : Prop :=
  (∀ (t : IntType) (s : State), t.supported = true →
    let lo := limit t.u t.n.toNat (portValue t.u t.n.toNat s.b + s.d.toInt)
    let hi := limit t.u t.n.toNat (portValue t.u t.n.toNat s.c + s.e.toInt)
    AnswersWord (.iclampofs t) s (BitVec.ofInt 32
      (max (min lo hi) (min (portValue t.u t.n.toNat s.a) (max lo hi))))) ∧
  (∀ (t : FixType) (s : State), t.supported = true →
    let lo := limit t.u t.n.toNat (portValue t.u t.n.toNat s.b + s.d.toInt)
    let hi := limit t.u t.n.toNat (portValue t.u t.n.toNat s.c + s.e.toInt)
    AnswersWord (.fclampofs t) s (BitVec.ofInt 32
      (max (min lo hi) (min (portValue t.u t.n.toNat s.a) (max lo hi)))))

/-! ### Shifts, rotates and scans -/

/-- IMULPOW2 and ISHL shift the N-bit register left; a count outside `[0, N)` raises RangeError. -/
def Obligations.left_shifts : Prop :=
  ∀ (t : IntType) (s : State), t.supported = true →
    (0 ≤ s.b.toInt ∧ s.b.toInt < t.n.toNat →
      AnswersWord (.imulpow2 t) s (storeBits t.u (regBits t.n.toNat s.a <<< s.b.toNat)) ∧
      AnswersWord (.ishl t) s (storeBits t.u (regBits t.n.toNat s.a <<< s.b.toNat))) ∧
    (s.b.toInt < 0 ∨ t.n.toNat ≤ s.b.toInt →
      Raises (.imulpow2 t) s .rangeError ∧ Raises (.ishl t) s .rangeError)

/-- IDIVPOW2 and ISHR shift the N-bit register right, arithmetically for the signed family and logically for the
unsigned; a count outside `[0, N)` raises RangeError. -/
def Obligations.right_shifts : Prop :=
  ∀ (t : IntType) (s : State), t.supported = true →
    (0 ≤ s.b.toInt ∧ s.b.toInt < t.n.toNat →
      (t.u = .signed →
        AnswersWord (.idivpow2 t) s (storeBits .signed ((regBits t.n.toNat s.a).sshiftRight s.b.toNat)) ∧
        AnswersWord (.ishr t) s (storeBits .signed ((regBits t.n.toNat s.a).sshiftRight s.b.toNat))) ∧
      (t.u = .unsigned →
        AnswersWord (.idivpow2 t) s (storeBits .unsigned (regBits t.n.toNat s.a >>> s.b.toNat)) ∧
        AnswersWord (.ishr t) s (storeBits .unsigned (regBits t.n.toNat s.a >>> s.b.toNat)))) ∧
    (s.b.toInt < 0 ∨ t.n.toNat ≤ s.b.toInt →
      Raises (.idivpow2 t) s .rangeError ∧ Raises (.ishr t) s .rangeError)

/-- IMODPOW2 keeps the low bits that the count names; a count outside `[0, N]` raises RangeError. -/
def Obligations.low_bits_mask : Prop :=
  ∀ (t : IntType) (s : State), t.supported = true →
    (0 ≤ s.b.toInt ∧ s.b.toInt ≤ t.n.toNat →
      AnswersWord (.imodpow2 t) s
        (storeBits t.u (regBits t.n.toNat s.a &&& BitVec.ofNat t.n.toNat (2 ^ s.b.toNat - 1)))) ∧
    (s.b.toInt < 0 ∨ t.n.toNat < s.b.toInt → Raises (.imodpow2 t) s .rangeError)

/-- A value is its IDIVPOW2 scaled back plus its IMODPOW2, for every count in `[0, N)`, also for negative values. -/
def Obligations.power_of_two_decomposition : Prop :=
  ∀ (t : IntType) (s : State) (q m : Word), t.supported = true → 0 ≤ s.b.toInt → s.b.toInt < t.n.toNat →
    AnswersWord (.idivpow2 t) s q → AnswersWord (.imodpow2 t) s m →
    portValue t.u t.n.toNat s.a =
      portValue t.u t.n.toNat q * 2 ^ s.b.toNat + portValue t.u t.n.toNat m

/-- IROL and IROR rotate the N-bit register by the count modulo `N`; they raise RangeError only for `N = 0`. -/
def Obligations.rotates : Prop :=
  ∀ (t : IntType) (s : State), t.supported = true →
    (t.n ≠ 0#6 →
      AnswersWord (.irol t) s
        (storeBits t.u ((regBits t.n.toNat s.a).rotateLeft (s.b.toInt % t.n.toNat).toNat)) ∧
      AnswersWord (.iror t) s
        (storeBits t.u ((regBits t.n.toNat s.a).rotateRight (s.b.toInt % t.n.toNat).toNat))) ∧
    (t.n = 0#6 → Raises (.irol t) s .rangeError ∧ Raises (.iror t) s .rangeError)

/-- Rotating right by a count is rotating left by its negation (the least count, whose negation is no 32-bit number, is
left out). -/
def Obligations.rotate_right_is_rotate_left_negated : Prop :=
  ∀ (t : IntType) (s : State) (r : Word), s.b ≠ BitVec.intMin 32 →
    (AnswersWord (.iror t) s r ↔ AnswersWord (.irol t) { s with b := -s.b } r)

/-- IPOPCNT counts the ones among the low `N` bits, IPARITY is that count modulo 2. -/
def Obligations.ones_counted : Prop :=
  ∀ (t : IntType) (s : State), t.supported = true →
    let ones := ((Finset.range t.n.toNat).filter (fun i => s.a.getLsbD i = true)).card
    AnswersWord (.ipopcnt t) s (BitVec.ofNat 32 ones) ∧ AnswersWord (.iparity t) s (BitVec.ofNat 32 (ones % 2))

/-- The scans over exactly the low `N` bits: with none set, ICLZ and ICTZ give `N`, IBSR and IBSF give −1; else IBSR is the
highest set bit, ICLZ the number of bits above it, IBSF and ICTZ the lowest set bit. -/
def Obligations.bit_scans : Prop :=
  ∀ (t : IntType) (s : State), t.supported = true →
    ((∀ i, i < t.n.toNat → s.a.getLsbD i = false) →
      AnswersWord (.iclz t) s (BitVec.ofNat 32 t.n.toNat) ∧ AnswersWord (.ictz t) s (BitVec.ofNat 32 t.n.toNat) ∧
      AnswersWord (.ibsr t) s 0xFFFFFFFF#32 ∧ AnswersWord (.ibsf t) s 0xFFFFFFFF#32) ∧
    (∀ hi, hi < t.n.toNat → s.a.getLsbD hi = true → (∀ j, hi < j → j < t.n.toNat → s.a.getLsbD j = false) →
      AnswersWord (.ibsr t) s (BitVec.ofNat 32 hi) ∧ AnswersWord (.iclz t) s (BitVec.ofNat 32 (t.n.toNat - 1 - hi))) ∧
    (∀ lo, lo < t.n.toNat → s.a.getLsbD lo = true → (∀ j, j < lo → s.a.getLsbD j = false) →
      AnswersWord (.ibsf t) s (BitVec.ofNat 32 lo) ∧ AnswersWord (.ictz t) s (BitVec.ofNat 32 lo))

/-! ### Bytes -/

/-- ITOBYTES and FTOBYTES give the `ceil(N/8)` low bytes of the storage cell, and that number (that the bits above bit
`N − 1` are those of the storage cell is the rule's setting, log entry 8). -/
def Obligations.to_bytes : Prop :=
  (∀ (t : IntType) (s : State), t.supported = true →
    Answers (.itobytes t) s (.bytes
      (((storeBits t.u (regBits t.n.toNat s.a)).setWidth (8 * ((t.n.toNat + 7) / 8))).setWidth 32)
      (BitVec.ofNat 32 ((t.n.toNat + 7) / 8)))) ∧
  (∀ (t : FixType) (s : State), t.supported = true →
    Answers (.ftobytes t) s (.bytes
      (((storeBits t.u (regBits t.n.toNat s.a)).setWidth (8 * ((t.n.toNat + 7) / 8))).setWidth 32)
      (BitVec.ofNat 32 ((t.n.toNat + 7) / 8))))

/-- IFROMBYTES takes at least `ceil(N/8)` bytes, FFROMBYTES exactly that many; the value is the low `N` bits of the data
word, and any other length raises FormatError. -/
def Obligations.from_bytes : Prop :=
  (∀ (t : IntType) (s : State), t.supported = true →
    ((t.n.toNat + 7) / 8 ≤ s.b.toNat → AnswersWord (.ifrombytes t) s (storeBits t.u (regBits t.n.toNat s.a))) ∧
    (s.b.toNat < (t.n.toNat + 7) / 8 → Raises (.ifrombytes t) s .formatError)) ∧
  (∀ (t : FixType) (s : State), t.supported = true →
    (s.b.toNat = (t.n.toNat + 7) / 8 → AnswersWord (.ffrombytes t) s (storeBits t.u (regBits t.n.toNat s.a))) ∧
    (s.b.toNat ≠ (t.n.toNat + 7) / 8 → Raises (.ffrombytes t) s .formatError))

/-- FromBytes of the ToBytes of a value is the value. -/
def Obligations.byte_round_trip : Prop :=
  (∀ (t : IntType) (s : State) (r r2 : Word), t.supported = true → Answers (.itobytes t) s (.bytes r r2) →
    AnswersWord (.ifrombytes t) { s with a := r, b := r2 } (storeBits t.u (regBits t.n.toNat s.a))) ∧
  (∀ (t : FixType) (s : State) (r r2 : Word), t.supported = true → Answers (.ftobytes t) s (.bytes r r2) →
    AnswersWord (.ffrombytes t) { s with a := r, b := r2 } (storeBits t.u (regBits t.n.toNat s.a)))

/-- IGETBYTE and FGETBYTE give byte `i` of the storage cell; an index outside `[0, ceil(N/8))` raises RangeError (that
the bits above bit `N − 1` are those of the storage cell is the rule's setting, log entry 8). -/
def Obligations.get_byte : Prop :=
  (∀ (t : IntType) (s : State), t.supported = true →
    (0 ≤ s.b.toInt ∧ s.b.toInt < ((t.n.toNat + 7) / 8 : Nat) → AnswersWord (.igetbyte t) s
      (((storeBits t.u (regBits t.n.toNat s.a)) >>> (8 * s.b.toNat)) &&& 0xFF#32)) ∧
    (s.b.toInt < 0 ∨ ((t.n.toNat + 7) / 8 : Nat) ≤ s.b.toInt → Raises (.igetbyte t) s .rangeError)) ∧
  (∀ (t : FixType) (s : State), t.supported = true →
    (0 ≤ s.b.toInt ∧ s.b.toInt < ((t.n.toNat + 7) / 8 : Nat) → AnswersWord (.fgetbyte t) s
      (((storeBits t.u (regBits t.n.toNat s.a)) >>> (8 * s.b.toNat)) &&& 0xFF#32)) ∧
    (s.b.toInt < 0 ∨ ((t.n.toNat + 7) / 8 : Nat) ≤ s.b.toInt → Raises (.fgetbyte t) s .rangeError))

/-- ISETBYTE and FSETBYTE give the value whose bits `8i` to `8i+7` are the low byte of port `c` and whose other bits are
those of the operand, in storage form; an index outside `[0, ceil(N/8))` raises RangeError. -/
def Obligations.set_byte : Prop :=
  (∀ (t : IntType) (s : State), t.supported = true →
    (0 ≤ s.b.toInt ∧ s.b.toInt < ((t.n.toNat + 7) / 8 : Nat) → ∃ r : Word,
      AnswersWord (.isetbyte t) s r ∧ Canonical t.u t.n.toNat r ∧
      ∀ j, j < t.n.toNat → r.getLsbD j = if j / 8 = s.b.toNat then s.c.getLsbD (j % 8) else s.a.getLsbD j) ∧
    (s.b.toInt < 0 ∨ ((t.n.toNat + 7) / 8 : Nat) ≤ s.b.toInt → Raises (.isetbyte t) s .rangeError)) ∧
  (∀ (t : FixType) (s : State), t.supported = true →
    (0 ≤ s.b.toInt ∧ s.b.toInt < ((t.n.toNat + 7) / 8 : Nat) → ∃ r : Word,
      AnswersWord (.fsetbyte t) s r ∧ Canonical t.u t.n.toNat r ∧
      ∀ j, j < t.n.toNat → r.getLsbD j = if j / 8 = s.b.toNat then s.c.getLsbD (j % 8) else s.a.getLsbD j) ∧
    (s.b.toInt < 0 ∨ ((t.n.toNat + 7) / 8 : Nat) ≤ s.b.toInt → Raises (.fsetbyte t) s .rangeError))

/-! ### Conversion and rounding -/

/-- FCVT drops the fractional bits that are lost, rounding toward −∞, and shifts in zeros for those that are gained (a
distance of 32 runs by the rule, log entry 9). -/
def Obligations.fraction_conversion : Prop :=
  ∀ (t : FixType) (f2 : BitVec 6) (s : State), t.supported = true → f2.toNat ≤ 32 →
    (f2.toNat ≤ t.f.toNat → AnswersWord (.fcvt t f2) s (storeBits t.u (BitVec.ofInt t.n.toNat
      ⌊(portValue t.u t.n.toNat s.a : ℚ) / 2 ^ (t.f.toNat - f2.toNat)⌋))) ∧
    (t.f.toNat < f2.toNat → AnswersWord (.fcvt t f2) s
      (storeBits t.u (regBits t.n.toNat s.a <<< (f2.toNat - t.f.toNat))))

/-- FFLOOR clears the low `F` bits of the N-bit register (`F = 32` runs by the rule, log entry 9). -/
def Obligations.floor_clears_fraction_bits : Prop :=
  ∀ (t : FixType) (s : State), t.supported = true →
    AnswersWord (.ffloor t) s
      (storeBits t.u (regBits t.n.toNat s.a &&& (BitVec.allOnes t.n.toNat <<< t.f.toNat)))

/-- The three roundings of the number `x = A / 2^F`, `F ≥ 1`, before the wrap: FFLOOR is the floor; FCEIL the ceiling
for `x ≥ 0` and the floor below; FROUND the floor of `x + 1/2` for `x ≥ 0` and of `x − 1/2` below (FROUND below 0
follows the formula, log entry 8; `F = 32` runs by the rule, log entry 9). -/
def Obligations.rounding_table : Prop :=
  ∀ (t : FixType) (s : State), t.supported = true → 1 ≤ t.f.toNat →
    let x : ℚ := (portValue t.u t.n.toNat s.a : ℚ) / 2 ^ t.f.toNat
    let whole : ℤ → Word := fun k => storeBits t.u (BitVec.ofInt t.n.toNat (k * 2 ^ t.f.toNat))
    AnswersWord (.ffloor t) s (whole ⌊x⌋) ∧
    (0 ≤ x → AnswersWord (.fceil t) s (whole ⌈x⌉) ∧ AnswersWord (.fround t) s (whole ⌊x + 1 / 2⌋)) ∧
    (x < 0 → AnswersWord (.fceil t) s (whole ⌊x⌋) ∧ AnswersWord (.fround t) s (whole ⌊x - 1 / 2⌋))

/-- Without fractional bits the three roundings only read the operand. -/
def Obligations.rounding_without_fraction : Prop :=
  ∀ (t : FixType) (s : State), t.supported = true → t.f = 0#6 →
    AnswersWord (.ffloor t) s (storeBits t.u (regBits t.n.toNat s.a)) ∧
    AnswersWord (.fceil t) s (storeBits t.u (regBits t.n.toNat s.a)) ∧
    AnswersWord (.fround t) s (storeBits t.u (regBits t.n.toNat s.a))

/-! ### Math engine -/

/-- Up to `N = 14` the sine is one entry of `SIN_LUT`: the phase bits are the top bits of a 12-bit index, inverted in
the quadrants whose low bit is set, and the entry is negated in those whose high bit is set (that the least Q16.16
number has an open negative is the model's choice, log entry 7). -/
def Obligations.retro_sine : Prop :=
  ∀ (t : FixType) (s : State), t.angleSupported = true → t.n.toNat ≤ 14 →
    let n := t.n.toNat
    let straight : BitVec 12 := ((s.a.setWidth (n - 2)).setWidth 12) <<< (14 - n)
    let index : BitVec 12 := if s.a.getLsbD (n - 2) then ~~~straight else straight
    let entry : Q16 := Config.params.sinLut (Fin.ofNat 4096 index.toNat)
    let negated : Q16 := if entry = BitVec.intMin 32 then Config.params.q16Outside (2 ^ 31) else -entry
    AnswersWord (.sin t) s (storeBits t.u (BitVec.ofInt n
      (Config.params.rescaleOut t.u n t.f.toNat (if s.a.getLsbD (n - 1) then negated else entry))))

/-- Above `N = 14` the sine is the 4-point spline of `SIN_LUT` around the position of the phase, its samples clamped
to the edges of the table, negated in the quadrants whose high bit is set (that a position is read as a signed number
and that the least Q16.16 number has an open negative are the model's choices, log entry 7). -/
def Obligations.interpolated_sine : Prop :=
  ∀ (t : FixType) (s : State), t.angleSupported = true → 15 ≤ t.n.toNat →
    let n := t.n.toNat
    let pos : Q16 := Config.params.sinPos n (s.a.getLsbD (n - 2)) (s.a.setWidth (n - 2)).toNat
    let i : Int := pos.toInt / 2 ^ 16
    let entry : Int → Q16 := fun k => Config.params.sinLut (Fin.ofNat 4096 (max 0 (min k 4095)).toNat)
    let mag : Q16 := Config.params.catmullRom (entry (i - 1)) (entry i) (entry (i + 1)) (entry (i + 2))
      (pos.setWidth 16)
    let negated : Q16 := if mag = BitVec.intMin 32 then Config.params.q16Outside (2 ^ 31) else -mag
    AnswersWord (.sin t) s (storeBits t.u (BitVec.ofInt n
      (Config.params.rescaleOut t.u n t.f.toNat (if s.a.getLsbD (n - 1) then negated else mag))))

/-- COS completes on every supported angle type and is the SIN of the angle a quarter turn, `2^(N−2)`, ahead. -/
def Obligations.cosine_is_sine_ahead : Prop :=
  ∀ (t : FixType) (s : State), t.angleSupported = true →
    ∃ r : Word, AnswersWord (.cos t) s r ∧
      AnswersWord (.sin t) { s with a := s.a + (1#32 <<< (t.n.toNat - 2)) } r

/-- TAN gives the greatest value at 90 degrees, the least at 270 degrees, and elsewhere the wrapped core of the
quadrant and phase (the structure of the core is the model's reading of R262, log entry 6). -/
def Obligations.tangent : Prop :=
  ∀ (t : FixType) (s : State), t.angleSupported = true →
    let n := t.n.toNat
    let angle := (regBits n s.a).toNat
    (angle = 2 ^ (n - 2) → AnswersWord (.tan t) s (BitVec.ofInt 32 (greatestValue t.u n))) ∧
    (angle = 3 * 2 ^ (n - 2) → AnswersWord (.tan t) s (BitVec.ofInt 32 (leastValue t.u n))) ∧
    (angle ≠ 2 ^ (n - 2) → angle ≠ 3 * 2 ^ (n - 2) → AnswersWord (.tan t) s (storeBits t.u (BitVec.ofInt n
      (tanCore Config.params t.u n t.f.toNat (angle / 2 ^ (n - 2)) (angle % 2 ^ (n - 2))))))

/-- The four buckets of the tangent core: `N = 2` is its own value of the quadrant; `3 ≤ N ≤ 12` reads one `TAN_LUT`
entry; `N = 13` takes one of the two retro formulas; `N = 14` has its own; from `N = 15` on it interpolates, its
samples clamped to the edges. It holds for all parameters (the open pieces are the model's reading of R262, log entry
6; that a position is read as a signed number is the model's reading, log entry 7). -/
def Obligations.tangent_buckets : Prop :=
  ∀ (P : Config.Params) (u : Family) (n f quad ph : Nat),
    let entry : Int → Q16 := fun k => P.tanLut (Fin.ofNat 4096 (max 0 (min k 4095)).toNat)
    let direct := P.tanDirect u n f quad ph (P.tanLut (P.tanIndex n quad ph))
    (n = 2 → tanCore P u n f quad ph = P.tanTrivial u f quad) ∧
    (3 ≤ n → n ≤ 12 → tanCore P u n f quad ph = direct) ∧
    (n = 13 → tanCore P u n f quad ph = direct ∨ tanCore P u n f quad ph = P.tanDedicated u n f quad ph) ∧
    (n = 14 → tanCore P u n f quad ph = P.tanDedicated u n f quad ph) ∧
    (15 ≤ n →
      let pos := P.tanPos n quad ph
      let i : Int := pos.toInt / 2 ^ 16
      tanCore P u n f quad ph = P.tanSpline u n f quad ph
        (P.catmullRom (entry (i - 1)) (entry i) (entry (i + 1)) (entry (i + 2)) (pos.setWidth 16)))

/-- ASIN and ACOS complete on every operand of a supported angle type and share one core: ASIN requantizes its angle,
ACOS requantizes π/2 minus the same angle, each with its own requantizer. Of the core, for all parameters and every
`x` of magnitude at most 1.0: above `N = 6` it is the spline of `ASIN_TAIL` at a magnitude beyond sin 75 degrees and
the spline of `ASIN_LUT` below; up to `N = 6` it is the entry of `ASIN_LUT` nearest the position, at a magnitude
beyond sin 75 degrees possibly the nearest of the tail; the tail's angle is the result for `x ≥ 0`, and goes through
an open function for a negative `x` (the open pieces are the model's reading of R266, log entry 6; signed Q16.16
numbers and a difference that 32 bits do not hold are log entry 7; beyond 1.0 in magnitude the angle is a free value,
log entry 5). -/
def Obligations.arcsine_and_arccosine : Prop :=
  (∀ (t : FixType) (s : State), t.angleSupported = true →
    let n := t.n.toNat
    let angle := asinCore Config.params n
      (Config.params.rescaleIn t.u n t.f.toNat (portValue t.u n s.a))
    let diff : Int := Config.params.halfPi.toInt - angle.toInt
    let complement : Q16 :=
      if -2 ^ 31 ≤ diff ∧ diff < 2 ^ 31 then BitVec.ofInt 32 diff else Config.params.q16Outside diff
    AnswersWord (.asin t) s (storeBits t.u (BitVec.ofInt n (Config.params.requantA t.u n angle))) ∧
    AnswersWord (.acos t) s (storeBits t.u (BitVec.ofInt n (Config.params.requantAcos t.u n complement)))) ∧
  (∀ (P : Config.Params) (n : Nat) (x : Q16), |x.toInt| ≤ 65536 →
    let main : Int → Q16 := fun k => P.asinLut (Fin.ofNat 4096 (max 0 (min k 4095)).toNat)
    let tail : Int → Q16 := fun k => P.asinTail (Fin.ofNat 2050 (max (-1) (min k 2048) + 1).toNat)
    let through : (Int → Q16) → Q16 → Q16 := fun entry pos =>
      P.catmullRom (entry (pos.toInt / 2 ^ 16 - 1)) (entry (pos.toInt / 2 ^ 16)) (entry (pos.toInt / 2 ^ 16 + 1))
        (entry (pos.toInt / 2 ^ 16 + 2)) (pos.setWidth 16)
    let tailAngle : Q16 → Q16 := fun angle => if x.toInt < 0 then P.asinTailAngle n x angle else angle
    let nearest : Q16 → Int → Prop := fun pos k => |pos.toInt - k * 2 ^ 16| ≤ 2 ^ 15
    (7 ≤ n → P.sin75.toInt < |x.toInt| →
      asinCore P n x = tailAngle (through tail (P.asinTailPos n x))) ∧
    (7 ≤ n → |x.toInt| < P.sin75.toInt → asinCore P n x = through main (P.asinPos n x)) ∧
    (7 ≤ n → |x.toInt| = P.sin75.toInt →
      asinCore P n x = if P.sin75Inclusive then tailAngle (through tail (P.asinTailPos n x))
        else through main (P.asinPos n x)) ∧
    (n ≤ 6 → |x.toInt| < P.sin75.toInt ∨ P.asinRetroTail = false →
      ∃ k : Int, nearest (P.asinPos n x) k ∧ asinCore P n x = main k) ∧
    (n ≤ 6 → P.sin75.toInt < |x.toInt| → P.asinRetroTail = true →
      ∃ k : Int, nearest (P.asinTailPos n x) k ∧ asinCore P n x = tailAngle (tail k)))

/-- ATAN and ATAN2 complete on every operand of a supported angle type: ATAN shares ASIN's requantizer, ATAN2 has its
own and takes `y` on port `a`, `x` on port `b`. Of the cores, for all parameters: ATAN looks a magnitude up to 1.0 up
in `ATAN_LUT`, and above 1.0 takes π/2 minus the angle of the reciprocal, and that angle is the result for `x ≥ 0` and
goes through an open function for a negative `x`; ATAN2 looks its ratio up in the same table and depends beyond that
only on which operand is the larger in magnitude and on the two signs (the open pieces are the model's reading of R269
and R271, log entry 6; a difference that 32 bits do not hold is log entry 7; whether ATAN2 sees the raw operands or
their Q16.16 numbers is open, log entry 15; on an axis its angle is a free value, log entry 5). -/
def Obligations.arctangents : Prop :=
  (∀ (t : FixType) (s : State), t.angleSupported = true →
    let n := t.n.toNat
    let operand : Word → Int := fun p =>
      if Config.params.atan2Rescales then (Config.params.rescaleIn t.u n t.f.toNat (portValue t.u n p)).toInt
      else portValue t.u n p
    AnswersWord (.atan t) s (storeBits t.u (BitVec.ofInt n (Config.params.requantA t.u n
      (atanCore Config.params n (Config.params.rescaleIn t.u n t.f.toNat (portValue t.u n s.a)))))) ∧
    AnswersWord (.atan2 t) s (storeBits t.u (BitVec.ofInt n (Config.params.requantAtan2 t.u n
      (atan2Core Config.params n (operand s.a) (operand s.b)))))) ∧
  (∀ (P : Config.Params) (n : Nat),
    let entry : Int → Q16 := fun k => P.atanLut (Fin.ofNat 4096 (max 0 (min k 4095)).toNat)
    let lookup : Bool → Q16 → Fin 4096 → Q16 := fun interpolates pos index =>
      if interpolates then
        P.catmullRom (entry (pos.toInt / 2 ^ 16 - 1)) (entry (pos.toInt / 2 ^ 16)) (entry (pos.toInt / 2 ^ 16 + 1))
          (entry (pos.toInt / 2 ^ 16 + 2)) (pos.setWidth 16)
      else P.atanLut index
    let ofRatio : Q16 → Q16 := fun r => lookup (P.atanInterpolates n) (P.atanPos n r) (P.atanIndex n r)
    let signed : Q16 → Q16 → Q16 := fun x angle => if x.toInt < 0 then P.atanAngle n x angle else angle
    (∀ x : Q16, |x.toInt| ≤ 65536 →
      atanCore P n x = signed x (ofRatio (BitVec.ofInt 32 |x.toInt|))) ∧
    (∀ x : Q16, 65536 < |x.toInt| →
      let diff : Int := P.halfPi.toInt - (ofRatio (P.atanRecip n x.toInt.natAbs)).toInt
      (-2 ^ 31 ≤ diff → diff < 2 ^ 31 → atanCore P n x = signed x (BitVec.ofInt 32 diff)) ∧
      (diff < -2 ^ 31 ∨ 2 ^ 31 ≤ diff → atanCore P n x = signed x (P.q16Outside diff))) ∧
    (∀ y x : Int, y ≠ 0 → x ≠ 0 →
      let r := P.atan2Ratio n y x
      let angle := lookup (P.atan2Interpolates n) (P.atan2Pos n r) (P.atan2Index n r)
      (|x| < |y| → atan2Core P n y x = P.atan2Angle n true (decide (x < 0)) (decide (y < 0)) angle) ∧
      (|y| < |x| → atan2Core P n y x = P.atan2Angle n false (decide (x < 0)) (decide (y < 0)) angle) ∧
      (|x| = |y| →
        atan2Core P n y x = P.atan2Angle n P.atan2EqualSteep (decide (x < 0)) (decide (y < 0)) angle)))

/-- SQRT is the floor of the square root of the magnitude pre-shifted by `F`, wrapped, for every operand; no open
parameter is in it (R308: it alone is exact; the magnitude of the least 32-bit number runs by the rule, log
entry 9). -/
def Obligations.square_root : Prop :=
  ∀ (t : FixType) (s : State), t.supported = true →
    AnswersWord (.sqrt t) s (storeBits t.u (BitVec.ofNat t.n.toNat
      (Nat.sqrt ((portValue t.u t.n.toNat s.a).natAbs * 2 ^ t.f.toNat))))

/-- EXP2, EXP and LOG2 complete on every operand of a supported type, LOG2 of a raw that is not positive included: the
result is the wrapped core, and EXP is the EXP2 core at the scaled argument. Of the cores, for all parameters: EXP2 of
a whole number is the exact power of two wherever the open working precision, a 32-bit word in that precision (for a
positive whole number) and the type hold it, so EXP2 of 0 is 1.0 in every type that holds 1.0; the scaled argument of
0 is 0; LOG2 of a raw whose highest set bit is `k` is `(k − F)·2^F` plus the scaled linear function of the bits below
`k`, wherever the type holds it (the structure is the model's reading of R302, R304 and R306, log entry 14; what is
open in it is a free value, log entry 5). -/
def Obligations.exponential_and_logarithm : Prop :=
  (∀ (t : FixType) (s : State), t.supported = true →
    let n := t.n.toNat
    let f := t.f.toNat
    let x := portValue t.u n s.a
    AnswersWord (.exp2 t) s (storeBits t.u (BitVec.ofInt n (exp2Core Config.params t.u n f x))) ∧
    AnswersWord (.exp t) s (storeBits t.u (BitVec.ofInt n
      (exp2Core Config.params t.u n f (expArg Config.params t.u n f x)))) ∧
    AnswersWord (.log2 t) s (storeBits t.u (BitVec.ofInt n (log2Core Config.params t.u n f x)))) ∧
  (∀ (P : Config.Params) (u : Family) (n f : Nat),
    (∀ k : Int,
      let bits := P.exp2Bits u n f (k * 2 ^ f)
      0 ≤ k + f → 0 ≤ k + bits → (k ≤ 0 ∨ 2 ^ (k + bits).toNat ≤ greatestValue u 32) →
      2 ^ (k + f).toNat ≤ greatestValue u n → exp2Core P u n f (k * 2 ^ f) = 2 ^ (k + f).toNat) ∧
    (2 ^ f ≤ greatestValue u n → exp2Core P u n f 0 = 2 ^ f) ∧
    expArg P u n f 0 = 0 ∧
    (∀ (v : Int) (k : Nat), k < 32 → 2 ^ k ≤ v → v < 2 ^ (k + 1) →
      let linear := P.log2Slope u n f * (v - 2 ^ k) + P.log2Offset u n f * 2 ^ k
      let sum := ((k : Int) - f) * 2 ^ f + (if linear = 0 then 0 else P.log2Scaled u n f k linear)
      leastValue u n ≤ sum → sum ≤ greatestValue u n → log2Core P u n f v = sum))

/-! ### Host-side codecs -/

/-- The text of the self-describing form is the object of R324 with its keys in that order, it reads back to the same
value, and a target whose width key, `N` or `F` differs is refused with FormatError (the reader's white space and key
order are the model's choice, log entry 11; that a width above 32 is not checked is log entry 16). -/
def Obligations.meta_json_round_trip : Prop :=
  (∀ (t : FixType) (w : Word), t.supported = true →
    toJsonWithMeta t w =
      openBrace :: (quoted (widthKey t.u).text ++ [colonChar] ++ Nat.toDigits 10 t.n.toNat ++ [commaChar] ++
        quoted MetaKey.fracBits.text ++ [colonChar] ++ Nat.toDigits 10 t.f.toNat ++ [commaChar] ++
        quoted MetaKey.raw.text ++ [colonChar] ++
        (if portValue t.u t.n.toNat w < 0 then ['-'] else []) ++
        Nat.toDigits 10 (portValue t.u t.n.toNat w).natAbs ++ [closeBrace])) ∧
  (∀ (t : FixType) (w : Word), t.supported = true →
    fromJsonWithMeta t (toJsonWithMeta t w) = .ok (storeBits t.u (regBits t.n.toNat w))) ∧
  (∀ (t t' : FixType) (w : Word), t ≠ t' →
    fromJsonWithMeta t' (toJsonWithMeta t w) = .error .formatError)

/-- Every non-empty run of decimal digits, leading zeros included, is read as its number wrapped to the type, whatever
its size; the compact JSON of a value is a JSON string of its decimal raw and reads back to the value (the leading
minus sign it needs is the model's choice, log entry 11). -/
def Obligations.decimal_strings : Prop :=
  (∀ (t : IntType) (text : List Char), t.supported = true → text ≠ [] → (∀ ch ∈ text, ch.isDigit = true) →
    parse t.u t.n.toNat text =
      .ok (storeBits t.u (BitVec.ofNat t.n.toNat (text.foldl (fun v ch => 10 * v + (ch.toNat - 48)) 0)))) ∧
  (∀ (t : IntType) (w : Word), t.supported = true →
    toJson t.u t.n.toNat w = quoted ((if portValue t.u t.n.toNat w < 0 then ['-'] else []) ++
      Nat.toDigits 10 (portValue t.u t.n.toNat w).natAbs) ∧
    fromJson t.u t.n.toNat (toJson t.u t.n.toNat w) = .ok (storeBits t.u (regBits t.n.toNat w)))

/-- Every double that is no finite number (exponent field all ones) becomes 0 for a NaN, the greatest value for
+Infinity and the sign bit for −Infinity, in every unsigned type of width 0 to 32 (the fields of a double are those of
IEEE 754, log entry 12). -/
def Obligations.double_to_unsigned_edges : Prop :=
  ∀ (P : Config.Params) (n : Nat) (w : BitVec 64), n ≤ 32 → w.extractLsb' 52 11 = 0x7FF#11 →
    (w.extractLsb' 0 52 ≠ 0#52 → castDouble P .unsigned n (realOfDouble w) = 0#32) ∧
    (w.extractLsb' 0 52 = 0#52 → w.getLsbD 63 = false →
      castDouble P .unsigned n (realOfDouble w) = storeBits .unsigned (BitVec.allOnes n)) ∧
    (w.extractLsb' 0 52 = 0#52 → w.getLsbD 63 = true →
      castDouble P .unsigned n (realOfDouble w) = storeBits .unsigned (BitVec.intMin n))
end

