-- ==== Sys2Proof/Laws/Numeric.lean ====
section
/-! SUPPORT. The arithmetic vocabulary of Machine/Numeric.lean in terms of N-bit registers: a wrap is a truncation to `n`
bits, a cell of a wrapped value is the extended register, and the ranges of the types. -/

namespace Sys2Proof.Machine

/-- `wrap(U, n, v)` is the number in the n-bit register that `v` truncates to. -/
theorem wrap_eq_regValue (u : Family) (n : Nat) (v : Int) : wrap u n v = regValue u (BitVec.ofInt n v) := by
  cases u with
  | unsigned =>
    simp only [wrap, zext, regValue, BitVec.toNat_ofInt]
    have := Int.emod_nonneg v (b := ((2 ^ n : Nat) : Int)) (by positivity)
    rw [Int.toNat_of_nonneg this]; norm_cast
  | signed =>
    simp only [wrap, sext, zext, regValue, BitVec.toInt_ofInt]
    cases n with
    | zero => simp [Int.bmod]
    | succ k =>
      have hp : (2 : Int) ^ (k + 1) = 2 * 2 ^ k := by ring
      simp only [Int.bmod, Nat.add_sub_cancel, Nat.succ_ne_zero, if_false]
      push_cast
      rw [hp]
      split <;> split <;> omega

/-- The cell of a wrapped value is the register, extended to 32 bits. -/
theorem cell_wrap (u : Family) (n : Nat) (v : Int) : cell (wrap u n v) = storeBits u (BitVec.ofInt n v) := by
  rw [wrap_eq_regValue]
  cases u with
  | signed => rfl
  | unsigned =>
    apply BitVec.eq_of_toNat_eq
    simp only [cell, regValue, storeBits, BitVec.toNat_setWidth, BitVec.ofInt_natCast, BitVec.toNat_ofNat]

/-- A register's number truncates back to the register. -/
theorem ofInt_regValue (u : Family) {n : Nat} (x : BitVec n) : BitVec.ofInt n (regValue u x) = x := by
  cases u with
  | signed => exact BitVec.ofInt_toInt
  | unsigned => simp [regValue]

/-- The cell of a register's number is the extended register. -/
theorem cell_regValue (u : Family) {n : Nat} (x : BitVec n) : cell (regValue u x) = storeBits u x := by
  have h := cell_wrap u n (regValue u x)
  rw [wrap_eq_regValue, ofInt_regValue] at h
  exact h

/-- A value operand is the number of the port's low `n` bits (10_state.md R24). -/
theorem operandV_eq (u : Family) (n : Nat) (p : Word) : operandV u n p = portValue u n p := by
  rw [operandV, wrap_eq_regValue, portValue, regBits]
  congr 1
  apply BitVec.eq_of_toNat_eq
  simp

theorem ofInt_portValue (u : Family) (n : Nat) (p : Word) : BitVec.ofInt n (portValue u n p) = regBits n p :=
  ofInt_regValue u _

@[simp] theorem State.valA_eq (s : State) (u : Family) (n : Nat) : s.valA u n = portValue u n s.a := operandV_eq u n s.a
@[simp] theorem State.valB_eq (s : State) (u : Family) (n : Nat) : s.valB u n = portValue u n s.b := operandV_eq u n s.b
@[simp] theorem State.valC_eq (s : State) (u : Family) (n : Nat) : s.valC u n = portValue u n s.c := operandV_eq u n s.c

theorem operandI_eq (p : Word) : operandI p = p.toInt := rfl

/-- A port's value is 0 exactly when its low `n` bits are. -/
theorem portValue_eq_zero (u : Family) (n : Nat) (p : Word) : portValue u n p = 0 ↔ regBits n p = 0#n := by
  constructor
  · intro h
    have := ofInt_portValue u n p
    rw [h] at this
    simpa using this.symm
  · intro h
    rw [portValue, h]
    cases u <;> simp [regValue]

/-! ### Ranges -/

theorem tmin_eq (u : Family) (n : Nat) : tmin u n = leastValue u n := by
  cases u with
  | unsigned => rfl
  | signed =>
    cases n with
    | zero => simp [tmin, signedMin, leastValue, BitVec.toInt_intMin]
    | succ k =>
      simp only [tmin, signedMin, leastValue, BitVec.toInt_intMin, Nat.succ_ne_zero, if_false, Nat.add_sub_cancel]
      have h : 2 ^ k % 2 ^ (k + 1) = 2 ^ k := Nat.mod_eq_of_lt (Nat.pow_lt_pow_right (by omega) (by omega))
      rw [h]; push_cast; rfl

theorem tmax_eq (u : Family) (n : Nat) : tmax u n = greatestValue u n := by
  cases u with
  | unsigned =>
    simp only [tmax, unsignedMax, greatestValue, BitVec.toNat_allOnes]
    have := Nat.one_le_two_pow (n := n)
    push_cast [this]; rfl
  | signed =>
    cases n with
    | zero => decide
    | succ k => simp [tmax, signedMax, greatestValue, BitVec.toInt_intMax]

theorem leastValue_le (u : Family) {n : Nat} (x : BitVec n) : leastValue u n ≤ regValue u x := by
  cases u with
  | unsigned => simp [leastValue, regValue]
  | signed =>
    rw [← tmin_eq]
    cases n with
    | zero => simp [tmin, signedMin, regValue, Subsingleton.elim x 0#0]
    | succ k => simpa [tmin, signedMin, regValue] using BitVec.le_toInt x

theorem le_greatestValue (u : Family) {n : Nat} (x : BitVec n) : regValue u x ≤ greatestValue u n := by
  rw [← tmax_eq]
  cases u with
  | unsigned =>
    have := x.isLt
    simp only [regValue, tmax, unsignedMax]
    have h : ((x.toNat : Nat) : Int) < ((2 ^ n : Nat) : Int) := by exact_mod_cast this
    push_cast at h; omega
  | signed =>
    cases n with
    | zero => simp [tmax, signedMax, regValue, Subsingleton.elim x 0#0]
    | succ k =>
      have := BitVec.toInt_lt (x := x)
      simp only [tmax, signedMax, regValue, Nat.succ_ne_zero, if_false, Nat.add_sub_cancel] at *
      omega

/-- A number in the range of a type is left alone by the wrap. -/
theorem wrap_of_range (u : Family) (n : Nat) (v : Int) (h1 : leastValue u n ≤ v) (h2 : v ≤ greatestValue u n) :
    wrap u n v = v := by
  rw [← tmin_eq] at h1
  rw [← tmax_eq] at h2
  cases u with
  | unsigned =>
    simp only [tmin, tmax, unsignedMax] at h1 h2
    exact Int.emod_eq_of_lt h1 (by omega)
  | signed =>
    cases n with
    | zero => simp [tmin, tmax, signedMin, signedMax] at h1 h2; simp [wrap, sext]; omega
    | succ k =>
      have hp : (2 : Int) ^ (k + 1) = 2 * 2 ^ k := by ring
      simp only [tmin, tmax, signedMin, signedMax, Nat.succ_ne_zero, if_false, Nat.add_sub_cancel] at h1 h2
      simp only [wrap, sext, zext, Nat.succ_ne_zero, if_false, Nat.add_sub_cancel, hp]
      by_cases h0 : 0 ≤ v
      · rw [Int.emod_eq_of_lt h0 (by omega)]; rw [if_neg (by omega)]
      · have : v % (2 * 2 ^ k) = v + 2 * 2 ^ k := by
          rw [← Int.add_emod_right]; exact Int.emod_eq_of_lt (by omega) (by omega)
        rw [this, if_pos (by omega)]; omega

theorem leastValue_le_greatestValue (u : Family) (n : Nat) : leastValue u n ≤ greatestValue u n :=
  le_trans (leastValue_le u (0#n)) (le_greatestValue u (0#n))

/-- The clamp of the spec is `max` and `min` when the bounds are in order. -/
theorem clamp_eq_max_min (v lo hi : Int) (h : lo ≤ hi) : clamp v lo hi = max lo (min v hi) := by
  unfold clamp
  split
  · rw [max_eq_left]; exact le_trans (min_le_left _ _) (by omega)
  · split
    · rw [min_eq_right (by omega), max_eq_right h]
    · rw [min_eq_left (by omega), max_eq_right (by omega)]

/-- Saturation to the type's own range. -/
theorem clamp_type (u : Family) (n : Nat) (v : Int) : clamp v (tmin u n) (tmax u n) = limit u n v := by
  rw [tmin_eq, tmax_eq, clamp_eq_max_min _ _ _ (leastValue_le_greatestValue u n), limit]

/-! ### The storage invariant -/

/-- An extended register satisfies the storage invariant (10_state.md R21, R22). -/
theorem canonical_storeBits (u : Family) {n : Nat} (hn : n ≤ 32) (x : BitVec n) : Canonical u n (storeBits u x) := by
  cases u with
  | unsigned =>
    intro i hi
    simp [storeBits, BitVec.getLsbD_setWidth, BitVec.getLsbD_of_ge x i hi]
  | signed =>
    refine ⟨?_, ?_⟩
    · rintro rfl
      simp [storeBits, Subsingleton.elim x 0#0]
    · intro i h1 h2
      simp only [storeBits, BitVec.getLsbD_signExtend]
      have key : ∀ j, j < 32 → n ≤ j + 1 → (decide (j < 32) && if j < n then x.getLsbD j else x.msb) = x.msb := by
        intro j hj hnj
        simp only [hj, decide_true, Bool.true_and]
        split
        · have : j = n - 1 := by omega
          rw [BitVec.msb_eq_getLsbD_last, this]
        · rfl
      rw [key i h2 h1, key 31 (by omega) (by omega)]

/-- The cell of a wrapped value satisfies the storage invariant (10_state.md R23). -/
theorem canonical_cell_wrap (u : Family) {n : Nat} (hn : n ≤ 32) (v : Int) : Canonical u n (cell (wrap u n v)) := by
  rw [cell_wrap]; exact canonical_storeBits u hn _

/-- The cell of a number in the range of the type satisfies the storage invariant (10_state.md R23). -/
theorem canonical_cell_of_range (u : Family) {n : Nat} (hn : n ≤ 32) (v : Int) (h1 : leastValue u n ≤ v)
    (h2 : v ≤ greatestValue u n) : Canonical u n (cell v) := by
  rw [← wrap_of_range u n v h1 h2]; exact canonical_cell_wrap u hn v

/-! ### Square root -/

/-- Every stage of the square root keeps `r² ≤ x < (r + 2^k)²` (47_math_sqrt_exp_log.md R300). -/
theorem isqrtFrom_spec (x : Nat) : ∀ k r, r * r ≤ x → x < (r + 2 ^ k) * (r + 2 ^ k) →
    isqrtFrom x k r * isqrtFrom x k r ≤ x ∧ x < (isqrtFrom x k r + 1) * (isqrtFrom x k r + 1) := by
  intro k
  induction k with
  | zero => intro r h1 h2; exact ⟨h1, by simpa [isqrtFrom] using h2⟩
  | succ k ih =>
    intro r h1 h2
    unfold isqrtFrom
    split
    · next h => exact ih _ h (by rw [pow_succ] at h2; calc x < _ := h2
                                 _ = _ := by ring)
    · next h => exact ih _ h1 (by omega)

/-- `isqrt(x)` is the largest root for a 64-bit argument (00_scope.md R17). -/
theorem isqrt_spec (x : Nat) (hx : x < 2 ^ 64) : isqrt x * isqrt x ≤ x ∧ x < (isqrt x + 1) * (isqrt x + 1) :=
  isqrtFrom_spec x 32 0 (by omega) (by simpa using hx)

end Sys2Proof.Machine
end

