-- ==== Sys2Proof/Laws/HostCodec.lean ====
section
/-! SUPPORT. What the readers and writers of Machine/HostCodec.lean do, one lemma for each: a reader takes what the writer
wrote and leaves the text after it (48_host_codecs.md R320 to R326). -/

namespace Sys2Proof.Machine

/-! ### Digits -/

/-- The codes of the digit characters. -/
theorem isDigit_toNat {ch : Char} (h : ch.isDigit = true) : 48 ≤ ch.toNat ∧ ch.toNat ≤ 57 := by
  simp only [Char.isDigit, Bool.and_eq_true, decide_eq_true_eq] at h
  exact ⟨h.1, h.2⟩

/-- A decimal digit character has its value. -/
theorem digitValue_of_isDigit (ch : Char) (h : ch.isDigit = true) : digitValue 10 ch = some (ch.toNat - 48) := by
  have h' := isDigit_toNat h
  simp only [digitValue, if_pos h']
  rw [if_pos (by omega)]

theorem digitValue_of_not_isDigit (ch : Char) (h : ch.isDigit = false) : digitValue 10 ch = none := by
  have h' : ¬(48 ≤ ch.toNat ∧ ch.toNat ≤ 57) := fun hc => by
    simp only [Char.isDigit, Bool.and_eq_false_iff, decide_eq_false_iff_not] at h
    rcases h with h | h <;> exact h (by first | exact hc.1 | exact hc.2)
  simp only [digitValue, if_neg h']
  rw [if_neg (by split_ifs <;> omega)]

/-- A run of decimal digits on top of the value read so far (48_host_codecs.md R320). -/
theorem digitsFrom_of_isDigit (text : List Char) (h : ∀ ch ∈ text, ch.isDigit = true) (v : Nat) :
    digitsFrom 10 v text = some (Nat.ofDigitChars 10 text v) := by
  induction text generalizing v with
  | nil => rfl
  | cons ch rest ih =>
    rw [digitsFrom, digitValue_of_isDigit ch (h ch (by simp))]
    show digitsFrom 10 (v * 10 + (ch.toNat - 48)) rest = _
    rw [ih (fun c hc => h c (by simp [hc])), Nat.mul_comm v 10]; rfl

theorem digits_of_isDigit (text : List Char) (hne : text ≠ []) (h : ∀ ch ∈ text, ch.isDigit = true) :
    digits 10 text = some (Nat.ofDigitChars 10 text 0) := by
  cases text with
  | nil => exact absurd rfl hne
  | cons ch rest => exact digitsFrom_of_isDigit _ h 0

theorem digits_toDigits (v : Nat) : digits 10 (Nat.toDigits 10 v) = some v := by
  rw [digits_of_isDigit _ Nat.toDigits_ne_nil
    (fun _ hc => Nat.isDigit_of_mem_toDigits (by decide) (by decide) hc),
    Nat.ofDigitChars_toDigits (by decide) (by decide)]

/-- A run of digits ends where the first other character stands. -/
theorem splitDigits_append (ds : List Char) (h : ∀ ch ∈ ds, ch.isDigit = true) (ch : Char) (rest : List Char)
    (hch : ch.isDigit = false) : splitDigits (ds ++ ch :: rest) = (ds, ch :: rest) := by
  induction ds with
  | nil => rw [List.nil_append, splitDigits, digitValue_of_not_isDigit ch hch]
  | cons d ds ih =>
    rw [List.cons_append, splitDigits, digitValue_of_isDigit d (h d (by simp)), ih (fun c hc => h c (by simp [hc]))]

theorem digitChar_eq (d : Nat) (h : d < 10) : Nat.digitChar d = Char.ofNat (48 + d) := by
  interval_cases d <;> rfl

/-- The writer's digits are those of the number in base ten, when there is room for them. -/
theorem decimalFrom_eq (fuel v : Nat) (acc : List Char) (h : v < 10 ^ (fuel + 1)) :
    decimalFrom (fuel + 1) v acc = Nat.toDigits 10 v ++ acc := by
  induction fuel generalizing v acc with
  | zero =>
    have hv : v < 10 := by simpa using h
    rw [decimalFrom, Nat.toDigits_of_lt_base hv, if_pos (by omega), Nat.mod_eq_of_lt hv, digitChar_eq v hv]; rfl
  | succ fuel ih =>
    rw [decimalFrom]
    split
    · next h0 =>
      have hv : v < 10 := by omega
      rw [Nat.toDigits_of_lt_base hv, Nat.mod_eq_of_lt hv, digitChar_eq v hv]; rfl
    · next h0 =>
      have hd := Nat.toDigits_append_toDigits (b := 10) (n := v / 10) (d := v % 10) (by decide) (by omega) (by omega)
      rw [ih _ _ (by rw [pow_succ] at h; omega), ← Nat.div_add_mod v 10, ← hd,
        Nat.toDigits_of_lt_base (Nat.mod_lt v (by decide)), digitChar_eq _ (Nat.mod_lt v (by decide)),
        Nat.div_add_mod]
      simp

/-- A number of at most ten digits in decimal (48_host_codecs.md R323). -/
theorem decimal_eq (v : Int) (h : v.natAbs < 10 ^ 10) :
    decimal v = (if v < 0 then ['-'] else []) ++ Nat.toDigits 10 v.natAbs := by
  unfold decimal
  split <;> rw [decimalFrom_eq 9 _ _ h] <;> simp

/-- A value operand has at most ten digits. -/
theorem operandV_natAbs_lt (u : Family) (n : Nat) (p : Word) : (operandV u n p).natAbs < 10 ^ 10 := by
  have hp : p.toNat < 2 ^ 32 := p.isLt
  obtain ⟨z, hz⟩ : ∃ z : Nat, zext n p.toNat = z := ⟨p.toNat % 2 ^ n, by rw [zext]; push_cast; rfl⟩
  have h1 : z ≤ p.toNat := by
    have : z = p.toNat % 2 ^ n := by zify; rw [← hz, zext]
    exact this ▸ Nat.mod_le _ _
  have h2 : (z : Int) < 2 ^ n := by rw [← hz]; exact Int.emod_lt_of_pos _ (by positivity)
  unfold operandV wrap
  cases u with
  | unsigned => simp only [hz]; omega
  | signed =>
    simp only [sext, hz]
    split_ifs with hn hs
    · decide
    · obtain ⟨m, rfl⟩ : ∃ m, n = m + 1 := ⟨n - 1, by omega⟩
      rw [Nat.add_sub_cancel] at hs
      rw [pow_succ] at h2 ⊢
      generalize (2 : Int) ^ m = b at *
      omega
    · omega

/-! ### Numeric strings -/

/-- A non-empty run of decimal digits is its number (48_host_codecs.md R320). -/
theorem parseNumber_of_isDigit (text : List Char) (hne : text ≠ []) (h : ∀ ch ∈ text, ch.isDigit = true) :
    parseNumber text = some (Nat.ofDigitChars 10 text 0 : Int) := by
  have hd := digits_of_isDigit text hne h
  unfold parseNumber
  split <;> first
    | (exfalso; revert h; simp [Char.isDigit]; done)
    | skip
  rw [hd]; rfl

theorem parseNumber_minus (text : List Char) :
    parseNumber ('-' :: text) = (digits 10 text).map (fun v : Nat => -(v : Int)) := by
  simp [parseNumber]

/-- The reader of numbers takes what the writer wrote. -/
theorem parseNumber_decimal (v : Int) (hv : v.natAbs < 10 ^ 10) : parseNumber (decimal v) = some v := by
  rw [decimal_eq v hv]
  split
  · rw [List.cons_append, List.nil_append, parseNumber_minus, digits_toDigits, Option.map_some,
      show -(v.natAbs : Int) = v by omega]
  · rw [List.nil_append, parseNumber_of_isDigit _ Nat.toDigits_ne_nil
      (fun _ hc => Nat.isDigit_of_mem_toDigits (by decide) (by decide) hc),
      Nat.ofDigitChars_toDigits (by decide) (by decide), show (v.natAbs : Int) = v by omega]

/-! ### JSON text -/

/-- No digit and no minus sign is white space, and neither is JSON's punctuation. -/
theorem skipSpace_cons (ch : Char) (rest : List Char) (h : 32 < ch.toNat) : skipSpace (ch :: rest) = ch :: rest := by
  rw [skipSpace, if_neg (by omega)]

theorem expectChar_cons (ch : Char) (rest : List Char) (h : 32 < ch.toNat) : expectChar ch (ch :: rest) = some rest := by
  rw [expectChar, skipSpace_cons _ _ h]; simp

/-- A fixed run of characters is taken where it stands. -/
theorem expectText_append (text rest : List Char) : expectText text (text ++ rest) = some rest := by
  induction text with
  | nil => cases rest <;> rfl
  | cons ch text ih => rw [List.cons_append, expectText, if_pos rfl, ih]

/-- The reader of a number takes what the writer wrote, up to the character after it. -/
theorem readInt_decimal (v : Int) (hv : v.natAbs < 10 ^ 10) (ch : Char) (rest : List Char) (hch : ch.isDigit = false) :
    readInt (decimal v ++ ch :: rest) = some (v, ch :: rest) := by
  have hd : ∀ c ∈ Nat.toDigits 10 v.natAbs, c.isDigit = true :=
    fun c hc => Nat.isDigit_of_mem_toDigits (by decide) (by decide) hc
  have hsplit := splitDigits_append _ hd ch rest hch
  rw [decimal_eq v hv]
  by_cases hneg : v < 0
  · rw [if_pos hneg, List.cons_append, List.nil_append, List.cons_append, readInt, skipSpace_cons _ _ (by decide)]
    simp only [hsplit, digits_toDigits]
    show some (-(v.natAbs : Int), ch :: rest) = _
    rw [show -(v.natAbs : Int) = v by omega]
  · rw [if_neg hneg, List.nil_append]
    obtain ⟨d, ds, hds⟩ : ∃ d ds, Nat.toDigits 10 v.natAbs = d :: ds := List.exists_cons_of_ne_nil Nat.toDigits_ne_nil
    have hdd := isDigit_toNat (hd d (by simp [hds]))
    have hne : d ≠ '-' := fun h => by rw [h] at hdd; exact absurd hdd.1 (by decide)
    have hskip : skipSpace (Nat.toDigits 10 v.natAbs ++ ch :: rest) = Nat.toDigits 10 v.natAbs ++ ch :: rest := by
      rw [hds, List.cons_append, skipSpace_cons _ _ (by omega)]
    rw [readInt, hskip]
    split
    · next r heq => rw [hds, List.cons_append] at heq; exact absurd (List.cons.inj heq).1 hne
    · simp only [hsplit, digits_toDigits]
      show some ((v.natAbs : Int), ch :: rest) = _
      rw [show (v.natAbs : Int) = v by omega]

/-- The reader of a member takes what the writer wrote. -/
theorem readMember_memberText (key : MetaKey) (v : Int) (hv : v.natAbs < 10 ^ 10) (ch : Char) (rest : List Char)
    (hch : ch.isDigit = false) : readMember key (memberText key v ++ ch :: rest) = some (v, ch :: rest) := by
  have h1 : skipSpace (memberText key v ++ ch :: rest) = quoted key.text ++ (colonChar :: (decimal v ++ ch :: rest)) := by
    rw [memberText, List.append_assoc, List.cons_append, quoted, List.cons_append, skipSpace_cons _ _ (by decide)]
  rw [readMember, h1, expectText_append, Option.bind_some, expectChar_cons _ _ (by decide), Option.bind_some,
    readInt_decimal v hv ch rest hch]

/-- A member with another key is not taken. -/
theorem readMember_other (key other : MetaKey) (hne : key ≠ other) (v : Int) (rest : List Char) :
    readMember key (memberText other v ++ rest) = none := by
  have h1 : skipSpace (memberText other v ++ rest) = quoted other.text ++ (colonChar :: (decimal v ++ rest)) := by
    rw [memberText, List.append_assoc, List.cons_append, quoted, List.cons_append, skipSpace_cons _ _ (by decide)]
  rw [readMember, h1]
  cases key <;> cases other <;> first | exact absurd rfl hne | rfl

/-- The reader of any member takes what the writer wrote. -/
theorem readAnyMember_memberText (key : MetaKey) (v : Int) (hv : v.natAbs < 10 ^ 10) (ch : Char) (rest : List Char)
    (hch : ch.isDigit = false) : readAnyMember (memberText key v ++ ch :: rest) = some ((key, v), ch :: rest) := by
  have hself := readMember_memberText key v hv ch rest hch
  have hother := fun key' (hne : key' ≠ key) => readMember_other key' key hne v (ch :: rest)
  unfold readAnyMember
  cases key <;> simp [List.findSome?, hself, hother]

/-- The reader of an object takes the three members the writer wrote (48_host_codecs.md R324). -/
theorem readMeta_toJsonWithMeta (t : FixType) (w : Word) :
    readMeta (toJsonWithMeta t w) =
      some [(widthKey t.u, (t.n.toNat : Int)), (.fracBits, (t.f.toNat : Int)), (.raw, operandV t.u t.n.toNat w)] := by
  have hn : ((t.n.toNat : Int)).natAbs < 10 ^ 10 := by have := t.n.isLt; omega
  have hf : ((t.f.toNat : Int)).natAbs < 10 ^ 10 := by have := t.f.isLt; omega
  rw [readMeta, toJsonWithMeta, expectChar_cons _ _ (by decide), Option.bind_some,
    readAnyMember_memberText _ _ hn _ _ (by decide), Option.bind_some]
  simp only [readMembers]
  rw [expectChar_cons _ _ (by decide), Option.bind_some, readAnyMember_memberText _ _ hf _ _ (by decide),
    Option.bind_some]
  simp only
  rw [expectChar_cons _ _ (by decide), Option.bind_some,
    readAnyMember_memberText _ _ (operandV_natAbs_lt _ _ _) _ _ (by decide), Option.bind_some]
  simp only
  rw [expectChar_cons _ _ (by decide)]
  rfl

/-- What a JSON string holds. -/
@[simp] theorem unquoted_quoted (text : List Char) : unquoted (quoted text) = some text := by
  simp [unquoted, quoted]

end Sys2Proof.Machine
end

