-- ==== Sys2Proof/Laws/State.lean ====
section
/-! SUPPORT. One lemma per field and per update of the state, and the status of each form of response. -/

namespace Sys2Proof.Machine

variable (s : State) (resp : Response) (nbits w : Nat)

@[simp] theorem State.respond_cw : (s.respond resp).cw = s.cw := rfl
@[simp] theorem State.respond_a : (s.respond resp).a = s.a := rfl
@[simp] theorem State.respond_b : (s.respond resp).b = s.b := rfl
@[simp] theorem State.respond_c : (s.respond resp).c = s.c := rfl
@[simp] theorem State.respond_d : (s.respond resp).d = s.d := rfl
@[simp] theorem State.respond_e : (s.respond resp).e = s.e := rfl
@[simp] theorem State.respond_response : (s.respond resp).response = some resp := rfl
@[simp] theorem State.respond_respond (resp' : Response) : (s.respond resp').respond resp = s.respond resp := rfl

@[simp] theorem State.withFetchWord_cw : (s.withFetchWord nbits w).cw = BitVec.ofNat 32 (w % 2 ^ nbits) := rfl
@[simp] theorem State.withFetchWord_a : (s.withFetchWord nbits w).a = s.a := rfl
@[simp] theorem State.withFetchWord_b : (s.withFetchWord nbits w).b = s.b := rfl
@[simp] theorem State.withFetchWord_c : (s.withFetchWord nbits w).c = s.c := rfl
@[simp] theorem State.withFetchWord_d : (s.withFetchWord nbits w).d = s.d := rfl
@[simp] theorem State.withFetchWord_e : (s.withFetchWord nbits w).e = s.e := rfl
@[simp] theorem State.withFetchWord_response : (s.withFetchWord nbits w).response = s.response := rfl
@[simp] theorem State.withFetchWord_fetch : (s.withFetchWord nbits w).fetch = BitVec.ofNat 32 (w % 2 ^ nbits) := rfl

@[simp] theorem Response.st_word (r : Word) : (Response.word r).st = 0#3 := rfl
@[simp] theorem Response.st_bytes (r r2 : Word) : (Response.bytes r r2).st = 0#3 := rfl
@[simp] theorem Response.st_error (kind : ErrorKind) : (Response.error kind).st = kind.code := rfl
@[simp] theorem Response.r_word (r : Word) : (Response.word r).r = some r := rfl
@[simp] theorem Response.r_bytes (r r2 : Word) : (Response.bytes r r2).r = some r := rfl
@[simp] theorem Response.r_error (kind : ErrorKind) : (Response.error kind).r = none := rfl
@[simp] theorem Response.r2_word (r : Word) : (Response.word r).r2 = none := rfl
@[simp] theorem Response.r2_bytes (r r2 : Word) : (Response.bytes r r2).r2 = some r2 := rfl
@[simp] theorem Response.r2_error (kind : ErrorKind) : (Response.error kind).r2 = none := rfl

end Sys2Proof.Machine
end

