-- ==== Sys2Proof/Laws/Ops.lean ====
section
/-! SUPPORT. One lemma per shared operation that says once all it can do. The answers are written with the N-bit
registers of Safety.lean, not with the model's arithmetic. -/

namespace Sys2Proof.Machine

/-! ### Responses and raising an error -/

theorem raise_eq (kind : ErrorKind) (s : State) : raise kind s = .next { s with response := some (.error kind) } := rfl

theorem complete_eq (r : Word) (s : State) : complete r s = .next { s with response := some (.word r) } := rfl

theorem completeBytes_eq (r r2 : Word) (s : State) :
    completeBytes r r2 s = .next { s with response := some (.bytes r r2) } := rfl

theorem completeInt_eq (k : Int) (s : State) :
    completeInt k s = .next { s with response := some (.word (BitVec.ofInt 32 k)) } := rfl

theorem completeInRange_eq (v : Int) (s : State) :
    completeInRange v s = .next { s with response := some (.word (BitVec.ofInt 32 v)) } := rfl

theorem completeWrapped_eq (u : Family) (n : Nat) (v : Int) (s : State) :
    completeWrapped u n v s = .next { s with response := some (.word (storeBits u (BitVec.ofInt n v))) } := by
  rw [completeWrapped, cell_wrap]; rfl

/-! ### The width checks -/

theorem IntType.supported_iff (t : IntType) : t.supported = true ↔ t.n.toNat ≤ 32 := by
  simp [IntType.supported, widthSupported]

theorem FixType.supported_iff (t : FixType) : t.supported = true ↔ t.n.toNat ≤ 32 ∧ t.f.toNat ≤ 32 := by
  simp [FixType.supported, widthSupported]

theorem FixType.angleSupported_iff (t : FixType) :
    t.angleSupported = true ↔ t.f.toNat ≤ 32 ∧ 2 ≤ t.n.toNat ∧ t.n.toNat ≤ 31 := by
  simp only [FixType.angleSupported, Bool.and_eq_true, FixType.supported_iff, decide_eq_true_eq]
  omega

theorem guardInt_eq (t : IntType) (s : State) (body : Answer) :
    guardInt t s body = if t.supported then body else raise .notSupportedError s := by
  unfold guardInt
  by_cases h : t.n.toNat ≤ 32
  · rw [if_neg (by omega), if_pos ((IntType.supported_iff t).2 h)]
  · rw [if_pos (by omega), if_neg (by rw [IntType.supported_iff]; exact h)]

theorem guardFix_eq (t : FixType) (s : State) (body : Answer) :
    guardFix t s body = if t.supported then body else raise .notSupportedError s := by
  unfold guardFix
  by_cases h : t.n.toNat ≤ 32 ∧ t.f.toNat ≤ 32
  · rw [if_neg (by omega), if_pos ((FixType.supported_iff t).2 h)]
  · rw [if_pos (by omega), if_neg (by rw [FixType.supported_iff]; exact h)]

theorem guardCvt_eq (t : FixType) (f2 : BitVec 6) (s : State) (body : Answer) :
    guardCvt t f2 s body = if t.supported && widthSupported f2 then body else raise .notSupportedError s := by
  unfold guardCvt
  by_cases h : (t.n.toNat ≤ 32 ∧ t.f.toNat ≤ 32) ∧ f2.toNat ≤ 32
  · rw [if_neg (by omega), if_pos (by
      rw [Bool.and_eq_true, FixType.supported_iff, widthSupported, decide_eq_true_eq]; exact h)]
  · rw [if_pos (by omega), if_neg (by
      rw [Bool.and_eq_true, FixType.supported_iff, widthSupported, decide_eq_true_eq]; exact h)]

theorem guardAngle_eq (t : FixType) (s : State) (body : Answer) :
    guardAngle t s body = if t.angleSupported then body else raise .notSupportedError s := by
  unfold guardAngle
  rw [guardFix_eq]
  by_cases h1 : t.supported = true
  · rw [if_pos h1]
    by_cases h2 : 2 ≤ t.n.toNat ∧ t.n.toNat ≤ 31
    · rw [if_neg (by omega), if_pos (by simp [FixType.angleSupported, h1, h2])]
    · rw [if_pos (by omega), if_neg (by
        simp only [FixType.angleSupported, h1, Bool.true_and, Bool.and_eq_true, decide_eq_true_eq]; exact h2)]
  · rw [if_neg h1, if_neg (by simp [FixType.angleSupported, h1])]

/-! ### Arithmetic -/

theorem wrapping_eq (u : Family) (n : Nat) (op : Int → Int → Int) (s : State) :
    wrapping u n op s = .next { s with response := some (.word (storeBits u
      (BitVec.ofInt n (op (portValue u n s.a) (portValue u n s.b))))) } := by
  rw [wrapping, completeWrapped_eq, State.valA_eq, State.valB_eq]

theorem saturating_eq (u : Family) (n : Nat) (op : Int → Int → Int) (s : State) :
    saturating u n op s = .next { s with response := some (.word
      (BitVec.ofInt 32 (limit u n (op (portValue u n s.a) (portValue u n s.b))))) } := by
  rw [saturating, completeInRange_eq, clamp_type, State.valA_eq, State.valB_eq]

theorem dividing_eq (u : Family) (n : Nat) (op : Int → Int → Int) (num : Int) (s : State) :
    dividing u n op num s = if regBits n s.b = 0#n then .next { s with response := some (.error .divisionByZero) }
      else .next { s with response := some (.word (storeBits u (BitVec.ofInt n (op num (portValue u n s.b))))) } := by
  simp only [dividing, State.valB_eq, portValue_eq_zero, completeWrapped_eq, raise_eq]

/-! ### Clamps -/

theorem clamping_of_ordered (u : Family) (n : Nat) (s : State) (h : portValue u n s.b ≤ portValue u n s.c) :
    clamping u n s = .next { s with response := some (.word (BitVec.ofInt 32
      (max (portValue u n s.b) (min (portValue u n s.a) (portValue u n s.c))))) } := by
  rw [clamping, completeInRange_eq, State.valA_eq, State.valB_eq, State.valC_eq, clamp_eq_max_min _ _ _ h]

theorem clampingZeroTo_eq (one : Int) (h : 0 ≤ one) (u : Family) (n : Nat) (s : State) :
    clampingZeroTo one u n s = .next { s with response := some (.word (BitVec.ofInt 32
      (max 0 (min (portValue u n s.a) one)))) } := by
  rw [clampingZeroTo, completeInRange_eq, State.valA_eq, clamp_eq_max_min _ _ _ h]

theorem offsetBound_eq (u : Family) (n : Nat) (bound delta : Int) :
    offsetBound u n bound delta = limit u n (bound + delta) := clamp_type u n _

theorem clampSwapped_eq (v lo hi : Int) : clampSwapped v lo hi = max (min lo hi) (min v (max lo hi)) := by
  unfold clampSwapped
  split
  · next h => rw [clamp_eq_max_min _ _ _ (le_of_lt h), min_eq_right (le_of_lt h), max_eq_left (le_of_lt h)]
  · next h => rw [clamp_eq_max_min _ _ _ (not_lt.1 h), min_eq_left (not_lt.1 h), max_eq_right (not_lt.1 h)]

theorem clampingWithOffset_eq (u : Family) (n : Nat) (s : State) :
    clampingWithOffset u n s = .next { s with response := some (.word (BitVec.ofInt 32
      (clampSwapped (portValue u n s.a) (limit u n (portValue u n s.b + s.d.toInt))
        (limit u n (portValue u n s.c + s.e.toInt))))) } := by
  simp only [clampingWithOffset, completeInRange_eq, State.valA_eq, State.valB_eq, State.valC_eq, offsetBound_eq,
    operandI_eq]

/-! ### Shifts and rotates -/

theorem shifting_eq (n : Nat) (s : State) (body : Nat → Answer) :
    shifting n s body = if 0 ≤ s.b.toInt ∧ s.b.toInt < n then body s.b.toInt.toNat
      else .next { s with response := some (.error .rangeError) } := by
  unfold shifting operandI raise
  by_cases h : 0 ≤ s.b.toInt ∧ s.b.toInt < n
  · rw [if_neg (by omega), if_pos h]
  · rw [if_pos (by omega), if_neg h]; rfl

theorem patternOf_portValue (u : Family) (n : Nat) (p : Word) : patternOf n (portValue u n p) = (regBits n p).toNat := by
  have h : zext n (portValue u n p) = regValue .unsigned (BitVec.ofInt n (portValue u n p)) :=
    wrap_eq_regValue .unsigned n _
  rw [patternOf, h, ofInt_portValue]; simp [regValue]

theorem rotating_eq (rot : Nat → Nat → Nat → Nat) (u : Family) (n : Nat) (s : State) :
    rotating rot u n s = if n = 0 then .next { s with response := some (.error .rangeError) }
      else .next { s with response := some (.word (storeBits u
        (BitVec.ofNat n (rot n (regBits n s.a).toNat (s.b.toInt % n).toNat)))) } := by
  have h : fmod s.b.toInt n = s.b.toInt % n := by rw [fmod, Int.emod_def]
  simp only [rotating, completeWrapped_eq, raise_eq, operandI_eq, State.valA_eq, patternOf_portValue, h,
    BitVec.ofInt_natCast]

theorem State.pattern_eq (s : State) (t : IntType) : s.pattern t = (regBits t.n.toNat s.a).toNat := by
  rw [State.pattern, State.valA_eq, patternOf_portValue]

/-! ### The byte codec -/

theorem imageWord_portValue (u : Family) (n : Nat) (p : Word) :
    imageWord Config.bytePadSigned n (portValue u n p) = storeBits u (regBits n p) := by
  simp only [imageWord, Config.bytePadSigned, if_true]
  exact cell_regValue u _

theorem toBytes_eq (u : Family) (n : Nat) (s : State) :
    toBytes u n s = .next { s with response := some (.bytes
      (storeBits u (regBits n s.a) &&& byteMask (byteCount n)) (BitVec.ofNat 32 (byteCount n))) } := by
  rw [toBytes, State.valA_eq, imageWord_portValue]; rfl

theorem getByte_eq (u : Family) (n : Nat) (s : State) :
    getByte u n s = if 0 ≤ s.b.toInt ∧ s.b.toInt < byteCount n then
        .next { s with response := some (.word (BitVec.setWidth 32
          ((storeBits u (regBits n s.a)).extractLsb' (8 * s.b.toInt.toNat) 8))) }
      else .next { s with response := some (.error .rangeError) } := by
  unfold getByte operandI byteAt
  rw [State.valA_eq, imageWord_portValue, completeInt_eq, raise_eq]
  by_cases h : 0 ≤ s.b.toInt ∧ s.b.toInt < byteCount n
  · rw [if_neg (by omega), if_pos h, BitVec.ofInt_natCast, BitVec.ofNat_toNat]
  · rw [if_pos (by omega), if_neg h]

theorem setByte_eq (u : Family) (n : Nat) (s : State) :
    setByte u n s = if 0 ≤ s.b.toInt ∧ s.b.toInt < byteCount n then
        .next { s with response := some (.word (storeBits u (regBits n
          (replaceByte (storeBits u (regBits n s.a)) s.b.toInt.toNat (s.c.extractLsb' 0 8))))) }
      else .next { s with response := some (.error .rangeError) } := by
  have h8 : cell (portValue u n s.a) = storeBits u (regBits n s.a) := cell_regValue u _
  unfold setByte operandI operandY
  rw [State.valA_eq, h8, completeWrapped_eq, raise_eq]
  by_cases h : 0 ≤ s.b.toInt ∧ s.b.toInt < byteCount n
  · rw [if_neg (by omega), if_pos h, BitVec.ofInt_natCast, BitVec.ofNat_toNat, regBits, regBits]
  · rw [if_pos (by omega), if_neg h]

theorem fromBytes_eq (accepts : Nat → Bool) (u : Family) (n : Nat) (s : State) :
    fromBytes accepts u n s = if accepts s.b.toNat then
        .next { s with response := some (.word (storeBits u (regBits n (s.a &&& byteMask (byteCount n))))) }
      else .next { s with response := some (.error .formatError) } := by
  simp only [fromBytes, operandLen, completeWrapped_eq, raise_eq, BitVec.ofInt_natCast, BitVec.ofNat_toNat,
    regBits]

/-! ### The step -/

/-- A step serves the instruction the decoder reads, or answers IllegalCommand. -/
theorem step_eq (s : State) :
    step s = match decode s.cw with
      | .ok i => exec i s
      | .error _ => .next { s with response := some (.error .illegalCommand) } := rfl

end Sys2Proof.Machine
end

