-- ==== Sys2Proof/Laws/Math.lean ====
section
/-! SUPPORT. The quadrant and the phase of an angle as bits of the operand port (46_math_trig.md R253), the table
reads and the spline in plain terms (R255), and the exponential and the logarithm (47_math_sqrt_exp_log.md). -/

namespace Sys2Proof.Machine

/-- The pattern of an angle operand is the low `n` bits of its port. -/
theorem zext_portValue (u : Family) (n : Nat) (p : Word) : zext n (portValue u n p) = ((regBits n p).toNat : Int) := by
  have h : zext n (portValue u n p) = regValue .unsigned (BitVec.ofInt n (portValue u n p)) :=
    wrap_eq_regValue .unsigned n _
  rw [h, ofInt_portValue]; rfl

theorem quadrant_portValue (u : Family) (n : Nat) (p : Word) :
    quadrant n (portValue u n p) = (regBits n p).toNat / 2 ^ (n - 2) := by
  rw [quadrant, zext_portValue, shr]
  norm_cast

theorem phase_portValue (u : Family) (n : Nat) (p : Word) :
    phase n (portValue u n p) = (regBits n p).toNat % 2 ^ (n - 2) := by
  rw [phase, zext_portValue, lowBits]
  norm_cast

/-- The phase is the `n − 2` low bits of the port. -/
theorem phase_eq_setWidth (u : Family) (n : Nat) (p : Word) :
    phase n (portValue u n p) = (p.setWidth (n - 2)).toNat := by
  rw [phase_portValue, regBits, BitVec.toNat_setWidth, BitVec.toNat_setWidth]
  exact Nat.mod_mod_of_dvd _ (pow_dvd_pow 2 (by omega))

/-- Bit `k` of the quadrant is bit `n − 2 + k` of the port. -/
theorem quadrant_testBit (u : Family) (n k : Nat) (p : Word) (hn : 2 ≤ n) (hk : k < 2) :
    (quadrant n (portValue u n p)).testBit k = p.getLsbD (n - 2 + k) := by
  rw [quadrant_portValue, Nat.testBit_div_two_pow, regBits, Nat.add_comm k]
  have h : (BitVec.setWidth n p).getLsbD (n - 2 + k) = p.getLsbD (n - 2 + k) := by
    rw [BitVec.getLsbD_setWidth, decide_eq_true (by omega), Bool.true_and]
  exact h

/-- A table read is edge-clamped (46_math_trig.md R255). -/
theorem sample_eq (T : Fin 4096 → Q16) (k : Int) :
    sample T k = T (Fin.ofNat 4096 (max 0 (min k 4095)).toNat) := by
  rw [sample, clamp_eq_max_min _ _ _ (by decide)]

theorem tailSample_eq (P : Config.Params) (k : Int) :
    tailSample P k = P.asinTail (Fin.ofNat 2050 (max (-1) (min k 2048) + 1).toNat) := by
  rw [tailSample, clamp_eq_max_min _ _ _ (by decide)]

theorem spline_eq (P : Config.Params) (entry : Int → Q16) (pos : Q16) :
    spline P entry pos = P.catmullRom (entry (pos.toInt / 2 ^ 16 - 1)) (entry (pos.toInt / 2 ^ 16))
      (entry (pos.toInt / 2 ^ 16 + 1)) (entry (pos.toInt / 2 ^ 16 + 2)) (pos.setWidth 16) := rfl

/-- A number that is not negative has the angle looked up (46_math_trig.md R266, R269). -/
@[simp] theorem forSign_of_nonneg (negative : Q16 → Q16) (x angle : Q16) (h : 0 ≤ x.toInt) :
    forSign negative x angle = angle := if_neg (by omega)

@[simp] theorem forSign_of_neg (negative : Q16 → Q16) (x angle : Q16) (h : x.toInt < 0) :
    forSign negative x angle = negative angle := if_pos h

/-- The nearest index is within half an entry of the position (46_math_trig.md R266). -/
theorem nearestIndex_spec (pos : Q16) (tieUp : Bool) : |pos.toInt - nearestIndex pos tieUp * 2 ^ 16| ≤ 2 ^ 15 := by
  have hfrac : ((fracPart pos).toNat : Int) = pos.toInt % 65536 := by
    have h1 := BitVec.toInt_eq_toNat_bmod pos
    rw [fracPart, BitVec.toNat_setWidth, h1]
    unfold Int.bmod
    push_cast
    split <;> omega
  have hsum := Int.mul_ediv_add_emod pos.toInt 65536
  have hlo := Int.emod_nonneg pos.toInt (show (65536 : Int) ≠ 0 by decide)
  have hhi := Int.emod_lt_of_pos pos.toInt (show (0 : Int) < 65536 by decide)
  unfold nearestIndex
  simp only [wholePart, shr]
  norm_num only
  rw [abs_le]
  split_ifs <;> constructor <;> omega

/-- An exact result that 32 bits hold is that Q16.16 number (00_scope.md R12). -/
theorem toQ16_of_range (P : Config.Params) (v : Int) (h1 : -2 ^ 31 ≤ v) (h2 : v < 2 ^ 31) :
    toQ16 P v = BitVec.ofInt 32 v := if_pos ⟨h1, h2⟩

/-- Negation is two's complement on every Q16.16 number but the least, which has no negative. -/
theorem negQ16_eq (P : Config.Params) (q : Q16) :
    negQ16 P q = if q = BitVec.intMin 32 then P.q16Outside (2 ^ 31) else -q := by
  have hlo := BitVec.le_toInt q
  have hhi := BitVec.toInt_lt (x := q)
  have hmin : q = BitVec.intMin 32 ↔ q.toInt = -2 ^ 31 :=
    ⟨fun h => by rw [h]; decide, fun h => BitVec.eq_of_toInt_eq (by rw [h]; decide)⟩
  rw [negQ16, toQ16]
  split
  · next h =>
    rw [if_neg (fun hq => by have := hmin.1 hq; omega)]
    rw [BitVec.ofInt_neg, BitVec.ofInt_toInt]
  · next h =>
    have : q.toInt = -2 ^ 31 := by omega
    rw [if_pos (hmin.2 this), this]; rfl

/-- SIN before the wrap, in terms of the bits of the port (46_math_trig.md R256). -/
theorem sinQ16_portValue (P : Config.Params) (u : Family) (n : Nat) (p : Word) (hn : 2 ≤ n) :
    sinQ16 P n (portValue u n p) =
      if p.getLsbD (n - 1) then negQ16 P (sinMag P n (p.getLsbD (n - 2)) (p.setWidth (n - 2)).toNat)
      else sinMag P n (p.getLsbD (n - 2)) (p.setWidth (n - 2)).toNat := by
  have h1 := quadrant_testBit u n 1 p hn (by decide)
  have h0 := quadrant_testBit u n 0 p hn (by decide)
  rw [show n - 2 + 1 = n - 1 by omega] at h1
  rw [sinQ16, h1, h0, phase_eq_setWidth]; rfl

/-- A quarter turn ahead is an addition to the port (46_math_trig.md R259). -/
theorem quarterAhead_portValue (u : Family) (n : Nat) (p : Word) (hn : 2 ≤ n) (hn' : n ≤ 32) :
    quarterAhead u n (portValue u n p) = portValue u n (p + (1#32 <<< (n - 2))) := by
  rw [quarterAhead, wrap_eq_regValue, portValue]
  congr 1
  rw [BitVec.ofInt_add, ofInt_regValue]
  apply BitVec.eq_of_toNat_eq
  have h2 : BitVec.ofInt n (2 ^ (n - 2)) = BitVec.ofNat n (2 ^ (n - 2)) := by
    have : ((2 : Int) ^ (n - 2)) = ((2 ^ (n - 2) : Nat) : Int) := by push_cast; rfl
    rw [this, BitVec.ofInt_natCast]
  have hd : 2 ^ n ∣ 2 ^ 32 := pow_dvd_pow 2 hn'
  have hlt : 2 ^ (n - 2) < 2 ^ 32 := Nat.pow_lt_pow_right (by decide) (by omega)
  rw [h2]
  simp only [regBits, BitVec.toNat_add, BitVec.toNat_setWidth, BitVec.toNat_ofNat, BitVec.toNat_shiftLeft,
    Nat.shiftLeft_eq, Nat.mod_mod_of_dvd _ hd, Nat.add_mod_mod, Nat.mod_add_mod]
  norm_num [Nat.mod_eq_of_lt hlt]

/-! ### Exponential and logarithm (47_math_sqrt_exp_log.md) -/

@[simp] theorem scaled_zero (scale : Int → Int) : scaled scale 0 = 0 := if_pos rfl

/-- A scale that takes 0 to 0 is itself. -/
theorem scaled_eq (scale : Int → Int) (h : scale 0 = 0) (p : Int) : scaled scale p = scale p := by
  unfold scaled; split
  · next hp => rw [hp, h]
  · rfl

/-- A raw that the type holds is never replaced. -/
theorem rawOrElse_of_range (u : Family) (n : Nat) (v other : Int) (h1 : tmin u n ≤ v) (h2 : v ≤ tmax u n) :
    rawOrElse u n v other = v := if_pos ⟨h1, h2⟩

@[simp] theorem rawOrElse_self (u : Family) (n : Nat) (v : Int) : rawOrElse u n v v = v := ite_self v

/-- The integer part of a whole number is the number, whatever is open (R302). -/
@[simp] theorem exp2Whole_whole (P : Config.Params) (u : Family) (n f : Nat) (k : Int) :
    exp2Whole P u n f (k * 2 ^ f) = k := by
  have h : lowBits (k * 2 ^ f) f = 0 := Int.mul_emod_left _ _
  rw [exp2Whole, h, if_neg (by simp)]
  exact Int.mul_ediv_cancel k (by positivity)

@[simp] theorem shiftBy_zero (up : Bool) (m : Int) : shiftBy up m 0 = m := by simp [shiftBy, shl]

/-- Shifting a power of two by `e` is exact where the result is whole. -/
theorem shiftBy_pow (up : Bool) (b : Nat) (e : Int) (h : 0 ≤ b + e) : shiftBy up (2 ^ b) e = 2 ^ (b + e).toNat := by
  unfold shiftBy
  by_cases he : 0 ≤ e
  · rw [if_pos he, shl, ← pow_add]; congr 1; omega
  · have hd : (2 : Int) ^ b = 2 ^ (b + e).toNat * 2 ^ (-e).toNat := by rw [← pow_add]; congr 1; omega
    have hl : lowBits (2 ^ b) (-e).toNat = 0 := by rw [lowBits, hd]; exact Int.mul_emod_left _ _
    rw [if_neg he, hl, if_neg (by simp), shr, hd]
    exact Int.mul_ediv_cancel _ (by positivity)

/-- The shifted number of a whole exponent that the working precision holds (R302). -/
theorem exp2Shifted_whole (P : Config.Params) (u : Family) (n f : Nat) (k : Int) (h : 0 ≤ P.exp2Bits u n f (k * 2 ^ f) + k) :
    exp2Shifted P u n f (k * 2 ^ f) = 2 ^ (P.exp2Bits u n f (k * 2 ^ f) + k).toNat := by
  rw [exp2Shifted, exp2Mantissa, exp2Whole_whole, sub_self, zero_mul, scaled_zero, add_zero, shiftBy_pow _ _ _ h]

/-- The powers of whole exponents are exact, whatever is open, where the working precision, a word and the type hold
them (R302). -/
theorem exp2Core_whole (P : Config.Params) (u : Family) (n f : Nat) (k : Int) (hbits : 0 ≤ P.exp2Bits u n f (k * 2 ^ f) + k)
    (hword : k ≤ 0 ∨ 2 ^ (P.exp2Bits u n f (k * 2 ^ f) + k).toNat ≤ tmax u 32) (hf : 0 ≤ k + f)
    (hlo : tmin u n ≤ 2 ^ (k + f).toNat) (hhi : 2 ^ (k + f).toNat ≤ tmax u n) :
    exp2Core P u n f (k * 2 ^ f) = 2 ^ (k + f).toNat := by
  have hs := exp2Shifted_whole P u n f k hbits
  have hr : shiftBy (P.exp2RescaleUp u n f (k * 2 ^ f)) (2 ^ (P.exp2Bits u n f (k * 2 ^ f) + k).toNat)
      (f - P.exp2Bits u n f (k * 2 ^ f)) = 2 ^ (k + f).toNat := by
    rw [shiftBy_pow _ _ _ (by omega)]; congr 2; omega
  rw [exp2Core, hs, hr, if_pos, rawOrElse_of_range _ _ _ _ hlo hhi]
  refine hword.imp (fun hk => ?_) id
  exact pow_lt_pow_right₀ (by norm_num) (by omega)

/-- The structure of R302 takes in the reference definition of R303. -/
theorem exp2Core_withDefaults (P : Config.Params) (u : Family) (n f : Nat) (v : Int) :
    exp2Core (withDefaults P) u n f v = exp2CoreRef ln2QRef f v := by
  have hfrac : v - shr v f * 2 ^ f = lowBits v f := by
    have := Int.mul_ediv_add_emod v (2 ^ f); rw [shr, lowBits, mul_comm]; omega
  have hs : exp2Shifted (withDefaults P) u n f v = exp2CoreRef ln2QRef f v := by
    show shiftBy false (2 ^ f + scaled (fun p => shr p f) ((v - shr v f * 2 ^ f) * ln2QRef f)) (shr v f) = _
    rw [scaled_eq (fun p => shr p f) (Int.zero_ediv _), hfrac, exp2CoreRef]
  have ho : (withDefaults P).exp2Overflow u n f v = exp2CoreRef ln2QRef f v := rfl
  have hb : ((f : Int) - (withDefaults P).exp2Bits u n f v) = 0 := sub_self _
  rw [exp2Core, hs, ho, hb, shiftBy_zero, rawOrElse_self, ite_self]

/-- The structure of R304 takes in the reference definition of R305. -/
theorem expArg_withDefaults (P : Config.Params) (u : Family) (n f : Nat) (v : Int) :
    expArg (withDefaults P) u n f v = expArgRef log2eQRef u n f v := by
  refine scaled_eq _ ?_ _
  show wrap u n (shr 0 f) = 0
  rw [shr, Int.zero_ediv, wrap_eq_regValue]
  cases u <;> simp [regValue]

/-- `highestSet` finds the `k` with `2^k ≤ p < 2^(k+1)`. -/
theorem highestSet_of_bounds (p k : Nat) (h1 : 2 ^ k ≤ p) (h2 : p < 2 ^ (k + 1)) :
    ∀ m, k < m → highestSet p m = some k
  | m + 1, hm => by
    have hbit : ∀ i, p.testBit i = decide (p / 2 ^ i % 2 = 1) := fun i => Nat.testBit_eq_decide_div_mod_eq
    rw [highestSet]
    by_cases hk : m = k
    · subst hk
      have : p / 2 ^ m = 1 := Nat.div_eq_of_lt_le (by omega) (by rw [pow_succ] at h2; omega)
      rw [if_pos (by rw [hbit, this]; decide)]
    · have hlt : p < 2 ^ m := lt_of_lt_of_le h2 (Nat.pow_le_pow_right (by decide) (by omega))
      rw [if_neg (by rw [hbit, Nat.div_eq_of_lt hlt]; decide)]
      exact highestSet_of_bounds p k h1 h2 m (by omega)

/-- LOG2 of a raw whose highest set bit is `k`: the position of the bit plus the linear correction (R306). -/
theorem log2Core_of_bounds (P : Config.Params) (u : Family) (n f k : Nat) (v : Int) (h1 : 2 ^ k ≤ v)
    (h2 : v < 2 ^ (k + 1)) (hk : k < 32) :
    log2Core P u n f v =
      rawOrElse u n (((k : Int) - f) * 2 ^ f + log2Correction P u n f k v) (P.log2Overflow u n f v) := by
  have hv : ((v.toNat : Nat) : Int) = v := Int.toNat_of_nonneg (le_trans (by positivity) h1)
  have : highestSet v.toNat 32 = some k :=
    highestSet_of_bounds _ _ (by zify; rw [hv]; exact_mod_cast h1) (by zify; rw [hv]; exact_mod_cast h2) _ hk
  rw [log2Core, this]

/-- The structure of R306 takes in the reference definition of R307. -/
theorem log2Core_withDefaults (P : Config.Params) (u : Family) (n f k : Nat) (v : Int) (h1 : 2 ^ k ≤ v)
    (h2 : v < 2 ^ (k + 1)) (hk : k < 32) : log2Core (withDefaults P) u n f v = log2CoreRef f v k := by
  have hv : ((v.toNat : Nat) : Int) = v := Int.toNat_of_nonneg (le_trans (by positivity) h1)
  have hh : highestSet v.toNat 32 = some k :=
    highestSet_of_bounds _ _ (by zify; rw [hv]; exact_mod_cast h1) (by zify; rw [hv]; exact_mod_cast h2) _ hk
  have ho : (withDefaults P).log2Overflow u n f v = log2CoreRef f v k := by
    show (match highestSet v.toNat 32 with | some k => log2CoreRef f v k | none => P.log2Outside u n f v) = _
    rw [hh]
  have hs : ((k : Int) - f) * 2 ^ f + log2Correction (withDefaults P) u n f k v = log2CoreRef f v k := by
    show _ + scaled (fun p => shr p k) (2 ^ f * (v - 2 ^ k) + 0 * 2 ^ k) = _
    rw [scaled_eq (fun p => shr p k) (Int.zero_ediv _), zero_mul, add_zero, log2CoreRef, shl, shl, mul_comm (2 ^ f) (v - 2 ^ k)]
  rw [log2Core_of_bounds _ _ _ _ _ _ h1 h2 hk, ho, hs, rawOrElse_self]

end Sys2Proof.Machine
end

