-- ==== Sys2Proof/Laws/PerInstr.lean ====
section
/-! SUPPORT. The fields of a packed command word, and for each instruction that its encoding carries its own opcode and
reserved bits 0 (30_encoding.md R61, R66). -/

namespace Sys2Proof

theorem fieldOP_packWord (op : BitVec 8) (n f x : BitVec 6) (u : Family) : fieldOP (packWord op n f x u) = op := by
  apply BitVec.eq_of_getLsbD_eq
  intro i hi
  cases u <;> interval_cases i <;> simp [packWord, Family.bit, fieldOP]

theorem fieldN_packWord (op : BitVec 8) (n f x : BitVec 6) (u : Family) : fieldN (packWord op n f x u) = n := by
  apply BitVec.eq_of_getLsbD_eq
  intro i hi
  cases u <;> interval_cases i <;> simp [packWord, Family.bit, fieldN]

theorem fieldF_packWord (op : BitVec 8) (n f x : BitVec 6) (u : Family) : fieldF (packWord op n f x u) = f := by
  apply BitVec.eq_of_getLsbD_eq
  intro i hi
  cases u <;> interval_cases i <;> simp [packWord, Family.bit, fieldF]

theorem fieldX_packWord (op : BitVec 8) (n f x : BitVec 6) (u : Family) : fieldX (packWord op n f x u) = x := by
  apply BitVec.eq_of_getLsbD_eq
  intro i hi
  cases u <;> interval_cases i <;> simp [packWord, Family.bit, fieldX]

theorem fieldU_packWord (op : BitVec 8) (n f x : BitVec 6) (u : Family) : fieldU (packWord op n f x u) = u := by
  cases u <;> simp [packWord, Family.bit, fieldU]

theorem fieldZ_packWord (op : BitVec 8) (n f x : BitVec 6) (u : Family) : fieldZ (packWord op n f x u) = 0#5 := by
  apply BitVec.eq_of_getLsbD_eq
  intro i hi
  cases u <;> interval_cases i <;> simp [packWord, Family.bit, fieldZ]

/-- The opcode of an instruction (30_encoding.md R66). -/
def Instr.opcode : Instr → BitVec 8
  | .iwrap _ => 0x00#8
  | .iconst _ _ => 0x01#8
  | .iadd _ => 0x02#8
  | .isub _ => 0x03#8
  | .imul _ => 0x04#8
  | .idiv _ => 0x05#8
  | .imod _ => 0x06#8
  | .iaddsat _ => 0x07#8
  | .isubsat _ => 0x08#8
  | .imulsat _ => 0x09#8
  | .iclamp _ => 0x0A#8
  | .iclamp01 _ => 0x0B#8
  | .iclampofs _ => 0x0C#8
  | .imulpow2 _ => 0x10#8
  | .idivpow2 _ => 0x11#8
  | .ishl _ => 0x12#8
  | .ishr _ => 0x13#8
  | .imodpow2 _ => 0x14#8
  | .irol _ => 0x15#8
  | .iror _ => 0x16#8
  | .ipopcnt _ => 0x20#8
  | .iparity _ => 0x21#8
  | .iclz _ => 0x22#8
  | .ictz _ => 0x23#8
  | .ibsr _ => 0x24#8
  | .ibsf _ => 0x25#8
  | .itobytes _ => 0x30#8
  | .ifrombytes _ => 0x31#8
  | .igetbyte _ => 0x32#8
  | .isetbyte _ => 0x33#8
  | .fwrap _ => 0x40#8
  | .fconst _ _ => 0x41#8
  | .fadd _ => 0x42#8
  | .fsub _ => 0x43#8
  | .fmul _ => 0x44#8
  | .fdiv _ => 0x45#8
  | .fmod _ => 0x46#8
  | .faddsat _ => 0x47#8
  | .fsubsat _ => 0x48#8
  | .fmulsat _ => 0x49#8
  | .fclamp _ => 0x4A#8
  | .fclamp01 _ => 0x4B#8
  | .fclampofs _ => 0x4C#8
  | .fcvt _ _ => 0x50#8
  | .ffloor _ => 0x51#8
  | .fceil _ => 0x52#8
  | .fround _ => 0x53#8
  | .ftobytes _ => 0x60#8
  | .ffrombytes _ => 0x61#8
  | .fgetbyte _ => 0x62#8
  | .fsetbyte _ => 0x63#8
  | .sin _ => 0x70#8
  | .cos _ => 0x71#8
  | .tan _ => 0x72#8
  | .asin _ => 0x73#8
  | .acos _ => 0x74#8
  | .atan _ => 0x75#8
  | .atan2 _ => 0x76#8
  | .sqrt _ => 0x77#8
  | .exp2 _ => 0x78#8
  | .exp _ => 0x79#8
  | .log2 _ => 0x7A#8

namespace Laws.EncodedFields

/-- The word of an instruction carries its opcode, and its reserved bits are 0. -/
def Statement (i : Instr) : Prop := fieldOP (encode i) = i.opcode ∧ fieldZ (encode i) = 0#5

theorem packed (op : BitVec 8) (n f x : BitVec 6) (u : Family) :
    fieldOP (packWord op n f x u) = op ∧ fieldZ (packWord op n f x u) = 0#5 :=
  ⟨fieldOP_packWord op n f x u, fieldZ_packWord op n f x u⟩

theorem iwrap (t : IntType) : Statement (.iwrap t) := packed _ _ _ _ _
theorem iconst (t : IntType) (sel : IntSel) : Statement (.iconst t sel) := packed _ _ _ _ _
theorem iadd (t : IntType) : Statement (.iadd t) := packed _ _ _ _ _
theorem isub (t : IntType) : Statement (.isub t) := packed _ _ _ _ _
theorem imul (t : IntType) : Statement (.imul t) := packed _ _ _ _ _
theorem idiv (t : IntType) : Statement (.idiv t) := packed _ _ _ _ _
theorem imod (t : IntType) : Statement (.imod t) := packed _ _ _ _ _
theorem iaddsat (t : IntType) : Statement (.iaddsat t) := packed _ _ _ _ _
theorem isubsat (t : IntType) : Statement (.isubsat t) := packed _ _ _ _ _
theorem imulsat (t : IntType) : Statement (.imulsat t) := packed _ _ _ _ _
theorem iclamp (t : IntType) : Statement (.iclamp t) := packed _ _ _ _ _
theorem iclamp01 (t : IntType) : Statement (.iclamp01 t) := packed _ _ _ _ _
theorem iclampofs (t : IntType) : Statement (.iclampofs t) := packed _ _ _ _ _
theorem imulpow2 (t : IntType) : Statement (.imulpow2 t) := packed _ _ _ _ _
theorem idivpow2 (t : IntType) : Statement (.idivpow2 t) := packed _ _ _ _ _
theorem ishl (t : IntType) : Statement (.ishl t) := packed _ _ _ _ _
theorem ishr (t : IntType) : Statement (.ishr t) := packed _ _ _ _ _
theorem imodpow2 (t : IntType) : Statement (.imodpow2 t) := packed _ _ _ _ _
theorem irol (t : IntType) : Statement (.irol t) := packed _ _ _ _ _
theorem iror (t : IntType) : Statement (.iror t) := packed _ _ _ _ _
theorem ipopcnt (t : IntType) : Statement (.ipopcnt t) := packed _ _ _ _ _
theorem iparity (t : IntType) : Statement (.iparity t) := packed _ _ _ _ _
theorem iclz (t : IntType) : Statement (.iclz t) := packed _ _ _ _ _
theorem ictz (t : IntType) : Statement (.ictz t) := packed _ _ _ _ _
theorem ibsr (t : IntType) : Statement (.ibsr t) := packed _ _ _ _ _
theorem ibsf (t : IntType) : Statement (.ibsf t) := packed _ _ _ _ _
theorem itobytes (t : IntType) : Statement (.itobytes t) := packed _ _ _ _ _
theorem ifrombytes (t : IntType) : Statement (.ifrombytes t) := packed _ _ _ _ _
theorem igetbyte (t : IntType) : Statement (.igetbyte t) := packed _ _ _ _ _
theorem isetbyte (t : IntType) : Statement (.isetbyte t) := packed _ _ _ _ _
theorem fwrap (t : FixType) : Statement (.fwrap t) := packed _ _ _ _ _
theorem fconst (t : FixType) (sel : FixSel) : Statement (.fconst t sel) := packed _ _ _ _ _
theorem fadd (t : FixType) : Statement (.fadd t) := packed _ _ _ _ _
theorem fsub (t : FixType) : Statement (.fsub t) := packed _ _ _ _ _
theorem fmul (t : FixType) : Statement (.fmul t) := packed _ _ _ _ _
theorem fdiv (t : FixType) : Statement (.fdiv t) := packed _ _ _ _ _
theorem fmod (t : FixType) : Statement (.fmod t) := packed _ _ _ _ _
theorem faddsat (t : FixType) : Statement (.faddsat t) := packed _ _ _ _ _
theorem fsubsat (t : FixType) : Statement (.fsubsat t) := packed _ _ _ _ _
theorem fmulsat (t : FixType) : Statement (.fmulsat t) := packed _ _ _ _ _
theorem fclamp (t : FixType) : Statement (.fclamp t) := packed _ _ _ _ _
theorem fclamp01 (t : FixType) : Statement (.fclamp01 t) := packed _ _ _ _ _
theorem fclampofs (t : FixType) : Statement (.fclampofs t) := packed _ _ _ _ _
theorem fcvt (t : FixType) (f2 : BitVec 6) : Statement (.fcvt t f2) := packed _ _ _ _ _
theorem ffloor (t : FixType) : Statement (.ffloor t) := packed _ _ _ _ _
theorem fceil (t : FixType) : Statement (.fceil t) := packed _ _ _ _ _
theorem fround (t : FixType) : Statement (.fround t) := packed _ _ _ _ _
theorem ftobytes (t : FixType) : Statement (.ftobytes t) := packed _ _ _ _ _
theorem ffrombytes (t : FixType) : Statement (.ffrombytes t) := packed _ _ _ _ _
theorem fgetbyte (t : FixType) : Statement (.fgetbyte t) := packed _ _ _ _ _
theorem fsetbyte (t : FixType) : Statement (.fsetbyte t) := packed _ _ _ _ _
theorem sin (t : FixType) : Statement (.sin t) := packed _ _ _ _ _
theorem cos (t : FixType) : Statement (.cos t) := packed _ _ _ _ _
theorem tan (t : FixType) : Statement (.tan t) := packed _ _ _ _ _
theorem asin (t : FixType) : Statement (.asin t) := packed _ _ _ _ _
theorem acos (t : FixType) : Statement (.acos t) := packed _ _ _ _ _
theorem atan (t : FixType) : Statement (.atan t) := packed _ _ _ _ _
theorem atan2 (t : FixType) : Statement (.atan2 t) := packed _ _ _ _ _
theorem sqrt (t : FixType) : Statement (.sqrt t) := packed _ _ _ _ _
theorem exp2 (t : FixType) : Statement (.exp2 t) := packed _ _ _ _ _
theorem exp (t : FixType) : Statement (.exp t) := packed _ _ _ _ _
theorem log2 (t : FixType) : Statement (.log2 t) := packed _ _ _ _ _

end Laws.EncodedFields

end Sys2Proof
end

