-- ==== Sys2Proof/Tests/Slice0.lean ====
section
/-! SUPPORT. The author's tests. Every expected result is a word of spec/95_test_vectors.md (section 2, or section 3 for
programs) or is written out from the rule named; every decoded word is written out bit by bit, Z, U, X, F, N, OP, from
30_encoding.md R61 and R66. The witnesses show that the hypotheses of the statements can be met together. -/

namespace Sys2Proof.Tests

open Sys2Proof.Machine

/-- A state that presents a command word and five operand words. -/
def ports (cw a b c d e : Nat) : State :=
  { cw := BitVec.ofNat 32 cw, a := BitVec.ofNat 32 a, b := BitVec.ofNat 32 b, c := BitVec.ofNat 32 c,
    d := BitVec.ofNat 32 d, e := BitVec.ofNat 32 e, response := none }

/-- The response one step gives. -/
def answerOf (s : State) : Option Response :=
  match step s with
  | .next t => t.response
  | .fault _ => none
  | .refused _ => none

/-! ### Well-formedness: each check refuses an ill-formed term -/

theorem test_ill_formed_integer_width : (Instr.iadd ⟨.signed, 33#6⟩).wellFormed = false := by decide
theorem test_ill_formed_fixed_width : (Instr.fadd ⟨.signed, 33#6, 8#6⟩).wellFormed = false := by decide
theorem test_ill_formed_fraction : (Instr.fadd ⟨.signed, 16#6, 33#6⟩).wellFormed = false := by decide
theorem test_ill_formed_target_fraction : (Instr.fcvt ⟨.signed, 16#6, 8#6⟩ 33#6).wellFormed = false := by decide
theorem test_ill_formed_angle_low : (Instr.sin ⟨.signed, 1#6, 0#6⟩).wellFormed = false := by decide
theorem test_ill_formed_angle_high : (Instr.atan2 ⟨.unsigned, 32#6, 0#6⟩).wellFormed = false := by decide
theorem test_well_formed_boundaries : (Instr.fcvt ⟨.signed, 32#6, 32#6⟩ 32#6).wellFormed = true ∧
    (Instr.sin ⟨.signed, 2#6, 0#6⟩).wellFormed = true ∧ (Instr.sin ⟨.signed, 31#6, 0#6⟩).wellFormed = true := by decide

/-! ### The host's two functions -/

theorem test_decodeTableWord : decodeTableWord 32 0x00000802 = some (.iadd ⟨.signed, 8#6⟩) := by decide
theorem test_decodeTableWord_reserved : decodeTableWord 32 0x0000080D = none := by decide
theorem test_withFetchWord : answerOf (State.reset.withFetchWord 32 0x04302001) = some (.word 0xFFFFFFFF#32) := by decide
theorem test_step_at_reset : answerOf State.reset = some (.word 0#32) := by decide

/-! ### Decoding (30_encoding.md R61, R66) -/

theorem test_decode_construct_and_integer_arithmetic :
    decode 0b00000_1_000000_000000_000101_00000000#32 = .ok (.iwrap ⟨.unsigned, 5#6⟩) ∧
    decode 0b00000_0_000011_000000_001010_00000001#32 = .ok (.iconst ⟨.signed, 10#6⟩ .max) ∧
    decode 0b00000_1_000000_000000_001111_00000010#32 = .ok (.iadd ⟨.unsigned, 15#6⟩) ∧
    decode 0b00000_0_000000_000000_010100_00000011#32 = .ok (.isub ⟨.signed, 20#6⟩) ∧
    decode 0b00000_1_000000_000000_011001_00000100#32 = .ok (.imul ⟨.unsigned, 25#6⟩) ∧
    decode 0b00000_0_000000_000000_011110_00000101#32 = .ok (.idiv ⟨.signed, 30#6⟩) ∧
    decode 0b00000_1_000000_000000_000010_00000110#32 = .ok (.imod ⟨.unsigned, 2#6⟩) ∧
    decode 0b00000_0_000000_000000_000111_00000111#32 = .ok (.iaddsat ⟨.signed, 7#6⟩) ∧
    decode 0b00000_1_000000_000000_001100_00001000#32 = .ok (.isubsat ⟨.unsigned, 12#6⟩) ∧
    decode 0b00000_0_000000_000000_010001_00001001#32 = .ok (.imulsat ⟨.signed, 17#6⟩) ∧
    decode 0b00000_1_000000_000000_010110_00001010#32 = .ok (.iclamp ⟨.unsigned, 22#6⟩) ∧
    decode 0b00000_0_000000_000000_011011_00001011#32 = .ok (.iclamp01 ⟨.signed, 27#6⟩) ∧
    decode 0b00000_1_000000_000000_100000_00001100#32 = .ok (.iclampofs ⟨.unsigned, 32#6⟩) := by
  refine ⟨rfl, rfl, rfl, rfl, rfl, rfl, rfl, rfl, rfl, rfl, rfl, rfl, rfl⟩

theorem test_decode_shifts_and_rotates :
    decode 0b00000_0_000000_000000_000100_00010000#32 = .ok (.imulpow2 ⟨.signed, 4#6⟩) ∧
    decode 0b00000_1_000000_000000_001001_00010001#32 = .ok (.idivpow2 ⟨.unsigned, 9#6⟩) ∧
    decode 0b00000_0_000000_000000_001110_00010010#32 = .ok (.ishl ⟨.signed, 14#6⟩) ∧
    decode 0b00000_1_000000_000000_010011_00010011#32 = .ok (.ishr ⟨.unsigned, 19#6⟩) ∧
    decode 0b00000_0_000000_000000_011000_00010100#32 = .ok (.imodpow2 ⟨.signed, 24#6⟩) ∧
    decode 0b00000_1_000000_000000_011101_00010101#32 = .ok (.irol ⟨.unsigned, 29#6⟩) ∧
    decode 0b00000_0_000000_000000_000001_00010110#32 = .ok (.iror ⟨.signed, 1#6⟩) := by
  refine ⟨rfl, rfl, rfl, rfl, rfl, rfl, rfl⟩

theorem test_decode_bit_scans :
    decode 0b00000_1_000000_000000_000110_00100000#32 = .ok (.ipopcnt ⟨.unsigned, 6#6⟩) ∧
    decode 0b00000_0_000000_000000_001011_00100001#32 = .ok (.iparity ⟨.signed, 11#6⟩) ∧
    decode 0b00000_1_000000_000000_010000_00100010#32 = .ok (.iclz ⟨.unsigned, 16#6⟩) ∧
    decode 0b00000_0_000000_000000_010101_00100011#32 = .ok (.ictz ⟨.signed, 21#6⟩) ∧
    decode 0b00000_1_000000_000000_011010_00100100#32 = .ok (.ibsr ⟨.unsigned, 26#6⟩) ∧
    decode 0b00000_0_000000_000000_011111_00100101#32 = .ok (.ibsf ⟨.signed, 31#6⟩) := by
  refine ⟨rfl, rfl, rfl, rfl, rfl, rfl⟩

theorem test_decode_integer_bytes :
    decode 0b00000_1_000000_000000_000011_00110000#32 = .ok (.itobytes ⟨.unsigned, 3#6⟩) ∧
    decode 0b00000_0_000000_000000_001000_00110001#32 = .ok (.ifrombytes ⟨.signed, 8#6⟩) ∧
    decode 0b00000_1_000000_000000_001101_00110010#32 = .ok (.igetbyte ⟨.unsigned, 13#6⟩) ∧
    decode 0b00000_0_000000_000000_010010_00110011#32 = .ok (.isetbyte ⟨.signed, 18#6⟩) := by
  refine ⟨rfl, rfl, rfl, rfl⟩

theorem test_decode_fixed_arithmetic :
    decode 0b00000_1_000000_010011_010111_01000000#32 = .ok (.fwrap ⟨.unsigned, 23#6, 19#6⟩) ∧
    decode 0b00000_0_000001_011010_011100_01000001#32 = .ok (.fconst ⟨.signed, 28#6, 26#6⟩ .one) ∧
    decode 0b00000_1_000000_000000_000000_01000010#32 = .ok (.fadd ⟨.unsigned, 0#6, 0#6⟩) ∧
    decode 0b00000_0_000000_000111_000101_01000011#32 = .ok (.fsub ⟨.signed, 5#6, 7#6⟩) ∧
    decode 0b00000_1_000000_001110_001010_01000100#32 = .ok (.fmul ⟨.unsigned, 10#6, 14#6⟩) ∧
    decode 0b00000_0_000000_010101_001111_01000101#32 = .ok (.fdiv ⟨.signed, 15#6, 21#6⟩) ∧
    decode 0b00000_1_000000_011100_010100_01000110#32 = .ok (.fmod ⟨.unsigned, 20#6, 28#6⟩) ∧
    decode 0b00000_0_000000_000010_011001_01000111#32 = .ok (.faddsat ⟨.signed, 25#6, 2#6⟩) ∧
    decode 0b00000_1_000000_001001_011110_01001000#32 = .ok (.fsubsat ⟨.unsigned, 30#6, 9#6⟩) ∧
    decode 0b00000_0_000000_010000_000010_01001001#32 = .ok (.fmulsat ⟨.signed, 2#6, 16#6⟩) ∧
    decode 0b00000_1_000000_010111_000111_01001010#32 = .ok (.fclamp ⟨.unsigned, 7#6, 23#6⟩) ∧
    decode 0b00000_0_000000_011110_001100_01001011#32 = .ok (.fclamp01 ⟨.signed, 12#6, 30#6⟩) ∧
    decode 0b00000_1_000000_000100_010001_01001100#32 = .ok (.fclampofs ⟨.unsigned, 17#6, 4#6⟩) := by
  refine ⟨rfl, rfl, rfl, rfl, rfl, rfl, rfl, rfl, rfl, rfl, rfl, rfl, rfl⟩

theorem test_decode_conversion_and_rounding :
    decode 0b00000_0_010101_001011_010110_01010000#32 = .ok (.fcvt ⟨.signed, 22#6, 11#6⟩ 21#6) ∧
    decode 0b00000_1_000000_010010_011011_01010001#32 = .ok (.ffloor ⟨.unsigned, 27#6, 18#6⟩) ∧
    decode 0b00000_0_000000_011001_100000_01010010#32 = .ok (.fceil ⟨.signed, 32#6, 25#6⟩) ∧
    decode 0b00000_1_000000_100000_000100_01010011#32 = .ok (.fround ⟨.unsigned, 4#6, 32#6⟩) := by
  refine ⟨rfl, rfl, rfl, rfl⟩

theorem test_decode_fixed_bytes :
    decode 0b00000_0_000000_000110_001001_01100000#32 = .ok (.ftobytes ⟨.signed, 9#6, 6#6⟩) ∧
    decode 0b00000_1_000000_001101_001110_01100001#32 = .ok (.ffrombytes ⟨.unsigned, 14#6, 13#6⟩) ∧
    decode 0b00000_0_000000_010100_010011_01100010#32 = .ok (.fgetbyte ⟨.signed, 19#6, 20#6⟩) ∧
    decode 0b00000_1_000000_011011_011000_01100011#32 = .ok (.fsetbyte ⟨.unsigned, 24#6, 27#6⟩) := by
  refine ⟨rfl, rfl, rfl, rfl⟩

theorem test_decode_math_engine :
    decode 0b00000_0_000000_000001_011101_01110000#32 = .ok (.sin ⟨.signed, 29#6, 1#6⟩) ∧
    decode 0b00000_1_000000_001000_000001_01110001#32 = .ok (.cos ⟨.unsigned, 1#6, 8#6⟩) ∧
    decode 0b00000_0_000000_001111_000110_01110010#32 = .ok (.tan ⟨.signed, 6#6, 15#6⟩) ∧
    decode 0b00000_1_000000_010110_001011_01110011#32 = .ok (.asin ⟨.unsigned, 11#6, 22#6⟩) ∧
    decode 0b00000_0_000000_011101_010000_01110100#32 = .ok (.acos ⟨.signed, 16#6, 29#6⟩) ∧
    decode 0b00000_1_000000_000011_010101_01110101#32 = .ok (.atan ⟨.unsigned, 21#6, 3#6⟩) ∧
    decode 0b00000_0_000000_001010_011010_01110110#32 = .ok (.atan2 ⟨.signed, 26#6, 10#6⟩) ∧
    decode 0b00000_1_000000_010001_011111_01110111#32 = .ok (.sqrt ⟨.unsigned, 31#6, 17#6⟩) ∧
    decode 0b00000_0_000000_011000_000011_01111000#32 = .ok (.exp2 ⟨.signed, 3#6, 24#6⟩) ∧
    decode 0b00000_1_000000_011111_001000_01111001#32 = .ok (.exp ⟨.unsigned, 8#6, 31#6⟩) ∧
    decode 0b00000_0_000000_000101_001101_01111010#32 = .ok (.log2 ⟨.signed, 13#6, 5#6⟩) := by
  refine ⟨rfl, rfl, rfl, rfl, rfl, rfl, rfl, rfl, rfl, rfl, rfl⟩


/-! ### One step of each instruction (section 2) -/

theorem test_iwrap : answerOf (ports 0x00000800 0x000000C8 0 0 0 0) = some (.word 0xFFFFFFC8#32) := by decide
theorem test_iconst : answerOf (ports 0x00200801 0 0 0 0 0) = some (.word 0xFFFFFF80#32) := by decide
theorem test_iconst_error : answerOf (ports 0x00100801 0 0 0 0 0) = some (.error .illegalCommand) := by decide
theorem test_iadd : answerOf (ports 0x00000802 0x00000164 0 0 0 0) = some (.word 0x00000064#32) := by decide
theorem test_isub : answerOf (ports 0x04000803 0 1 0 0 0) = some (.word 0x000000FF#32) := by decide
theorem test_imul : answerOf (ports 0x00000804 0xFFFFFF80 0xFFFFFFFF 0 0 0) = some (.word 0xFFFFFF80#32) := by decide
theorem test_idiv : answerOf (ports 0x00000805 0xFFFFFF80 0xFFFFFFFF 0 0 0) = some (.word 0xFFFFFF80#32) := by decide
theorem test_idiv_error : answerOf (ports 0x00000005 0 0 0 0 0) = some (.error .divisionByZero) := by decide
theorem test_imod : answerOf (ports 0x00000806 0xFFFFFFF9 2 0 0 0) = some (.word 0xFFFFFFFF#32) := by decide
theorem test_imod_error : answerOf (ports 0x04000806 1 0 0 0 0) = some (.error .divisionByZero) := by decide
theorem test_iaddsat : answerOf (ports 0x00000807 0xFFFFFF9C 0xFFFFFF9C 0 0 0) = some (.word 0xFFFFFF80#32) := by decide
theorem test_isubsat : answerOf (ports 0x04000808 3 5 0 0 0) = some (.word 0x00000000#32) := by decide
theorem test_imulsat : answerOf (ports 0x00000809 0xFFFFFF80 0xFFFFFFFF 0 0 0) = some (.word 0x0000007F#32) := by decide
theorem test_iclamp : answerOf (ports 0x0000080A 5 0x0000000A 0 0 0) = some (.word 0x0000000A#32) := by decide
theorem test_iclamp01 : answerOf (ports 0x0000080B 0x0000004D 0 0 0 0) = some (.word 0x00000001#32) := by decide
theorem test_iclampofs : answerOf (ports 0x0000080C 0 0x0000000A 0x00000014 0x0000001E 0) = some (.word 0x00000014#32) := by decide
theorem test_imulpow2 : answerOf (ports 0x00000810 3 6 0 0 0) = some (.word 0xFFFFFFC0#32) := by decide
theorem test_idivpow2 : answerOf (ports 0x00000811 0xFFFFFFF9 1 0 0 0) = some (.word 0xFFFFFFFC#32) := by decide
theorem test_ishl : answerOf (ports 0x04000812 0x00000081 1 0 0 0) = some (.word 0x00000002#32) := by decide
theorem test_ishl_error : answerOf (ports 0x00002012 1 0x00000020 0 0 0) = some (.error .rangeError) := by decide
theorem test_ishr : answerOf (ports 0x00000813 0xFFFFFF80 7 0 0 0) = some (.word 0xFFFFFFFF#32) := by decide
theorem test_ishr_error : answerOf (ports 0x00000813 0xFFFFFF80 8 0 0 0) = some (.error .rangeError) := by decide
theorem test_imodpow2 : answerOf (ports 0x00000814 0xFFFFFFF9 3 0 0 0) = some (.word 0x00000001#32) := by decide
theorem test_imodpow2_error : answerOf (ports 0x00000814 0xFFFFFFF9 0xFFFFFFFF 0 0 0) = some (.error .rangeError) := by decide
theorem test_irol : answerOf (ports 0x00000815 1 0xFFFFFFFF 0 0 0) = some (.word 0xFFFFFF80#32) := by decide
theorem test_irol_error : answerOf (ports 0x00000015 0 1 0 0 0) = some (.error .rangeError) := by decide
theorem test_iror : answerOf (ports 0x04000C16 0x00000801 4 0 0 0) = some (.word 0x00000180#32) := by decide
theorem test_ipopcnt : answerOf (ports 0x04000820 0x000001F0 0 0 0 0) = some (.word 0x00000004#32) := by decide
theorem test_iparity : answerOf (ports 0x00000721 0xFFFFFFFF 0 0 0 0) = some (.word 0x00000001#32) := by decide
theorem test_iclz : answerOf (ports 0x04000C22 0x00000010 0 0 0 0) = some (.word 0x00000007#32) := by decide
theorem test_ictz : answerOf (ports 0x00000823 0xFFFFFF80 0 0 0 0) = some (.word 0x00000007#32) := by decide
theorem test_ibsr : answerOf (ports 0x00000824 0 0 0 0 0) = some (.word 0xFFFFFFFF#32) := by decide
theorem test_ibsf : answerOf (ports 0x04000C25 0x00000010 0 0 0 0) = some (.word 0x00000004#32) := by decide
theorem test_itobytes : answerOf (ports 0x00000C30 0xFFFFFFFF 0 0 0 0) = some (.bytes 0x0000FFFF#32 2#32) := by decide
theorem test_ifrombytes : answerOf (ports 0x00000831 0x0000FFC8 3 0 0 0) = some (.word 0xFFFFFFC8#32) := by decide
theorem test_ifrombytes_error : answerOf (ports 0x00000831 0x000000C8 0 0 0 0) = some (.error .formatError) := by decide
theorem test_igetbyte : answerOf (ports 0x04001032 0x00001234 1 0 0 0) = some (.word 0x00000012#32) := by decide
theorem test_igetbyte_error : answerOf (ports 0x00000032 0 0 0 0 0) = some (.error .rangeError) := by decide
theorem test_isetbyte : answerOf (ports 0x00000C33 0x00000123 1 0x000000FF 0 0) = some (.word 0xFFFFFF23#32) := by decide
theorem test_isetbyte_error : answerOf (ports 0x00000833 0 1 0 0 0) = some (.error .rangeError) := by decide
theorem test_fwrap : answerOf (ports 0x00020840 0x00000180 0 0 0 0) = some (.word 0xFFFFFF80#32) := by decide
theorem test_fconst : answerOf (ports 0x0013D041 0 0 0 0 0) = some (.word 0xFFFF8000#32) := by decide
theorem test_fadd : answerOf (ports 0x00021042 0x00007FFF 1 0 0 0) = some (.word 0xFFFF8000#32) := by decide
theorem test_fsub : answerOf (ports 0x00021043 0x00000180 0x00000200 0 0 0) = some (.word 0xFFFFFF80#32) := by decide
theorem test_fmul : answerOf (ports 0x00021044 0xFFFFFFFF 1 0 0 0) = some (.word 0xFFFFFFFF#32) := by decide
theorem test_fdiv : answerOf (ports 0x00021045 0xFFFFFF00 0x00000300 0 0 0) = some (.word 0xFFFFFFAB#32) := by decide
theorem test_fdiv_error : answerOf (ports 0x00041045 0 0 0 0 0) = some (.error .divisionByZero) := by decide
theorem test_fmod : answerOf (ports 0x00021046 5 3 0 0 0) = some (.word 0x00000002#32) := by decide
theorem test_faddsat : answerOf (ports 0x00021047 0x00007FFF 1 0 0 0) = some (.word 0x00007FFF#32) := by decide
theorem test_fsubsat : answerOf (ports 0x04021048 0 1 0 0 0) = some (.word 0x00000000#32) := by decide
theorem test_fmulsat : answerOf (ports 0x00021049 0xFFFF9C00 0x00006400 0 0 0) = some (.word 0xFFFF8000#32) := by decide
theorem test_fclamp : answerOf (ports 0x0002104A 0xFFFFFD80 0xFFFFFF00 0x00000200 0 0) = some (.word 0xFFFFFF00#32) := by decide
theorem test_fclamp01 : answerOf (ports 0x0002104B 0x00000180 0 0 0 0) = some (.word 0x00000100#32) := by decide
theorem test_fclampofs : answerOf (ports 0x0002104C 0 0x00007D00 0xFFFF8300 0x000003E8 0xFFFFFC18) = some (.word 0x00000000#32) := by decide
theorem test_fcvt : answerOf (ports 0x00421050 0xFFFFFFFF 0 0 0 0) = some (.word 0xFFFFFFFF#32) := by decide
theorem test_fcvt_error : answerOf (ports 0x02121050 0x00000180 0 0 0 0) = some (.error .notSupportedError) := by decide
theorem test_ffloor : answerOf (ports 0x00021051 0xFFFFFE80 0 0 0 0) = some (.word 0xFFFFFE00#32) := by decide
theorem test_fceil : answerOf (ports 0x00021052 0xFFFFFE80 0 0 0 0) = some (.word 0xFFFFFE00#32) := by decide
theorem test_fround : answerOf (ports 0x00021053 0xFFFFFEC0 0 0 0 0) = some (.word 0xFFFFFE00#32) := by decide
theorem test_ftobytes : answerOf (ports 0x00021060 0x00000180 0 0 0 0) = some (.bytes 0x00000180#32 2#32) := by decide
theorem test_ffrombytes : answerOf (ports 0x00021061 0x00000180 2 0 0 0) = some (.word 0x00000180#32) := by decide
theorem test_ffrombytes_error : answerOf (ports 0x00020061 0 1 0 0 0) = some (.error .formatError) := by decide
theorem test_fgetbyte : answerOf (ports 0x00021062 0x00000180 1 0 0 0) = some (.word 0x00000001#32) := by decide
theorem test_fsetbyte : answerOf (ports 0x00010C63 0 1 0x000000FF 0 0) = some (.word 0xFFFFFF00#32) := by decide
theorem test_sin_error : answerOf (ports 0x00000170 0 0 0 0 0) = some (.error .notSupportedError) := by decide
theorem test_tan : answerOf (ports 0x00021072 0xFFFFC000 0 0 0 0) = some (.word 0xFFFF8000#32) := by decide
theorem test_tan_error : answerOf (ports 0x00000172 0 0 0 0 0) = some (.error .notSupportedError) := by decide
theorem test_atan2_error : answerOf (ports 0x00002176 0 0 0 0 0) = some (.error .notSupportedError) := by decide
theorem test_sqrt : answerOf (ports 0x00021077 0x00000200 0 0 0 0) = some (.word 0x0000016A#32) := by decide
/-! ### The order of checks (section 2.10) -/

theorem test_reserved_bits_first : answerOf (ports 0x08002102 1 2 0 0 0) = some (.error .illegalCommand) := by decide
theorem test_selector_before_width : answerOf (ports 0x005A1041 0 0 0 0 0) = some (.error .illegalCommand) := by decide
theorem test_width_before_divisor : answerOf (ports 0x00002805 1 0 0 0 0) = some (.error .notSupportedError) := by decide

/-! ### Math engine (section 2.9, equations with the open parameters) -/

theorem test_sin_retro_mirrored : answerOf (ports 0x00000870 0x61 0 0 0 0) =
    some (.word (cell (wrap .signed 8
      (Config.params.rescaleOut .signed 8 0 (Config.params.sinLut 1983))))) := rfl
theorem test_cos_retro : answerOf (ports 0x00000871 0x40 0 0 0 0) =
    some (.word (cell (wrap .signed 8
      (Config.params.rescaleOut .signed 8 0 (negQ16 Config.params (Config.params.sinLut 0)))))) := rfl
theorem test_cos_wraps : answerOf (ports 0x04000871 0xC0 0 0 0 0) = answerOf (ports 0x04000870 0 0 0 0 0) := rfl
theorem test_acos : answerOf (ports 0x00039074 0x2000 0 0 0 0) =
    some (.word (cell (wrap .signed 16 (Config.params.requantAcos .signed 16 (subQ16 Config.params
      Config.params.halfPi (asinCore Config.params 16 (Config.params.rescaleIn .signed 16 14 0x2000))))))) := rfl
theorem test_asin : answerOf (ports 0x00039073 0x2000 0 0 0 0) =
    some (.word (cell (wrap .signed 16 (Config.params.requantA .signed 16
      (asinCore Config.params 16 (Config.params.rescaleIn .signed 16 14 0x2000)))))) := rfl
theorem test_atan : answerOf (ports 0x00039075 0x4000 0 0 0 0) =
    some (.word (cell (wrap .signed 16 (Config.params.requantA .signed 16
      (atanCore Config.params 16 (Config.params.rescaleIn .signed 16 14 0x4000)))))) := rfl
theorem test_atan2 : answerOf (ports 0x00039076 3 4 0 0 0) =
    some (.word (cell (wrap .signed 16 (Config.params.requantAtan2 .signed 16
      (atan2Core Config.params 16 (atan2Operand Config.params .signed 16 14 3)
        (atan2Operand Config.params .signed 16 14 4)))))) := rfl

/-! ### Reference definitions (section 2.8 and program P4; they hold for the defaults only) -/

theorem test_exp2_default : cell (wrap .signed 32 (exp2CoreRef ln2QRef 16 (-32768))) = 0x0000AC5C#32 := by decide
theorem test_exp_default : cell (wrap .signed 32
    (exp2CoreRef ln2QRef 16 (expArgRef log2eQRef .signed 32 16 (-65536)))) = 0x000058B9#32 := by decide
theorem test_log2_default : cell (wrap .signed 32 (log2CoreRef 16 0x190000 20)) = 0x00049000#32 := by decide
theorem test_sin_position_default : sinPosRef 16 false 0x2000 = 0x08000000 := by decide

/-! ### Host-side codecs (sections S4, S8, S15, S16) -/

theorem test_parse_binary : parseNumber ['0', 'B', '1', '1', '0', '0', '1', '0', '0', '0'] = some 0xC8 := by decide
theorem test_try_parse_malformed : tryParse .signed 8 ['0', 'x'] = none := by decide
theorem test_try_parse_wraps : tryParse .signed 8 ['2', '0', '0'] = some 0xFFFFFFC8#32 := by decide
theorem test_fixed_of_double (P : Config.Params) :
    fixedOfReal P .binary64 ⟨.signed, 16#6, 8#6⟩ (realOfDouble 0x3FF8000000000000#64) = 0x180#32 := by rfl
/-- Section S7: the text of the object, written out; the braces and the quotation marks are the model's named
characters. -/
theorem test_meta_text : toJsonWithMeta ⟨.signed, 16#6, 8#6⟩ 0x180#32 =
    [openBrace, quoteChar, 'i', 'n', 't', 'B', 'i', 't', 's', quoteChar, ':', '1', '6', ',',
      quoteChar, 'f', 'r', 'a', 'c', 'B', 'i', 't', 's', quoteChar, ':', '8', ',',
      quoteChar, 'r', 'a', 'w', quoteChar, ':', '3', '8', '4', closeBrace] := by decide
/-- Section S8: a width that differs; and an object with the family's key twice is no shape of R324. -/
theorem test_meta_refused :
    fromJsonWithMeta ⟨.signed, 16#6, 8#6⟩ (toJsonWithMeta ⟨.signed, 8#6, 8#6⟩ 0x180#32) = .error .formatError ∧
    fromJsonWithMeta ⟨.signed, 16#6, 8#6⟩ (openBrace :: (memberText .intBits 16 ++ commaChar ::
      (memberText .intBits 16 ++ commaChar :: (memberText .raw 1 ++ [closeBrace])))) = .error .formatError := ⟨rfl, rfl⟩
theorem test_compact_json : toJson .signed 8 0xC8#32 = [quoteChar, '-', '5', '6', quoteChar] ∧
    fromJson .signed 8 [quoteChar, '0', 'x', 'C', '8', quoteChar] = .ok 0xFFFFFFC8#32 ∧
    fromJson .signed 8 ['2', '0', '0'] = .error .formatError := ⟨rfl, rfl, rfl⟩
/-- R330: overflow wraps, here the raw `2^40 + 384` of `2^32 + 1.5`. -/
theorem test_fixed_of_double_wraps (P : Config.Params) :
    fixedOfReal P .binary64 ⟨.signed, 16#6, 8#6⟩ (realOfDouble 0x41F0000000180000#64) = 0x180#32 := by rfl
/-- The other value of each settled parameter (D25, D26, U6): −1.25 to −1.0, the plain numerator, zero pad bits. -/
theorem test_other_readings : roundRaw .away 8 (-320) = -256 ∧ roundRaw .literal 8 (-320) = -512 ∧
    trem (fmodNumerator false 8 384) 256 = 128 ∧ imageWord false 12 (-1) = 0xFFF#32 := by decide
theorem test_double_edges (P : Config.Params) :
    castDouble P .unsigned 8 (realOfDouble 0x7FF0000000000000#64) = 255#32 ∧
    castDouble P .unsigned 8 (realOfDouble 0xFFF0000000000000#64) = 128#32 ∧
    castDouble P .unsigned 8 (realOfDouble 0x7FF8000000000000#64) = 0#32 := ⟨rfl, rfl, rfl⟩

/-! ### Witnesses: the hypotheses of each statement are met together -/

/-- Two integer types at the boundary widths and one in between. -/
theorem witness_integer_types : (⟨.signed, 0#6⟩ : IntType).supported = true ∧
    (⟨.unsigned, 32#6⟩ : IntType).supported = true ∧ (⟨.signed, 8#6⟩ : IntType).supported = true := by decide

/-- Fixed-point types at the boundary widths and fractions. -/
theorem witness_fixed_types : (⟨.signed, 0#6, 32#6⟩ : FixType).supported = true ∧
    (⟨.unsigned, 32#6, 0#6⟩ : FixType).supported = true ∧ (⟨.signed, 16#6, 8#6⟩ : FixType).supported = true := by decide

theorem witness_encode_decode : decode 0x00000802#32 = .ok (.iadd ⟨.signed, 8#6⟩) := rfl
theorem witness_step_runs_decoded_command : decode (ports 0x00000802 1 2 0 0 0).cw = .ok (.iadd ⟨.signed, 8#6⟩) ∧
    decode (ports 0x08000802 1 2 0 0 0).cw = .error .reservedBits := ⟨rfl, rfl⟩
theorem witness_unnamed_ports_are_ignored : (Instr.iadd ⟨.signed, 8#6⟩).portCount = 2 ∧
    Answers (.iadd ⟨.signed, 8#6⟩) (ports 0x802 100 100 7 0 0) (.word 0xFFFFFFC8#32) := ⟨rfl, rfl⟩
theorem witness_step_keeps_conforming : State.reset.Conforms ∧
    step State.reset = .next { State.reset with response := some (.word 0#32) } :=
  ⟨fun _ h => (nomatch h), rfl⟩
theorem witness_not_supported_exactly : decode (ports 0x00002102 0 0 0 0 0).cw = .ok (.iadd ⟨.signed, 33#6⟩) := rfl
theorem witness_wrap_construction : (⟨.signed, 8#6⟩ : IntType).supported = true ∧
    (⟨.unsigned, 9#6, 8#6⟩ : FixType).supported = true := by decide
theorem witness_wrap_is_idempotent : (⟨.signed, 8#6⟩ : IntType).supported = true ∧
    AnswersWord (.iwrap ⟨.signed, 8#6⟩) (ports 0 200 0 0 0 0) 0xFFFFFFC8#32 ∧
    (⟨.signed, 8#6, 8#6⟩ : FixType).supported = true ∧
    AnswersWord (.fwrap ⟨.signed, 8#6, 8#6⟩) (ports 0 384 0 0 0 0) 0xFFFFFF80#32 := ⟨rfl, rfl, rfl, rfl⟩
theorem witness_integer_constants : (⟨.signed, 0#6⟩ : IntType).supported = true := by decide
theorem witness_fixed_constants : (⟨.signed, 32#6, 32#6⟩ : FixType).supported = true := by decide
theorem witness_integer_ring_operations : (⟨.unsigned, 32#6⟩ : IntType).supported = true := by decide
theorem witness_fixed_add_sub : (⟨.signed, 0#6, 8#6⟩ : FixType).supported = true := by decide
theorem witness_integer_division : (⟨.signed, 8#6⟩ : IntType).supported = true ∧
    regBits 8 (ports 0 5 256 0 0 0).b = 0#8 ∧ regBits 8 (ports 0 5 0xFF 0 0 0).b ≠ 0#8 ∧
    (⟨.unsigned, 8#6⟩ : IntType).supported = true := by decide
theorem witness_integer_remainder : (⟨.unsigned, 32#6⟩ : IntType).supported = true ∧
    regBits 32 (ports 0 1 0 0 0 0).b = 0#32 ∧ regBits 32 (ports 0 1 3 0 0 0).b ≠ 0#32 ∧
    (⟨.signed, 32#6⟩ : IntType).supported = true := by decide
theorem witness_fixed_multiply : (⟨.signed, 32#6, 32#6⟩ : FixType).supported = true ∧
    (⟨.unsigned, 32#6, 32#6⟩ : FixType).supported = true := by decide
theorem witness_fixed_division : (⟨.signed, 16#6, 16#6⟩ : FixType).supported = true ∧
    regBits 16 (ports 0 0 0x10000 0 0 0).b = 0#16 ∧ regBits 16 (ports 0 384 512 0 0 0).b ≠ 0#16 := by decide
theorem witness_integer_saturation : (⟨.signed, 1#6⟩ : IntType).supported = true := by decide
theorem witness_fixed_saturation : (⟨.unsigned, 16#6, 8#6⟩ : FixType).supported = true := by decide
theorem witness_saturation_at_the_bounds : (⟨.signed, 2#6⟩ : IntType).supported = true ∧
    1 ≤ greatestValue .signed 2 ∧ (ports 0 1 1 0 0 0).b = 1#32 ∧
    (ports 0 1 1 0 0 0).a = BitVec.ofInt 32 (greatestValue .signed 2) ∧
    (ports 0 0xFFFFFFFE 1 0 0 0).a = BitVec.ofInt 32 (leastValue .signed 2) := by decide
theorem witness_clamps : (⟨.signed, 8#6⟩ : IntType).supported = true ∧
    (⟨.unsigned, 16#6, 8#6⟩ : FixType).supported = true := by decide
theorem witness_clamps_to_one : (⟨.signed, 1#6⟩ : IntType).supported = true ∧
    (⟨.signed, 8#6, 8#6⟩ : FixType).supported = true := by decide
theorem witness_clamps_with_offset : (⟨.signed, 8#6⟩ : IntType).supported = true ∧
    (⟨.signed, 16#6, 8#6⟩ : FixType).supported = true := by decide
theorem witness_left_shifts : (⟨.signed, 8#6⟩ : IntType).supported = true ∧
    (0 ≤ (ports 0 1 7 0 0 0).b.toInt ∧ (ports 0 1 7 0 0 0).b.toInt < 8) ∧
    (8 : Int) ≤ (ports 0 1 8 0 0 0).b.toInt ∧ (ports 0 1 0xFFFFFFFF 0 0 0).b.toInt < 0 := by decide
theorem witness_right_shifts : (⟨.unsigned, 32#6⟩ : IntType).supported = true ∧
    (⟨.signed, 32#6⟩ : IntType).supported = true ∧
    (0 ≤ (ports 0 1 31 0 0 0).b.toInt ∧ (ports 0 1 31 0 0 0).b.toInt < 32) ∧
    (32 : Int) ≤ (ports 0 1 32 0 0 0).b.toInt ∧ (ports 0 1 0xFFFFFFFF 0 0 0).b.toInt < 0 := by decide
theorem witness_low_bits_mask : (⟨.signed, 8#6⟩ : IntType).supported = true ∧
    (0 ≤ (ports 0 1 8 0 0 0).b.toInt ∧ (ports 0 1 8 0 0 0).b.toInt ≤ 8) ∧
    (8 : Int) < (ports 0 1 9 0 0 0).b.toInt ∧ (ports 0 1 0xFFFFFFFF 0 0 0).b.toInt < 0 := by decide
theorem witness_power_of_two_decomposition : (⟨.signed, 8#6⟩ : IntType).supported = true ∧
    0 ≤ (ports 0 0xF9 3 0 0 0).b.toInt ∧ (ports 0 0xF9 3 0 0 0).b.toInt < 8 ∧
    AnswersWord (.idivpow2 ⟨.signed, 8#6⟩) (ports 0 0xF9 3 0 0 0) 0xFFFFFFFF#32 ∧
    AnswersWord (.imodpow2 ⟨.signed, 8#6⟩) (ports 0 0xF9 3 0 0 0) 1#32 := ⟨by decide, by decide, by decide, rfl, rfl⟩
theorem witness_rotates : (⟨.signed, 12#6⟩ : IntType).supported = true ∧ (12#6 : BitVec 6) ≠ 0#6 ∧
    (⟨.signed, 0#6⟩ : IntType).supported = true := by decide
theorem witness_rotate_right_is_rotate_left_negated : (ports 0 1 1 0 0 0).b ≠ BitVec.intMin 32 ∧
    AnswersWord (.iror ⟨.signed, 8#6⟩) (ports 0 1 1 0 0 0) 0xFFFFFF80#32 := ⟨by decide, rfl⟩
theorem witness_ones_counted : (⟨.signed, 32#6⟩ : IntType).supported = true := by decide
theorem witness_bit_scans : (⟨.signed, 8#6⟩ : IntType).supported = true ∧
    (∀ i, i < 8 → (ports 0 0x100 0 0 0 0).a.getLsbD i = false) ∧
    (ports 0 0x190 0 0 0 0).a.getLsbD 7 = true ∧
    (∀ j, 7 < j → j < 8 → (ports 0 0x190 0 0 0 0).a.getLsbD j = false) ∧
    (ports 0 0x190 0 0 0 0).a.getLsbD 4 = true ∧
    (∀ j, j < 4 → (ports 0 0x190 0 0 0 0).a.getLsbD j = false) :=
  ⟨by decide, by decide, by decide, fun j h1 h2 => by omega, by decide, by decide⟩
theorem witness_to_bytes : (⟨.signed, 12#6⟩ : IntType).supported = true ∧
    (⟨.signed, 0#6, 8#6⟩ : FixType).supported = true := by decide
theorem witness_from_bytes : (⟨.unsigned, 16#6⟩ : IntType).supported = true ∧
    (16 + 7) / 8 ≤ (ports 0 0 2 0 0 0).b.toNat ∧ (ports 0 0 1 0 0 0).b.toNat < (16 + 7) / 8 ∧
    (⟨.signed, 16#6, 8#6⟩ : FixType).supported = true ∧
    (ports 0 0 2 0 0 0).b.toNat = (16 + 7) / 8 ∧ (ports 0 0 3 0 0 0).b.toNat ≠ (16 + 7) / 8 := by decide
theorem witness_byte_round_trip : (⟨.signed, 12#6⟩ : IntType).supported = true ∧
    Answers (.itobytes ⟨.signed, 12#6⟩) (ports 0 0xFFF 0 0 0 0) (.bytes 0xFFFF#32 2#32) ∧
    (⟨.signed, 16#6, 8#6⟩ : FixType).supported = true ∧
    Answers (.ftobytes ⟨.signed, 16#6, 8#6⟩) (ports 0 384 0 0 0 0) (.bytes 0x180#32 2#32) := ⟨rfl, rfl, rfl, rfl⟩
theorem witness_get_byte : (⟨.unsigned, 16#6⟩ : IntType).supported = true ∧
    (0 ≤ (ports 0 0 1 0 0 0).b.toInt ∧ (ports 0 0 1 0 0 0).b.toInt < ((16 + 7) / 8 : Nat)) ∧
    (((16 + 7) / 8 : Nat) : Int) ≤ (ports 0 0 2 0 0 0).b.toInt ∧ (ports 0 0 0xFFFFFFFF 0 0 0).b.toInt < 0 ∧
    (⟨.unsigned, 16#6, 8#6⟩ : FixType).supported = true := by decide
theorem witness_set_byte : (⟨.signed, 12#6⟩ : IntType).supported = true ∧
    (0 ≤ (ports 0 0 1 0xFF 0 0).b.toInt ∧ (ports 0 0 1 0xFF 0 0).b.toInt < ((12 + 7) / 8 : Nat)) ∧
    (((12 + 7) / 8 : Nat) : Int) ≤ (ports 0 0 2 0 0 0).b.toInt ∧ (ports 0 0 0xFFFFFFFF 0 0 0).b.toInt < 0 ∧
    (⟨.signed, 12#6, 4#6⟩ : FixType).supported = true := by decide
theorem witness_fraction_conversion : (⟨.signed, 32#6, 32#6⟩ : FixType).supported = true ∧
    (0#6 : BitVec 6).toNat ≤ (32#6 : BitVec 6).toNat ∧ (⟨.signed, 32#6, 0#6⟩ : FixType).supported = true ∧
    (32#6 : BitVec 6).toNat ≤ 32 ∧ (0#6 : BitVec 6).toNat < (32#6 : BitVec 6).toNat := by decide
theorem witness_floor_clears_fraction_bits : (⟨.signed, 8#6, 8#6⟩ : FixType).supported = true := by decide
theorem witness_rounding_table : (⟨.signed, 16#6, 1#6⟩ : FixType).supported = true ∧ 1 ≤ (1#6 : BitVec 6).toNat ∧
    (0 : ℚ) ≤ (portValue .signed 16 (ports 0 0 0 0 0 0).a : ℚ) / 2 ^ 1 ∧
    (portValue .signed 16 (ports 0 0xFFFF 0 0 0 0).a : ℚ) / 2 ^ 1 < 0 := by
  have h0 : portValue .signed 16 (ports 0 0 0 0 0 0).a = 0 := by decide
  have h1 : portValue .signed 16 (ports 0 0xFFFF 0 0 0 0).a = -1 := by decide
  rw [h0, h1]
  exact ⟨by decide, by decide, by norm_num, by norm_num⟩
theorem witness_rounding_without_fraction : (⟨.signed, 16#6, 0#6⟩ : FixType).supported = true := by decide
theorem witness_retro_sine : (⟨.signed, 2#6, 0#6⟩ : FixType).angleSupported = true ∧
    (⟨.unsigned, 14#6, 8#6⟩ : FixType).angleSupported = true ∧ (14#6 : BitVec 6).toNat ≤ 14 := by decide
theorem witness_interpolated_sine : (⟨.signed, 15#6, 0#6⟩ : FixType).angleSupported = true ∧
    (⟨.unsigned, 31#6, 32#6⟩ : FixType).angleSupported = true ∧ 15 ≤ (15#6 : BitVec 6).toNat := by decide
theorem witness_cosine_is_sine_ahead : (⟨.signed, 8#6, 0#6⟩ : FixType).angleSupported = true := by decide
theorem witness_tangent : (⟨.signed, 16#6, 8#6⟩ : FixType).angleSupported = true ∧
    (regBits 16 (ports 0 0x4000 0 0 0 0).a).toNat = 2 ^ (16 - 2) ∧
    (regBits 16 (ports 0 0xC000 0 0 0 0).a).toNat = 3 * 2 ^ (16 - 2) ∧
    (regBits 16 (ports 0 0x2000 0 0 0 0).a).toNat ≠ 2 ^ (16 - 2) ∧
    (regBits 16 (ports 0 0x2000 0 0 0 0).a).toNat ≠ 3 * 2 ^ (16 - 2) := by decide
theorem witness_tangent_buckets : (2#6 : BitVec 6).toNat = 2 ∧ (3 ≤ (3#6 : BitVec 6).toNat ∧ (3#6 : BitVec 6).toNat ≤ 12) ∧
    (12#6 : BitVec 6).toNat ≤ 12 ∧ (13#6 : BitVec 6).toNat = 13 ∧ (14#6 : BitVec 6).toNat = 14 ∧
    15 ≤ (15#6 : BitVec 6).toNat := by decide
theorem witness_arcsine_and_arccosine : (⟨.signed, 16#6, 14#6⟩ : FixType).angleSupported = true ∧
    |(0x10000#32 : Q16).toInt| ≤ 65536 ∧ |(0xFFFF0000#32 : Q16).toInt| ≤ 65536 ∧
    (6#6 : BitVec 6).toNat ≤ 6 ∧ 7 ≤ (7#6 : BitVec 6).toNat := by decide
/-- For the clauses about sin 75 degrees: parameters that put it strictly between two magnitudes, with the tail in the
retro band. -/
theorem witness_arcsine_threshold : ∃ P : Config.Params, P.sin75.toInt < |(0x10000#32 : Q16).toInt| ∧
    |(0#32 : Q16).toInt| < P.sin75.toInt ∧ |(0xF747#32 : Q16).toInt| = P.sin75.toInt ∧ P.asinRetroTail = true :=
  ⟨{ Config.params with sin75 := 0xF747#32, asinRetroTail := true }, by decide, by decide, by decide, rfl⟩
theorem witness_arctangents : (⟨.unsigned, 2#6, 0#6⟩ : FixType).angleSupported = true ∧
    |(0x10000#32 : Q16).toInt| ≤ 65536 ∧ 65536 < |(0xFFFEFFFF#32 : Q16).toInt| ∧
    (-1 : Int) ≠ 0 ∧ (|(-1 : Int)| < |2| ∧ |(1 : Int)| < |(-2)|) ∧ |(-1 : Int)| = |1| := by decide
/-- For the clauses about `π/2` minus the angle of the reciprocal: parameters on either side of what 32 bits hold. -/
theorem witness_arctangents_difference (n : Nat) :
    (∃ P : Config.Params, -2 ^ 31 ≤ P.halfPi.toInt - (atanTable P n (P.atanRecip n 65537)).toInt ∧
      P.halfPi.toInt - (atanTable P n (P.atanRecip n 65537)).toInt < 2 ^ 31) ∧
    (∃ P : Config.Params, 2 ^ 31 ≤ P.halfPi.toInt - (atanTable P n (P.atanRecip n 65537)).toInt) :=
  ⟨⟨{ Config.params with halfPi := 0#32, atanInterpolates := fun _ => false, atanLut := fun _ => 0#32 },
      by show (-2 ^ 31 : Int) ≤ (0#32).toInt - (0#32).toInt; decide,
      by show (0#32).toInt - (0#32).toInt < (2 ^ 31 : Int); decide⟩,
    ⟨{ Config.params with halfPi := 0x7FFFFFFF#32, atanInterpolates := fun _ => false, atanLut := fun _ => 0xFFFFFFFF#32 },
      by show (2 ^ 31 : Int) ≤ (0x7FFFFFFF#32).toInt - (0xFFFFFFFF#32).toInt; decide⟩⟩
theorem witness_square_root : (⟨.signed, 32#6, 32#6⟩ : FixType).supported = true := by decide
theorem witness_exponential_and_logarithm : (⟨.signed, 32#6, 16#6⟩ : FixType).supported = true ∧
    (2 : Int) ^ 16 ≤ greatestValue .signed 32 ∧
    ((31 : Nat) < 32 ∧ (2 : Int) ^ 31 ≤ 2 ^ 31 ∧ (2 : Int) ^ 31 < 2 ^ 32) := by decide
/-- For the clause about whole numbers: parameters with 16 working bits in `s32.16`, at the least and the greatest `k`. -/
theorem witness_exponential_whole : ∃ P : Config.Params, (∀ v, P.exp2Bits .signed 32 16 v = 16) ∧
    (0 ≤ (-16 : Int) + (16 : Nat) ∧ (-16 : Int) ≤ 0 ∧ 2 ^ ((-16 : Int) + (16 : Nat)).toNat ≤ greatestValue .signed 32) ∧
    (0 ≤ (14 : Int) + (16 : Nat) ∧ 2 ^ ((14 : Int) + (16 : Nat)).toNat ≤ greatestValue .signed 32) :=
  ⟨{ Config.params with exp2Bits := fun _ _ _ _ => 16 }, fun _ => rfl, by decide, by decide⟩
/-- The order of R302 is open: in 16 working bits EXP2 of −20.0 in `s32.24` is 0, in 24 bits it is 16. -/
theorem test_exp2_order_open (P : Config.Params) :
    exp2Core { withDefaults P with exp2Bits := fun _ _ _ _ => 16 } .signed 32 24 (-20 * 2 ^ 24) = 0 ∧
    exp2Core (withDefaults P) .signed 32 24 (-20 * 2 ^ 24) = 16 := by
  constructor
  · have h : exp2Shifted { withDefaults P with exp2Bits := fun _ _ _ _ => 16 } .signed 32 24 (-20 * 2 ^ 24) = 0 := by
      rw [exp2Shifted, exp2Mantissa, exp2Whole_whole, sub_self, zero_mul, scaled_zero]
      show shiftBy false (2 ^ 16 + 0) (-20) = 0
      decide
    rw [exp2Core, h, if_pos (.inl (by positivity))]
    exact rawOrElse_of_range .signed 32 0 _ (by decide) (by decide)
  · rw [exp2Core_withDefaults]; decide
/-- The sum of LOG2 lies in the type for the default pieces: LOG2 of 1.0 in `s32.16` is 0. -/
theorem witness_logarithm_in_range (P : Config.Params) :
    (withDefaults P).log2Slope .signed 32 16 * (65536 - 2 ^ 16) + (withDefaults P).log2Offset .signed 32 16 * 2 ^ 16 = 0 ∧
    leastValue .signed 32 ≤ ((16 : Nat) - (16 : Nat) : Int) * 2 ^ 16 + 0 ∧
    ((16 : Nat) - (16 : Nat) : Int) * 2 ^ 16 + 0 ≤ greatestValue .signed 32 :=
  ⟨by show (2 : Int) ^ 16 * (65536 - 2 ^ 16) + 0 * 2 ^ 16 = 0; norm_num, by decide, by decide⟩
theorem witness_meta_json_round_trip : (⟨.signed, 16#6, 8#6⟩ : FixType).supported = true ∧
    (⟨.signed, 16#6, 8#6⟩ : FixType) ≠ ⟨.unsigned, 16#6, 8#6⟩ := by decide
theorem witness_decimal_strings : (⟨.signed, 32#6⟩ : IntType).supported = true ∧ ['0', '0', '7'] ≠ [] ∧
    (∀ ch ∈ ['0', '0', '7'], ch.isDigit = true) := ⟨by decide, by simp, by simp [Char.isDigit]⟩
theorem witness_double_to_unsigned_edges : (0#6 : BitVec 6).toNat ≤ 32 ∧ (32#6 : BitVec 6).toNat ≤ 32 ∧
    (0xFFF0000000000001#64).extractLsb' 52 11 = 0x7FF#11 ∧ (0xFFF0000000000001#64).extractLsb' 0 52 ≠ 0#52 ∧
    (0x7FF0000000000000#64).extractLsb' 52 11 = 0x7FF#11 ∧ (0x7FF0000000000000#64).extractLsb' 0 52 = 0#52 ∧
    (0x7FF0000000000000#64).getLsbD 63 = false ∧
    (0xFFF0000000000000#64).extractLsb' 52 11 = 0x7FF#11 ∧ (0xFFF0000000000000#64).extractLsb' 0 52 = 0#52 ∧
    (0xFFF0000000000000#64).getLsbD 63 = true :=
  ⟨by decide, by decide, rfl, by simp, rfl, rfl, rfl, rfl, rfl, rfl⟩

end Sys2Proof.Tests
end

section
/-! The earlier response plays no part in a step (10_state.md R18, R33, R48): every meaning reads the request ports only
and ends in one of the shared ways of answering, each of which overwrites the response. -/

namespace Sys2Proof.Machine

/-- Answering overwrites whatever response stood there. -/
@[simp] theorem State.respond_update_response (s : State) (old : Option Response) (resp : Response) :
    ({ s with response := old } : State).respond resp = s.respond resp := rfl

@[simp] theorem raise_update_response (kind : ErrorKind) (s : State) (old : Option Response) :
    raise kind { s with response := old } = raise kind s := by
  rw [raise, raise, State.respond_update_response]

/-- Each instruction's meaning is built from the operand ports and the shared ways of answering, so in every case the two
sides compute alike. -/
@[simp] theorem exec_update_response (i : Instr) (s : State) (old : Option Response) :
    exec i { s with response := old } = exec i s := by
  cases i <;> rfl

theorem step_of_decode_ok {s : State} {i : Instr} (h : decode s.cw = .ok i) : step s = exec i s := by
  rw [step, State.fetch, h]

theorem step_of_decode_error {s : State} {err : DecodeError} (h : decode s.cw = .error err) :
    step s = raise .illegalCommand s := by
  rw [step, State.fetch, h]

/-- Settles O7, by cases on what the command word decodes to: the two states have the same command word. -/
theorem response_depends_on_request_only : Obligations.response_depends_on_request_only := by
  intro s old
  cases h : decode s.cw with
  | ok i => rw [step_of_decode_ok h, step_of_decode_ok (s := { s with response := old }) h, exec_update_response]
  | error err =>
    rw [step_of_decode_error h, step_of_decode_error (s := { s with response := old }) h, raise_update_response]

end Sys2Proof.Machine
end

section
/-! Numbers in the range of a type. A meaning that stores its result "without re-wrap masking" (41_int_arith.md R126)
relies on that result lying between the least and the greatest value of the type; these lemmas say so for each such
result. -/

namespace Sys2Proof.Machine

/-- The numbers of a type (00_scope.md R17). -/
def typeRange (u : Family) (n : Nat) : Set Int := Set.Icc (leastValue u n) (greatestValue u n)

theorem mem_typeRange {u : Family} {n : Nat} {v : Int} :
    v ∈ typeRange u n ↔ leastValue u n ≤ v ∧ v ≤ greatestValue u n := Iff.rfl

theorem regValue_mem_typeRange (u : Family) {n : Nat} (x : BitVec n) : regValue u x ∈ typeRange u n :=
  ⟨leastValue_le u x, le_greatestValue u x⟩

theorem portValue_mem_typeRange (u : Family) (n : Nat) (p : Word) : portValue u n p ∈ typeRange u n :=
  regValue_mem_typeRange u _

theorem wrap_mem_typeRange (u : Family) (n : Nat) (v : Int) : wrap u n v ∈ typeRange u n := by
  rw [wrap_eq_regValue]
  exact regValue_mem_typeRange u _

theorem zero_mem_typeRange (u : Family) (n : Nat) : 0 ∈ typeRange u n := by
  have h : regValue u (0#n) = 0 := by cases u <;> simp [regValue]
  exact h ▸ regValue_mem_typeRange u (0#n)

theorem tmin_mem_typeRange (u : Family) (n : Nat) : tmin u n ∈ typeRange u n := by
  rw [tmin_eq]
  exact Set.left_mem_Icc.2 (leastValue_le_greatestValue u n)

theorem tmax_mem_typeRange (u : Family) (n : Nat) : tmax u n ∈ typeRange u n := by
  rw [tmax_eq]
  exact Set.right_mem_Icc.2 (leastValue_le_greatestValue u n)

/-- A clamp gives one of its three arguments, inverted bounds included. -/
theorem clamp_mem {S : Set Int} {v lo hi : Int} (hv : v ∈ S) (hlo : lo ∈ S) (hhi : hi ∈ S) : clamp v lo hi ∈ S := by
  unfold clamp
  split_ifs <;> assumption

/-- The upper bound 1.0 need not be a number of the type (93_implementation_defined.md U3): a value above it is in the
range, so the bound, which is then between 0 and that value, is too. -/
theorem clamp_zero_mem_typeRange {u : Family} {n : Nat} {v one : Int} (hone : 0 ≤ one) (hv : v ∈ typeRange u n) :
    clamp v 0 one ∈ typeRange u n := by
  have h0 := zero_mem_typeRange u n
  rw [mem_typeRange] at *
  unfold clamp
  split_ifs <;> omega

/-- Saturation ends in the range of the type whatever the exact result was (41_int_arith.md R126). -/
theorem clamp_type_mem_typeRange (u : Family) (n : Nat) (v : Int) : clamp v (tmin u n) (tmax u n) ∈ typeRange u n := by
  rw [clamp_type, limit]
  exact ⟨le_max_left _ _, max_le (leastValue_le_greatestValue u n) (min_le_right _ _)⟩

theorem offsetBound_mem_typeRange (u : Family) (n : Nat) (bound delta : Int) :
    offsetBound u n bound delta ∈ typeRange u n :=
  clamp_type_mem_typeRange u n _

theorem clampSwapped_mem {S : Set Int} {v lo hi : Int} (hv : v ∈ S) (hlo : lo ∈ S) (hhi : hi ∈ S) :
    clampSwapped v lo hi ∈ S := by
  unfold clampSwapped
  split
  · exact clamp_mem hv hhi hlo
  · exact clamp_mem hv hlo hhi

/-- A right shift brings a number closer to 0 and keeps its sign, so it stays in every range that holds 0. -/
theorem shr_mem_typeRange {u : Family} {n : Nat} {v : Int} (hv : v ∈ typeRange u n) (k : Nat) :
    shr v k ∈ typeRange u n := by
  have h0 := zero_mem_typeRange u n
  have hpow : (0 : Int) < 2 ^ k := by positivity
  rw [mem_typeRange] at *
  rw [shr]
  by_cases hneg : v < 0
  · have hlo : v ≤ v / 2 ^ k := by
      rw [Int.le_ediv_iff_mul_le hpow]
      nlinarith
    have hhi : v / 2 ^ k < 0 := Int.ediv_neg_of_neg_of_pos hneg hpow
    omega
  · have hlo : 0 ≤ v / 2 ^ k := Int.ediv_nonneg (by omega) hpow.le
    have hhi : v / 2 ^ k ≤ v := Int.ediv_le_self _ (by omega)
    omega

theorem intConst_mem_typeRange (u : Family) (n : Nat) (sel : IntSel) : intConst u n sel ∈ typeRange u n := by
  cases sel with
  | zero => exact zero_mem_typeRange u n
  | min => exact tmin_mem_typeRange u n
  | max => exact tmax_mem_typeRange u n

theorem fixConst_mem_typeRange (u : Family) (n f : Nat) (sel : FixSel) : fixConst u n f sel ∈ typeRange u n := by
  cases sel with
  | zero => exact zero_mem_typeRange u n
  | one => exact wrap_mem_typeRange u n _
  | min => exact tmin_mem_typeRange u n
  | max => exact tmax_mem_typeRange u n

/-- The sentinels of TAN are numbers of the type, and everything else is wrapped (46_math_trig.md R261). -/
theorem tanRaw_mem_typeRange (P : Config.Params) (u : Family) (n f : Nat) (v : Int) :
    tanRaw P u n f v ∈ typeRange u n := by
  unfold tanRaw
  split_ifs
  · exact tmax_mem_typeRange u n
  · exact tmin_mem_typeRange u n
  · exact wrap_mem_typeRange u n _

end Sys2Proof.Machine
end

section
/-! The form of every answer (10_state.md R21 to R23, 20_memory.md R41, R43): one lemma per shared operation, then one
case per kind of instruction, then the step. -/

namespace Sys2Proof.Machine

/-- The answer gives one response, which has the form due to the instruction `i`, and changes nothing else of `s`. -/
def AnswersInForm (i : Instr) (s : State) (answer : Answer) : Prop :=
  ∃ resp, answer = .next { s with response := some resp } ∧ ∀ cw, decode cw = .ok i → resp.Conforms cw

/-! ### The form of one response -/

theorem conforms_word {cw : Word} {i : Instr} {r : Word} (hcw : decode cw = .ok i)
    (hr : ∀ u n, i.resultType = some (u, n) → n ≤ 32 ∧ Canonical u n r) : (Response.word r).Conforms cw := by
  intro j u n hj
  obtain rfl : i = j := Except.ok.inj (hcw.symm.trans hj)
  exact hr u n

theorem conforms_error (cw : Word) (kind : ErrorKind) : (Response.error kind).Conforms cw := trivial

theorem byteCount_le_four {n : Nat} (hn : n ≤ 32) : byteCount n ≤ 4 := by
  unfold byteCount
  omega

/-- A word masked to `count` bytes is zero beyond them. -/
theorem getLsbD_and_byteMask (w : Word) {count k : Nat} (hk : 8 * count ≤ k) :
    (w &&& byteMask count).getLsbD k = false := by
  have hbit : (2 ^ (8 * count) - 1).testBit k = false := by
    rw [Nat.testBit_two_pow_sub_one, decide_eq_false (by omega)]
  rw [BitVec.getLsbD_and, byteMask, BitVec.getLsbD_ofNat, hbit, Bool.and_false, Bool.and_false]

/-! ### The ways of answering -/

section
variable {i : Instr} {s : State} {u : Family} {n : Nat}

theorem raise_inForm (kind : ErrorKind) : AnswersInForm i s (raise kind s) :=
  ⟨.error kind, raise_eq kind s, fun cw _ => conforms_error cw kind⟩

/-- Both branches of a check answer in form, each where it is taken. -/
theorem ite_inForm {c : Prop} [Decidable c] {x y : Answer} (hx : c → AnswersInForm i s x)
    (hy : ¬c → AnswersInForm i s y) : AnswersInForm i s (if c then x else y) := by
  split
  · next h => exact hx h
  · next h => exact hy h

theorem complete_inForm (hi : i.resultType = some (u, n)) (hn : n ≤ 32) {r : Word} (hr : Canonical u n r) :
    AnswersInForm i s (complete r s) := by
  refine ⟨.word r, complete_eq r s, fun cw hcw => conforms_word hcw fun u' n' hi' => ?_⟩
  obtain ⟨rfl, rfl⟩ : u = u' ∧ n = n' := by simpa [hi] using hi'
  exact ⟨hn, hr⟩

/-- A plain integer is no value of a type, so the storage invariant asks nothing of it (30_encoding.md R64, kind I). -/
theorem completeInt_inForm (hi : i.resultType = none) (k : Int) : AnswersInForm i s (completeInt k s) :=
  ⟨_, completeInt_eq k s, fun _ hcw => conforms_word hcw fun u n h => by simp [hi] at h⟩

theorem completeWrapped_inForm (hi : i.resultType = some (u, n)) (hn : n ≤ 32) (v : Int) :
    AnswersInForm i s (completeWrapped u n v s) :=
  complete_inForm hi hn (canonical_cell_wrap u hn v)

theorem completeInRange_inForm (hi : i.resultType = some (u, n)) (hn : n ≤ 32) {v : Int} (hv : v ∈ typeRange u n) :
    AnswersInForm i s (completeInRange v s) :=
  complete_inForm hi hn (canonical_cell_of_range u hn v hv.1 hv.2)

/-! ### The width checks: past them the width is at most 32 -/

theorem guardInt_inForm {t : IntType} {body : Answer} (h : t.n.toNat ≤ 32 → AnswersInForm i s body) :
    AnswersInForm i s (guardInt t s body) := by
  rw [guardInt_eq]
  exact ite_inForm (fun ht => h ((IntType.supported_iff t).1 ht)) fun _ => raise_inForm _

theorem guardFix_inForm {t : FixType} {body : Answer} (h : t.n.toNat ≤ 32 → AnswersInForm i s body) :
    AnswersInForm i s (guardFix t s body) := by
  rw [guardFix_eq]
  exact ite_inForm (fun ht => h ((FixType.supported_iff t).1 ht).1) fun _ => raise_inForm _

theorem guardCvt_inForm {t : FixType} {f2 : BitVec 6} {body : Answer} (h : t.n.toNat ≤ 32 → AnswersInForm i s body) :
    AnswersInForm i s (guardCvt t f2 s body) := by
  rw [guardCvt_eq]
  refine ite_inForm (fun ht => h ?_) fun _ => raise_inForm _
  rw [Bool.and_eq_true] at ht
  exact ((FixType.supported_iff t).1 ht.1).1

theorem guardAngle_inForm {t : FixType} {body : Answer} (h : t.n.toNat ≤ 32 → AnswersInForm i s body) :
    AnswersInForm i s (guardAngle t s body) := by
  rw [guardAngle_eq]
  refine ite_inForm (fun ht => h ?_) fun _ => raise_inForm _
  obtain ⟨-, -, hn⟩ := (FixType.angleSupported_iff t).1 ht
  omega

/-! ### Arithmetic, clamps, shifts and rotates -/

theorem wrapping_inForm (hi : i.resultType = some (u, n)) (hn : n ≤ 32) (op : Int → Int → Int) :
    AnswersInForm i s (wrapping u n op s) :=
  completeWrapped_inForm hi hn _

theorem saturating_inForm (hi : i.resultType = some (u, n)) (hn : n ≤ 32) (op : Int → Int → Int) :
    AnswersInForm i s (saturating u n op s) :=
  completeInRange_inForm hi hn (clamp_type_mem_typeRange u n _)

theorem dividing_inForm (hi : i.resultType = some (u, n)) (hn : n ≤ 32) (op : Int → Int → Int) (num : Int) :
    AnswersInForm i s (dividing u n op num s) :=
  ite_inForm (fun _ => raise_inForm _) fun _ => completeWrapped_inForm hi hn _

theorem clamping_inForm (hi : i.resultType = some (u, n)) (hn : n ≤ 32) : AnswersInForm i s (clamping u n s) := by
  rw [clamping, State.valA_eq, State.valB_eq, State.valC_eq]
  exact completeInRange_inForm hi hn
    (clamp_mem (portValue_mem_typeRange u n _) (portValue_mem_typeRange u n _) (portValue_mem_typeRange u n _))

theorem clampingZeroTo_inForm (hi : i.resultType = some (u, n)) (hn : n ≤ 32) {one : Int} (hone : 0 ≤ one) :
    AnswersInForm i s (clampingZeroTo one u n s) := by
  rw [clampingZeroTo, State.valA_eq]
  exact completeInRange_inForm hi hn (clamp_zero_mem_typeRange hone (portValue_mem_typeRange u n _))

theorem clampingWithOffset_inForm (hi : i.resultType = some (u, n)) (hn : n ≤ 32) :
    AnswersInForm i s (clampingWithOffset u n s) := by
  rw [clampingWithOffset, State.valA_eq]
  exact completeInRange_inForm hi hn (clampSwapped_mem (portValue_mem_typeRange u n _)
    (offsetBound_mem_typeRange u n _ _) (offsetBound_mem_typeRange u n _ _))

theorem shiftLeft_inForm (hi : i.resultType = some (u, n)) (hn : n ≤ 32) : AnswersInForm i s (shiftLeft u n s) :=
  ite_inForm (fun _ => raise_inForm _) fun _ => completeWrapped_inForm hi hn _

theorem shiftRight_inForm (hi : i.resultType = some (u, n)) (hn : n ≤ 32) : AnswersInForm i s (shiftRight u n s) := by
  rw [shiftRight, State.valA_eq]
  exact ite_inForm (fun _ => raise_inForm _) fun _ =>
    completeInRange_inForm hi hn (shr_mem_typeRange (portValue_mem_typeRange u n _) _)

theorem rotating_inForm (hi : i.resultType = some (u, n)) (hn : n ≤ 32) (rot : Nat → Nat → Nat → Nat) :
    AnswersInForm i s (rotating rot u n s) :=
  ite_inForm (fun _ => raise_inForm _) fun _ => completeWrapped_inForm hi hn _

/-! ### The byte codec -/

/-- Only the ToBytes pair answers with a byte array: `ceil(N / 8)` bytes and zero beyond them (20_memory.md R41, R43). -/
theorem toBytes_inForm (hi : (∃ t, i = .itobytes t ∧ t.n.toNat = n) ∨ (∃ t, i = .ftobytes t ∧ t.n.toNat = n))
    (hn : n ≤ 32) : AnswersInForm i s (toBytes u n s) := by
  have hcount := byteCount_le_four hn
  have hlen : (BitVec.ofNat 32 (byteCount n)).toNat = byteCount n := by
    rw [BitVec.toNat_ofNat, Nat.mod_eq_of_lt (by omega)]
  refine ⟨_, toBytes_eq u n s, fun cw hcw => ⟨?_, hlen.trans_le hcount, fun k hk => ?_⟩⟩
  · rcases hi with ⟨t, rfl, rfl⟩ | ⟨t, rfl, rfl⟩
    · exact .inl ⟨t, hcw, hlen⟩
    · exact .inr ⟨t, hcw, hlen⟩
  · exact getLsbD_and_byteMask _ (hlen ▸ hk)

theorem fromBytes_inForm (hi : i.resultType = some (u, n)) (hn : n ≤ 32) (accepts : Nat → Bool) :
    AnswersInForm i s (fromBytes accepts u n s) :=
  ite_inForm (fun _ => completeWrapped_inForm hi hn _) fun _ => raise_inForm _

theorem getByte_inForm (hi : i.resultType = none) : AnswersInForm i s (getByte u n s) :=
  ite_inForm (fun _ => raise_inForm _) fun _ => completeInt_inForm hi _

theorem setByte_inForm (hi : i.resultType = some (u, n)) (hn : n ≤ 32) : AnswersInForm i s (setByte u n s) :=
  ite_inForm (fun _ => raise_inForm _) fun _ => completeWrapped_inForm hi hn _

end

/-! ### Every instruction and every step -/

/-- Every instruction is answered in the form due to it: past its width check, each meaning is one of the shared ways of
answering. -/
theorem exec_inForm (i : Instr) (s : State) : AnswersInForm i s (exec i s) := by
  cases i with
  | iwrap t => exact guardInt_inForm fun hn => completeWrapped_inForm rfl hn _
  | iconst t sel => exact guardInt_inForm fun hn => completeInRange_inForm rfl hn (intConst_mem_typeRange _ _ sel)
  | iadd t | isub t | imul t => exact guardInt_inForm fun hn => wrapping_inForm rfl hn _
  | idiv t | imod t => exact guardInt_inForm fun hn => dividing_inForm rfl hn _ _
  | iaddsat t | isubsat t | imulsat t => exact guardInt_inForm fun hn => saturating_inForm rfl hn _
  | iclamp t => exact guardInt_inForm fun hn => clamping_inForm rfl hn
  | iclamp01 t => exact guardInt_inForm fun hn => clampingZeroTo_inForm rfl hn (by decide)
  | iclampofs t => exact guardInt_inForm fun hn => clampingWithOffset_inForm rfl hn
  | imulpow2 t | ishl t => exact guardInt_inForm fun hn => shiftLeft_inForm rfl hn
  | idivpow2 t | ishr t => exact guardInt_inForm fun hn => shiftRight_inForm rfl hn
  | imodpow2 t =>
    exact guardInt_inForm fun hn => ite_inForm (fun _ => raise_inForm _) fun _ => completeWrapped_inForm rfl hn _
  | irol t | iror t => exact guardInt_inForm fun hn => rotating_inForm rfl hn _
  | ipopcnt t | iparity t | ibsr t | ibsf t => exact guardInt_inForm fun _ => completeInt_inForm rfl _
  | iclz t | ictz t =>
    exact guardInt_inForm fun _ =>
      ite_inForm (fun _ => completeInt_inForm rfl _) fun _ => completeInt_inForm rfl _
  | itobytes t => exact guardInt_inForm fun hn => toBytes_inForm (.inl ⟨t, rfl, rfl⟩) hn
  | ifrombytes t => exact guardInt_inForm fun hn => fromBytes_inForm rfl hn _
  | igetbyte t => exact guardInt_inForm fun _ => getByte_inForm rfl
  | isetbyte t => exact guardInt_inForm fun hn => setByte_inForm rfl hn
  | fwrap t => exact guardFix_inForm fun hn => completeWrapped_inForm rfl hn _
  | fconst t sel => exact guardFix_inForm fun hn => completeInRange_inForm rfl hn (fixConst_mem_typeRange _ _ _ sel)
  | fadd t | fsub t | fmul t => exact guardFix_inForm fun hn => wrapping_inForm rfl hn _
  | fdiv t | fmod t => exact guardFix_inForm fun hn => dividing_inForm rfl hn _ _
  | faddsat t | fsubsat t | fmulsat t => exact guardFix_inForm fun hn => saturating_inForm rfl hn _
  | fclamp t => exact guardFix_inForm fun hn => clamping_inForm rfl hn
  | fclamp01 t => exact guardFix_inForm fun hn => clampingZeroTo_inForm rfl hn (by positivity)
  | fclampofs t => exact guardFix_inForm fun hn => clampingWithOffset_inForm rfl hn
  | fcvt t f2 => exact guardCvt_inForm fun hn => completeWrapped_inForm rfl hn _
  | ffloor t | fceil t | fround t => exact guardFix_inForm fun hn => completeWrapped_inForm rfl hn _
  | ftobytes t => exact guardFix_inForm fun hn => toBytes_inForm (.inr ⟨t, rfl, rfl⟩) hn
  | ffrombytes t => exact guardFix_inForm fun hn => fromBytes_inForm rfl hn _
  | fgetbyte t => exact guardFix_inForm fun _ => getByte_inForm rfl
  | fsetbyte t => exact guardFix_inForm fun hn => setByte_inForm rfl hn
  | sin t | cos t | asin t | acos t | atan t | atan2 t =>
    exact guardAngle_inForm fun hn => completeWrapped_inForm rfl hn _
  | tan t => exact guardAngle_inForm fun hn => completeInRange_inForm rfl hn (tanRaw_mem_typeRange _ _ _ _ _)
  | sqrt t | exp2 t | exp t | log2 t => exact guardFix_inForm fun hn => completeWrapped_inForm rfl hn _

/-- All a step can do: it gives one response, of the form due to the command word, and changes nothing else. -/
theorem step_answers_conforming (s : State) : ∃ resp, StepAnswers s resp ∧ resp.Conforms s.cw := by
  cases h : decode s.cw with
  | ok i =>
    obtain ⟨resp, hexec, hform⟩ := exec_inForm i s
    exact ⟨resp, (step_of_decode_ok h).trans hexec, hform s.cw h⟩
  | error err =>
    exact ⟨_, (step_of_decode_error h).trans (raise_eq _ s), conforms_error _ _⟩

/-- Settles O9: whatever response stood there before, the step overwrites it with one that conforms to the command word
it answers, and the command word stays. -/
theorem step_keeps_conforming : Obligations.step_keeps_conforming := by
  intro s t _ hstep
  obtain ⟨resp, hanswer, hform⟩ := step_answers_conforming s
  obtain rfl : { s with response := some resp } = t := Host.Outcome.next.inj (hanswer.symm.trans hstep)
  intro resp' hresp'
  obtain rfl : resp = resp' := Option.some.inj hresp'
  exact hform

/-! ### The status of a response (60_exceptions.md R400, R410) -/

theorem ErrorKind.code_toNat_le (kind : ErrorKind) : kind.code.toNat ≤ 5 := by
  cases kind <;> decide

theorem ErrorKind.code_ne_zero (kind : ErrorKind) : kind.code ≠ 0#3 := by
  cases kind <;> decide

theorem Response.st_toNat_le (resp : Response) : resp.st.toNat ≤ 5 := by
  cases resp with
  | word r => rw [st_word]; decide
  | bytes r r2 => rw [st_bytes]; decide
  | error kind => rw [st_error]; exact kind.code_toNat_le

/-- Status OK and a word on `r` go together. -/
theorem Response.st_eq_zero_iff (resp : Response) : resp.st = 0#3 ↔ resp.r ≠ none := by
  cases resp with
  | word r => simp
  | bytes r r2 => simp
  | error kind => simp [kind.code_ne_zero]

theorem Response.r2_eq_none_of_st_ne_zero {resp : Response} (h : resp.st ≠ 0#3) : resp.r2 = none := by
  cases resp with
  | word r => rfl
  | bytes r r2 => exact absurd (st_bytes r r2) h
  | error kind => rfl

/-- Settles O6: the step gives a response, and the status and ports of any response are as R400 and R410 say. -/
theorem every_command_is_answered : Obligations.every_command_is_answered := by
  intro s
  obtain ⟨resp, hanswer, -⟩ := step_answers_conforming s
  exact ⟨resp, hanswer, resp.st_toNat_le, resp.st_eq_zero_iff, Response.r2_eq_none_of_st_ne_zero⟩

end Sys2Proof.Machine
end

section
/-! Decoding and encoding are inverse to each other (30_encoding.md R61, R65, R66): a word with `Z = 0` is packed from its
own fields, and every row of the opcode map builds instructions that the encoder gives the opcode of that row. -/

namespace Sys2Proof

/-! ### The fields of a word (30_encoding.md R61) -/

theorem Family.bit_fieldU (w : Word) : (fieldU w).bit = w.extractLsb' 26 1 := by
  apply BitVec.eq_of_getLsbD_eq
  intro i hi
  obtain rfl : i = 0 := by omega
  rw [BitVec.getLsbD_extractLsb', fieldU]
  cases w.getLsbD 26 <;> rfl

/-- The bits of `Z` are bits 27 to 31. -/
theorem getLsbD_of_fieldZ {w : Word} (hz : fieldZ w = 0) {i : Nat} (hlo : 27 ≤ i) (hhi : i < 32) :
    w.getLsbD i = false := by
  have hbit : (fieldZ w).getLsbD (i - 27) = false := by rw [hz]; exact BitVec.getLsbD_zero
  rw [fieldZ, BitVec.getLsbD_extractLsb', decide_eq_true (show i - 27 < 5 by omega), Bool.true_and] at hbit
  rwa [Nat.add_sub_cancel' hlo] at hbit

/-- The fields cover the whole word, so a word without reserved bits is packed from its own fields. -/
theorem packWord_fields {w : Word} (hz : fieldZ w = 0) :
    packWord (fieldOP w) (fieldN w) (fieldF w) (fieldX w) (fieldU w) = w := by
  apply BitVec.eq_of_getLsbD_eq
  intro i hi
  rw [packWord, Family.bit_fieldU]
  by_cases hlow : i < 27
  · interval_cases i <;> simp [fieldOP, fieldN, fieldF, fieldX]
  · rw [getLsbD_of_fieldZ hz (by omega) hi]
    have hlo : 27 ≤ i := by omega
    interval_cases i <;> simp

/-! ### The selectors of ICONST and FCONST (40_construct_const.md R102, R103) -/

theorem intSelOf_eq_some_iff (x : BitVec 6) (sel : IntSel) : intSelOf x = some sel ↔ sel.bits = x := by
  cases sel <;> revert x <;> decide

theorem fixSelOf_eq_some_iff (x : BitVec 6) (sel : FixSel) : fixSelOf x = some sel ↔ sel.bits = x := by
  cases sel <;> revert x <;> decide

/-! ### The rows of the opcode map (30_encoding.md R66) -/

/-- What the row of the opcode `op` has to be: the encoder gives its instructions that opcode and, where they have no
such field, `F = 0` and `X = 0`; the integer opcodes are those below 0x40. -/
def OpRow.Fits (op : BitVec 8) : OpRow → Prop
  | .int mk => op.toNat < 0x40 ∧ op.toNat ≠ 0x01 ∧ ∀ t, encode (mk t) = packWord op t.n 0 0 t.u
  | .fix mk => 0x40 ≤ op.toNat ∧ op.toNat ≠ 0x41 ∧ op.toNat ≠ 0x50 ∧
    ∀ t, encode (mk t) = packWord op t.n t.f 0 t.u
  | .iconst => op = 0x01#8
  | .fconst => op = 0x41#8
  | .fcvt => op = 0x50#8

/-- Row by row: the opcodes are compared as numbers, and each instruction's word is the one the encoder packs. -/
theorem fits_of_mem_opTable : ∀ entry ∈ opTable, entry.2.Fits entry.1 := by
  simp only [opTable, opRowsIntArith, opRowsIntShift, opRowsIntBits, opRowsIntBytes, opRowsFixArith, opRowsFixRound,
    opRowsFixBytes, opRowsMath, List.forall_mem_append, List.forall_mem_cons, OpRow.Fits]
  simp [encode]

theorem fits_of_opRow {op : BitVec 8} {row : OpRow} (h : opRow op = some row) : row.Fits op := by
  obtain ⟨before, after, htable, -⟩ := List.lookup_eq_some_iff.1 h
  exact fits_of_mem_opTable (op, row) (by simp [htable])

/-! ### What a row builds: check 3 of 30_encoding.md R65 -/

section
variable (w : Word) (i : Instr)

theorem OpRow.build_int_eq_ok_iff (mk : IntType → Instr) :
    (OpRow.int mk).build w = .ok i ↔ fieldX w = 0 ∧ mk (intTypeOf w) = i := by
  simp only [build, ite_eq_iff, Except.ok.injEq, reduceCtorEq, and_false, or_false]

theorem OpRow.build_fix_eq_ok_iff (mk : FixType → Instr) :
    (OpRow.fix mk).build w = .ok i ↔ fieldX w = 0 ∧ mk (fixTypeOf w) = i := by
  simp only [build, ite_eq_iff, Except.ok.injEq, reduceCtorEq, and_false, or_false]

theorem OpRow.build_iconst_eq_ok_iff :
    OpRow.iconst.build w = .ok i ↔ ∃ sel : IntSel, sel.bits = fieldX w ∧ .iconst (intTypeOf w) sel = i := by
  simp only [build, ← intSelOf_eq_some_iff]
  cases intSelOf (fieldX w) <;> simp

theorem OpRow.build_fconst_eq_ok_iff :
    OpRow.fconst.build w = .ok i ↔ ∃ sel : FixSel, sel.bits = fieldX w ∧ .fconst (fixTypeOf w) sel = i := by
  simp only [build, ← fixSelOf_eq_some_iff]
  cases fixSelOf (fieldX w) <;> simp

theorem OpRow.build_fcvt_eq_ok_iff :
    OpRow.fcvt.build w = .ok i ↔ .fcvt (fixTypeOf w) (fieldX w) = i := by
  simp [build]

end

/-! ### What the decoder answers: the checks of 30_encoding.md R65 in their order -/

section
variable {w : Word} {row : OpRow}

theorem decode_of_reserved_bits (hz : fieldZ w ≠ 0) : decode w = .error .reservedBits := if_pos hz

theorem decode_of_reserved_opcode (hz : fieldZ w = 0) (hrow : opRow (fieldOP w) = none) :
    decode w = .error .reservedOpcode := by
  rw [decode, if_neg (not_not.2 hz), hrow]

theorem decode_of_fraction (hz : fieldZ w = 0) (hrow : opRow (fieldOP w) = some row)
    (hf : ¬((fieldOP w).toNat < 0x40 → fieldF w = 0)) : decode w = .error .fractionOnInteger := by
  rw [decode, if_neg (not_not.2 hz), hrow]
  exact if_pos (Classical.not_imp.1 hf)

theorem decode_of_checks (hz : fieldZ w = 0) (hrow : opRow (fieldOP w) = some row)
    (hf : (fieldOP w).toNat < 0x40 → fieldF w = 0) : decode w = row.build w := by
  rw [decode, if_neg (not_not.2 hz), hrow]
  exact if_neg fun h => h.2 (hf h.1)

end

/-- The words that are an instruction are those that pass all checks. -/
theorem decode_eq_ok_iff (w : Word) (i : Instr) :
    decode w = .ok i ↔ fieldZ w = 0 ∧ ∃ row, opRow (fieldOP w) = some row ∧
      ((fieldOP w).toNat < 0x40 → fieldF w = 0) ∧ row.build w = .ok i := by
  by_cases hz : fieldZ w = 0
  · cases hrow : opRow (fieldOP w) with
    | none => simp [decode_of_reserved_opcode hz hrow]
    | some row =>
      by_cases hf : (fieldOP w).toNat < 0x40 → fieldF w = 0
      · rw [decode_of_checks hz hrow hf]
        exact ⟨fun h => ⟨hz, row, rfl, hf, h⟩, fun ⟨_, _, hsame, _, h⟩ => Option.some.inj hsame ▸ h⟩
      · rw [decode_of_fraction hz hrow hf]
        exact ⟨nofun, fun ⟨_, _, _, h, _⟩ => absurd h hf⟩
  · rw [decode_of_reserved_bits hz]
    exact ⟨nofun, fun h => absurd h.1 hz⟩

/-! ### Encode, then decode -/

section
variable {op : BitVec 8}

/-- On a packed word the decoder finds the row of the opcode that was packed. -/
theorem decode_packWord {row : OpRow} (hrow : opRow op = some row) {f : BitVec 6} (hf : op.toNat < 0x40 → f = 0)
    (n x : BitVec 6) (u : Family) : decode (packWord op n f x u) = row.build (packWord op n f x u) := by
  apply decode_of_checks (fieldZ_packWord ..)
  · rwa [fieldOP_packWord]
  · rwa [fieldOP_packWord, fieldF_packWord]

theorem intTypeOf_packWord (t : IntType) (f x : BitVec 6) : intTypeOf (packWord op t.n f x t.u) = t := by
  rw [intTypeOf, fieldU_packWord, fieldN_packWord]

theorem fixTypeOf_packWord (t : FixType) (x : BitVec 6) : fixTypeOf (packWord op t.n t.f x t.u) = t := by
  rw [fixTypeOf, fieldU_packWord, fieldN_packWord, fieldF_packWord]

theorem decode_packWord_int {mk : IntType → Instr} (hrow : opRow op = some (.int mk)) (t : IntType) :
    decode (packWord op t.n 0 0 t.u) = .ok (mk t) := by
  rw [decode_packWord hrow fun _ => rfl, OpRow.build_int_eq_ok_iff, intTypeOf_packWord]
  exact ⟨fieldX_packWord .., rfl⟩

theorem decode_packWord_fix {mk : FixType → Instr} (hrow : opRow op = some (.fix mk)) (t : FixType) :
    decode (packWord op t.n t.f 0 t.u) = .ok (mk t) := by
  obtain ⟨hop, -⟩ := fits_of_opRow hrow
  rw [decode_packWord hrow fun h => absurd h (by omega), OpRow.build_fix_eq_ok_iff, fixTypeOf_packWord]
  exact ⟨fieldX_packWord .., rfl⟩

end

/-- Settles O2, by cases on the instruction: its word is packed with the opcode of its own row. -/
theorem decode_encode : Obligations.decode_encode := by
  intro i
  cases i with
  | iconst t sel =>
    rw [encode, decode_packWord (op := 0x01#8) (row := .iconst) rfl fun _ => rfl, OpRow.build_iconst_eq_ok_iff,
      intTypeOf_packWord]
    exact ⟨sel, (fieldX_packWord ..).symm, rfl⟩
  | fconst t sel =>
    rw [encode, decode_packWord (op := 0x41#8) (row := .fconst) rfl nofun, OpRow.build_fconst_eq_ok_iff,
      fixTypeOf_packWord]
    exact ⟨sel, (fieldX_packWord ..).symm, rfl⟩
  | fcvt t f2 =>
    rw [encode, decode_packWord (op := 0x50#8) (row := .fcvt) rfl nofun, OpRow.build_fcvt_eq_ok_iff, fixTypeOf_packWord,
      fieldX_packWord]
  | iwrap t | iadd t | isub t | imul t | idiv t | imod t | iaddsat t | isubsat t | imulsat t | iclamp t | iclamp01 t
  | iclampofs t | imulpow2 t | idivpow2 t | ishl t | ishr t | imodpow2 t | irol t | iror t | ipopcnt t | iparity t
  | iclz t | ictz t | ibsr t | ibsf t | itobytes t | ifrombytes t | igetbyte t | isetbyte t =>
    exact decode_packWord_int rfl t
  | fwrap t | fadd t | fsub t | fmul t | fdiv t | fmod t | faddsat t | fsubsat t | fmulsat t | fclamp t | fclamp01 t
  | fclampofs t | ffloor t | fceil t | fround t | ftobytes t | ffrombytes t | fgetbyte t | fsetbyte t | sin t | cos t
  | tan t | asin t | acos t | atan t | atan2 t | sqrt t | exp2 t | exp t | log2 t =>
    exact decode_packWord_fix rfl t

/-! ### Decode, then encode -/

/-- Settles O3, by cases on the row of the word's opcode: its instruction is packed from the fields of the word, and the
fields that it does not have are 0 by the checks of the decoder. -/
theorem encode_decode : Obligations.encode_decode := by
  intro w i hdecode
  obtain ⟨hz, row, hrow, hf, hbuild⟩ := (decode_eq_ok_iff w i).1 hdecode
  have hfits := fits_of_opRow hrow
  have hpack := packWord_fields hz
  cases row with
  | int mk =>
    obtain ⟨hx, rfl⟩ := (OpRow.build_int_eq_ok_iff w i mk).1 hbuild
    obtain ⟨hop, -, hencode⟩ := hfits
    rw [hf hop, hx] at hpack
    exact (hencode _).trans hpack
  | fix mk =>
    obtain ⟨hx, rfl⟩ := (OpRow.build_fix_eq_ok_iff w i mk).1 hbuild
    obtain ⟨-, -, -, hencode⟩ := hfits
    rw [hx] at hpack
    exact (hencode _).trans hpack
  | iconst =>
    obtain ⟨sel, hx, rfl⟩ := (OpRow.build_iconst_eq_ok_iff w i).1 hbuild
    have hop : fieldOP w = 0x01#8 := hfits
    rwa [hf (by rw [hop]; decide), ← hx, hop] at hpack
  | fconst =>
    obtain ⟨sel, hx, rfl⟩ := (OpRow.build_fconst_eq_ok_iff w i).1 hbuild
    have hop : fieldOP w = 0x41#8 := hfits
    rwa [← hx, hop] at hpack
  | fcvt =>
    obtain rfl := (OpRow.build_fcvt_eq_ok_iff w i).1 hbuild
    have hop : fieldOP w = 0x50#8 := hfits
    rwa [hop] at hpack

/-- Settles O1: each of these words is the one that the encoder packs from the fields of the instruction. -/
theorem decode_written_words : Obligations.decode_written_words := by
  have hdecode {w : Word} {i : Instr} (h : encode i = w) : decode w = .ok i := h ▸ decode_encode i
  exact ⟨hdecode rfl, hdecode rfl, hdecode rfl, hdecode rfl, hdecode rfl, hdecode rfl, hdecode rfl, hdecode rfl,
    hdecode rfl⟩

end Sys2Proof
end

section
/-! What serving an instruction depends on (30_encoding.md R62, R65, R66, R67): two requests that agree on the ports an
instruction names are given the same response, and that response is never IllegalCommand. -/

namespace Sys2Proof.Machine

/-- The answer `x` to the request `s` and the answer `y` to the request `s'` give one response, which is not
IllegalCommand, and change nothing else. -/
def ServedAlike (s s' : State) (x y : Answer) : Prop :=
  ∃ resp, resp ≠ .error .illegalCommand ∧ x = .next (s.respond resp) ∧ y = .next (s'.respond resp)

section
variable {s s' : State}

/-- Answering twice is the same only with the same response. -/
theorem next_respond_inj {resp resp' : Response} :
    (.next (s.respond resp) : Answer) = .next (s.respond resp') ↔ resp = resp' := by
  simp [State.respond]

theorem ServedAlike.next_iff {x y : Answer} (h : ServedAlike s s' x y) (resp : Response) :
    x = .next (s.respond resp) ↔ y = .next (s'.respond resp) := by
  obtain ⟨given, -, rfl, rfl⟩ := h
  rw [next_respond_inj, next_respond_inj]

theorem ServedAlike.ne_illegalCommand {x y : Answer} (h : ServedAlike s s' x y) :
    x ≠ .next (s.respond (.error .illegalCommand)) := by
  obtain ⟨given, hgiven, rfl, -⟩ := h
  rwa [Ne, next_respond_inj]

/-! ### The ways of answering -/

theorem raise_alike {kind : ErrorKind} (hkind : kind ≠ .illegalCommand) :
    ServedAlike s s' (raise kind s) (raise kind s') :=
  ⟨.error kind, fun h => hkind (Response.error.inj h), rfl, rfl⟩

theorem complete_alike {r : Word} : ServedAlike s s' (complete r s) (complete r s') := ⟨.word r, nofun, rfl, rfl⟩

theorem completeBytes_alike {r r2 : Word} : ServedAlike s s' (completeBytes r r2 s) (completeBytes r r2 s') :=
  ⟨.bytes r r2, nofun, rfl, rfl⟩

theorem ite_alike {c : Prop} [Decidable c] {x x' y y' : Answer} (hx : ServedAlike s s' x x')
    (hy : ServedAlike s s' y y') : ServedAlike s s' (if c then x else y) (if c then x' else y') := by
  split
  · exact hx
  · exact hy

/-! ### The checks: a divisor, a count, an index or a length outside the domain, and the widths -/

section
variable {c : Prop} [Decidable c] {body body' : Answer}

theorem raise_or_alike {kind : ErrorKind} (hkind : kind ≠ .illegalCommand) (hbody : ServedAlike s s' body body') :
    ServedAlike s s' (if c then raise kind s else body) (if c then raise kind s' else body') :=
  ite_alike (raise_alike hkind) hbody

theorem guardInt_alike {t : IntType} (hbody : ServedAlike s s' body body') :
    ServedAlike s s' (guardInt t s body) (guardInt t s' body') := raise_or_alike nofun hbody

theorem guardFix_alike {t : FixType} (hbody : ServedAlike s s' body body') :
    ServedAlike s s' (guardFix t s body) (guardFix t s' body') := raise_or_alike nofun hbody

theorem guardCvt_alike {t : FixType} {f2 : BitVec 6} (hbody : ServedAlike s s' body body') :
    ServedAlike s s' (guardCvt t f2 s body) (guardCvt t f2 s' body') := raise_or_alike nofun hbody

theorem guardAngle_alike {t : FixType} (hbody : ServedAlike s s' body body') :
    ServedAlike s s' (guardAngle t s body) (guardAngle t s' body') := guardFix_alike (raise_or_alike nofun hbody)

end

end

/-! ### Every instruction -/

/-- The request with only the first `count` operand ports as they are; the others hold 0. -/
def State.onlyPorts (s : State) (count : Nat) : State :=
  { s with
    a := if 1 ≤ count then s.a else 0
    b := if 2 ≤ count then s.b else 0
    c := if 3 ≤ count then s.c else 0
    d := if 4 ≤ count then s.d else 0
    e := if 5 ≤ count then s.e else 0 }

/-- Each meaning reads the ports that its instruction names and no others, so without the other ports it makes the same
checks and completes with the same word. -/
theorem exec_onlyPorts_alike (i : Instr) (s : State) :
    ServedAlike s (s.onlyPorts i.portCount) (exec i s) (exec i (s.onlyPorts i.portCount)) := by
  cases i with
  | iconst t sel => exact guardInt_alike complete_alike
  | iwrap t | iadd t | isub t | imul t | iaddsat t | isubsat t | imulsat t | iclamp t | iclamp01 t | iclampofs t
  | ipopcnt t | iparity t | ibsr t | ibsf t =>
    exact guardInt_alike complete_alike
  | idiv t | imod t | imulpow2 t | idivpow2 t | ishl t | ishr t | imodpow2 t | irol t | iror t | igetbyte t
  | isetbyte t =>
    exact guardInt_alike (raise_or_alike nofun complete_alike)
  | iclz t | ictz t => exact guardInt_alike (ite_alike complete_alike complete_alike)
  | itobytes t => exact guardInt_alike completeBytes_alike
  | ifrombytes t => exact guardInt_alike (ite_alike complete_alike (raise_alike nofun))
  | fconst t sel => exact guardFix_alike complete_alike
  | fwrap t | fadd t | fsub t | fmul t | faddsat t | fsubsat t | fmulsat t | fclamp t | fclamp01 t | fclampofs t
  | ffloor t | fceil t | fround t | sqrt t | exp2 t | exp t | log2 t =>
    exact guardFix_alike complete_alike
  | fdiv t | fmod t | fgetbyte t | fsetbyte t => exact guardFix_alike (raise_or_alike nofun complete_alike)
  | fcvt t f2 => exact guardCvt_alike complete_alike
  | ftobytes t => exact guardFix_alike completeBytes_alike
  | ffrombytes t => exact guardFix_alike (ite_alike complete_alike (raise_alike nofun))
  | sin t | cos t | tan t | asin t | acos t | atan t | atan2 t => exact guardAngle_alike complete_alike

theorem answers_onlyPorts_iff (i : Instr) (s : State) (resp : Response) :
    Answers i s resp ↔ Answers i (s.onlyPorts i.portCount) resp :=
  (exec_onlyPorts_alike i s).next_iff resp

/-- Settles O8: a request is answered as it is without the ports that the instruction does not name, and without those
the two requests are the same. -/
theorem unnamed_ports_are_ignored : Obligations.unnamed_ports_are_ignored := by
  intro i s a b c d e resp ha hb hc hd he hanswers
  have hsame : ({ s with a := a, b := b, c := c, d := d, e := e } : State).onlyPorts i.portCount =
      s.onlyPorts i.portCount := by
    simp only [State.onlyPorts, State.mk.injEq, true_and, and_true]
    exact ⟨ite_congr rfl ha fun _ => rfl, ite_congr rfl hb fun _ => rfl, ite_congr rfl hc fun _ => rfl,
      ite_congr rfl hd fun _ => rfl, ite_congr rfl he fun _ => rfl⟩
  rw [answers_onlyPorts_iff, hsame]
  exact (answers_onlyPorts_iff i s resp).1 hanswers

end Sys2Proof.Machine
end

section
/-! IllegalCommand is the answer to the words that are no instruction and to no others (30_encoding.md R62, R65, R67,
60_exceptions.md R405). -/

namespace Sys2Proof

/-! ### The words that decode, by the numbers in their fields -/

/-- The gaps in the opcode map (30_encoding.md R67). -/
def ReservedOpcode (op : Nat) : Prop :=
  (0x0D ≤ op ∧ op ≤ 0x0F) ∨ (0x17 ≤ op ∧ op ≤ 0x1F) ∨ (0x26 ≤ op ∧ op ≤ 0x2F) ∨ (0x34 ≤ op ∧ op ≤ 0x3F) ∨
  (0x4D ≤ op ∧ op ≤ 0x4F) ∨ (0x54 ≤ op ∧ op ≤ 0x5F) ∨ (0x64 ≤ op ∧ op ≤ 0x6F) ∨ 0x7B ≤ op

/-- The values of `X` that an opcode allows (40_construct_const.md R102, R103, 45_fixed_round.md R230; 0 elsewhere). -/
def AuxAllowed (op x : Nat) : Prop :=
  (op = 0x01 → x = 0 ∨ x = 2 ∨ x = 3) ∧ (op = 0x41 → x ≤ 3) ∧ (op ≠ 0x01 → op ≠ 0x41 → op ≠ 0x50 → x = 0)

theorem not_auxAllowed_iff (op x : Nat) :
    ¬AuxAllowed op x ↔ (op = 0x01 ∧ x ≠ 0 ∧ x ≠ 2 ∧ x ≠ 3) ∨ (op = 0x41 ∧ 3 < x) ∨
      (op ≠ 0x01 ∧ op ≠ 0x41 ∧ op ≠ 0x50 ∧ x ≠ 0) := by
  unfold AuxAllowed
  omega

/-- Rows whose opcodes run on without a gap from `first` on. -/
theorem lookup_eq_none_iff_of_run {rows : List (BitVec 8 × OpRow)} {first count : Nat}
    (hrun : rows.map (fun entry => entry.1.toNat) = List.range' first count) (op : BitVec 8) :
    rows.lookup op = none ↔ op.toNat < first ∨ first + count ≤ op.toNat := by
  have hmem : op.toNat ∈ List.range' first count ↔ ∃ entry ∈ rows, op = entry.1 := by
    rw [← hrun, List.mem_map]
    simp only [BitVec.toNat_inj, eq_comm]
  rw [List.lookup_eq_none_iff, ← not_iff_not]
  simp only [bne_iff_ne, not_forall, not_not, exists_prop, ← hmem, List.mem_range'_1]
  omega

/-- The opcode map is eight such runs, one to each value of the upper four bits but 8 to 15. -/
theorem opRow_eq_none_iff (op : BitVec 8) : opRow op = none ↔ ReservedOpcode op.toNat := by
  simp only [opRow, opTable, List.lookup_append, Option.or_eq_none_iff,
    lookup_eq_none_iff_of_run (rows := opRowsIntArith) (first := 0x00) (count := 13) rfl,
    lookup_eq_none_iff_of_run (rows := opRowsIntShift) (first := 0x10) (count := 7) rfl,
    lookup_eq_none_iff_of_run (rows := opRowsIntBits) (first := 0x20) (count := 6) rfl,
    lookup_eq_none_iff_of_run (rows := opRowsIntBytes) (first := 0x30) (count := 4) rfl,
    lookup_eq_none_iff_of_run (rows := opRowsFixArith) (first := 0x40) (count := 13) rfl,
    lookup_eq_none_iff_of_run (rows := opRowsFixRound) (first := 0x50) (count := 4) rfl,
    lookup_eq_none_iff_of_run (rows := opRowsFixBytes) (first := 0x60) (count := 4) rfl,
    lookup_eq_none_iff_of_run (rows := opRowsMath) (first := 0x70) (count := 11) rfl, ReservedOpcode]
  omega

theorem exists_intSel_bits_iff (x : BitVec 6) :
    (∃ sel : IntSel, sel.bits = x) ↔ x.toNat = 0 ∨ x.toNat = 2 ∨ x.toNat = 3 := by
  constructor
  · rintro ⟨sel, rfl⟩
    cases sel <;> decide
  · rintro (h | h | h)
    · exact ⟨.zero, BitVec.eq_of_toNat_eq h.symm⟩
    · exact ⟨.min, BitVec.eq_of_toNat_eq h.symm⟩
    · exact ⟨.max, BitVec.eq_of_toNat_eq h.symm⟩

theorem exists_fixSel_bits_iff (x : BitVec 6) : (∃ sel : FixSel, sel.bits = x) ↔ x.toNat ≤ 3 := by
  constructor
  · rintro ⟨sel, rfl⟩
    cases sel <;> decide
  · intro h
    obtain h | h | h | h : x.toNat = 0 ∨ x.toNat = 1 ∨ x.toNat = 2 ∨ x.toNat = 3 := by omega
    · exact ⟨.zero, BitVec.eq_of_toNat_eq h.symm⟩
    · exact ⟨.one, BitVec.eq_of_toNat_eq h.symm⟩
    · exact ⟨.min, BitVec.eq_of_toNat_eq h.symm⟩
    · exact ⟨.max, BitVec.eq_of_toNat_eq h.symm⟩

/-- Check 3 passes for the values of `X` that the row's opcode allows. -/
theorem exists_build_iff {op : BitVec 8} {row : OpRow} (hfits : row.Fits op) (w : Word) :
    (∃ i, row.build w = .ok i) ↔ AuxAllowed op.toNat (fieldX w).toNat := by
  have hzero : fieldX w = 0 ↔ (fieldX w).toNat = 0 := BitVec.toNat_inj.symm
  cases row with
  | int mk =>
    obtain ⟨hlow, hne, -⟩ := hfits
    simp only [OpRow.build_int_eq_ok_iff, exists_and_left, exists_eq', and_true, AuxAllowed, hzero]
    omega
  | fix mk =>
    obtain ⟨hhigh, hne, hne', -⟩ := hfits
    simp only [OpRow.build_fix_eq_ok_iff, exists_and_left, exists_eq', and_true, AuxAllowed, hzero]
    omega
  | iconst =>
    obtain rfl : op = 0x01#8 := hfits
    simp only [OpRow.build_iconst_eq_ok_iff]
    rw [exists_comm]
    simp [exists_intSel_bits_iff, AuxAllowed]
  | fconst =>
    obtain rfl : op = 0x41#8 := hfits
    simp only [OpRow.build_fconst_eq_ok_iff]
    rw [exists_comm]
    simp [exists_fixSel_bits_iff, AuxAllowed]
  | fcvt =>
    obtain rfl : op = 0x50#8 := hfits
    simp [OpRow.build_fcvt_eq_ok_iff, AuxAllowed]

/-- The words that are an instruction, by the rules of 30_encoding.md R67. -/
theorem exists_decode_iff (w : Word) :
    (∃ i, decode w = .ok i) ↔ (fieldZ w).toNat = 0 ∧ ¬ReservedOpcode (fieldOP w).toNat ∧
      ((fieldOP w).toNat < 0x40 → (fieldF w).toNat = 0) ∧ AuxAllowed (fieldOP w).toNat (fieldX w).toNat := by
  have hz : fieldZ w = 0 ↔ (fieldZ w).toNat = 0 := BitVec.toNat_inj.symm
  have hf : fieldF w = 0 ↔ (fieldF w).toNat = 0 := BitVec.toNat_inj.symm
  rw [← opRow_eq_none_iff, ← hz, ← hf]
  simp only [decode_eq_ok_iff, exists_and_left]
  cases hrow : opRow (fieldOP w) with
  | none => simp
  | some row => simp [exists_build_iff (fits_of_opRow hrow)]

/-! ### The fields as numbers (30_encoding.md R61) -/

theorem toNat_fieldOP (w : Word) : (fieldOP w).toNat = w.toNat % 2 ^ 8 := by
  rw [fieldOP, BitVec.extractLsb'_toNat, Nat.shiftRight_zero]

theorem toNat_fieldF (w : Word) : (fieldF w).toNat = w.toNat / 2 ^ 14 % 2 ^ 6 := by
  rw [fieldF, BitVec.extractLsb'_toNat, Nat.shiftRight_eq_div_pow]

theorem toNat_fieldX (w : Word) : (fieldX w).toNat = w.toNat / 2 ^ 20 % 2 ^ 6 := by
  rw [fieldX, BitVec.extractLsb'_toNat, Nat.shiftRight_eq_div_pow]

/-- `Z` is the top field, so nothing stands above it. -/
theorem toNat_fieldZ (w : Word) : (fieldZ w).toNat = w.toNat / 2 ^ 27 := by
  have hw := w.isLt
  rw [fieldZ, BitVec.extractLsb'_toNat, Nat.shiftRight_eq_div_pow, Nat.mod_eq_of_lt (by omega)]

namespace Machine

/-! ### The step -/

/-- Settles O5: the step decodes the word on the command port and serves the instruction or raises IllegalCommand. -/
theorem step_runs_decoded_command : Obligations.step_runs_decoded_command :=
  ⟨fun _ _ h => step_of_decode_ok h, fun s _ h => (step_of_decode_error h).trans (raise_eq .illegalCommand s)⟩

/-- Serving an instruction never ends in IllegalCommand, so only the decoder's refusal does. -/
theorem stepAnswers_illegalCommand_iff (s : State) :
    StepAnswers s (.error .illegalCommand) ↔ ¬∃ i, decode s.cw = .ok i := by
  constructor
  · rintro hanswer ⟨i, hi⟩
    exact (exec_onlyPorts_alike i s).ne_illegalCommand ((step_of_decode_ok hi).symm.trans hanswer)
  · intro h
    cases hdecode : decode s.cw with
    | ok i => exact absurd ⟨i, hdecode⟩ h
    | error err => exact step_runs_decoded_command.2 s err hdecode

/-- Settles O4: IllegalCommand answers the words that do not decode, which are told by the numbers in their fields. -/
theorem illegal_command_exactly : Obligations.illegal_command_exactly := by
  intro s w op f x z
  rw [stepAnswers_illegalCommand_iff, exists_decode_iff, toNat_fieldZ, toNat_fieldOP, toNat_fieldF, toNat_fieldX]
  change ¬(z = 0 ∧ ¬ReservedOpcode op ∧ (op < 0x40 → f = 0) ∧ AuxAllowed op x) ↔ _
  simp only [not_and_or, not_not, Classical.not_imp, not_auxAllowed_iff, ReservedOpcode, or_assoc, ne_eq]

end Machine

end Sys2Proof
end

section
/-! Construction and constants (40_construct_const.md R100 to R103). IWRAP and FWRAP are one law over the port's low `N`
bits, from which idempotence follows for both; a constant is stored as it is, so each selector needs only its number. -/

namespace Sys2Proof.Machine

/-! ### Past the width check -/

theorem guardInt_of_supported {t : IntType} (ht : t.supported = true) (s : State) (body : Answer) :
    guardInt t s body = body := by
  rw [guardInt_eq, if_pos ht]

theorem guardFix_of_supported {t : FixType} (ht : t.supported = true) (s : State) (body : Answer) :
    guardFix t s body = body := by
  rw [guardFix_eq, if_pos ht]

/-- A request is answered with one word only. -/
theorem AnswersWord.unique {i : Instr} {s : State} {r r' : Word} (h : AnswersWord i s r) (h' : AnswersWord i s r') :
    r = r' :=
  Response.word.inj (next_respond_inj.1 (h.symm.trans h'))

/-! ### Registers, cells and plain integers -/

/-- A plain integer operand is the port sign-extended (30_encoding.md R63, kind I), which its low `n` bits do not show. -/
theorem ofInt_operandI {n : Nat} (hn : n ≤ 32) (p : Word) : BitVec.ofInt n (operandI p) = regBits n p :=
  BitVec.signExtend_eq_setWidth_of_le p hn

/-- The storage cell keeps the register it extends (10_state.md R21, R22). -/
theorem regBits_storeBits (u : Family) {n : Nat} (hn : n ≤ 32) (x : BitVec n) : regBits n (storeBits u x) = x := by
  cases u with
  | signed =>
    calc regBits n (x.signExtend 32)
      _ = BitVec.ofInt n (x.signExtend 32).toInt := (ofInt_operandI hn _).symm
      _ = BitVec.ofInt n x.toInt := by rw [BitVec.toInt_signExtend_of_le hn]
      _ = x := BitVec.ofInt_toInt
  | unsigned => exact (BitVec.setWidth_setWidth_of_le x hn).trans (BitVec.setWidth_eq x)

/-- The raw `2^F` in an N-bit register is bit `F` alone, and no bit when it lies outside (90_conflicts.md C6). -/
theorem ofInt_two_pow (n k : Nat) : BitVec.ofInt n (2 ^ k) = 1#n <<< k := by
  rw [← BitVec.twoPow_eq]
  apply BitVec.eq_of_toNat_eq
  rw [BitVec.toNat_twoPow, BitVec.toNat_ofInt]
  norm_cast

/-! ### Construction -/

theorem answersWord_iwrap {t : IntType} (ht : t.supported = true) (s : State) :
    AnswersWord (.iwrap t) s (storeBits t.u (regBits t.n.toNat s.a)) := by
  change execIwrap t s = _
  rw [execIwrap, guardInt_of_supported ht, completeWrapped_eq, ofInt_operandI ((IntType.supported_iff t).1 ht)]

theorem answersWord_fwrap {t : FixType} (ht : t.supported = true) (s : State) :
    AnswersWord (.fwrap t) s (storeBits t.u (regBits t.n.toNat s.a)) := by
  change execFwrap t s = _
  obtain ⟨hn, -⟩ := (FixType.supported_iff t).1 ht
  rw [execFwrap, guardFix_of_supported ht, completeWrapped_eq, ofInt_operandI hn]

/-- Settles O15: both families read a plain integer, of which only the low `N` bits reach the register. -/
theorem wrap_construction : Obligations.wrap_construction :=
  ⟨fun _ s ht => answersWord_iwrap ht s, fun _ s ht => answersWord_fwrap ht s⟩

/-- An instruction that stores the low `n` bits of port `a` is idempotent: the word it answers has those same low bits. -/
theorem answersWord_again {i : Instr} {u : Family} {n : Nat} (hn : n ≤ 32)
    (hstores : ∀ s : State, AnswersWord i s (storeBits u (regBits n s.a))) {s : State} {r : Word}
    (h : AnswersWord i s r) : AnswersWord i { s with a := r } r := by
  obtain rfl : r = storeBits u (regBits n s.a) := h.unique (hstores s)
  have hagain := hstores { s with a := storeBits u (regBits n s.a) }
  rwa [regBits_storeBits u hn] at hagain

/-- Settles O16: both operations store the low `N` bits of port `a`. -/
theorem wrap_is_idempotent : Obligations.wrap_is_idempotent :=
  ⟨fun t _ _ ht => answersWord_again ((IntType.supported_iff t).1 ht) (answersWord_iwrap ht),
    fun t _ _ ht => answersWord_again ((FixType.supported_iff t).1 ht).1 (answersWord_fwrap ht)⟩

/-! ### Constants -/

theorem answersWord_iconst {t : IntType} (ht : t.supported = true) (sel : IntSel) (s : State) :
    AnswersWord (.iconst t sel) s (cell (intConst t.u t.n.toNat sel)) :=
  guardInt_of_supported ht s _

theorem answersWord_fconst {t : FixType} (ht : t.supported = true) (sel : FixSel) (s : State) :
    AnswersWord (.fconst t sel) s (cell (fixConst t.u t.n.toNat t.f.toNat sel)) :=
  guardFix_of_supported ht s _

/-- Settles O17, selector by selector. -/
theorem integer_constants : Obligations.integer_constants := by
  intro t s ht
  rw [← tmin_eq, ← tmax_eq]
  exact ⟨answersWord_iconst ht .zero s, answersWord_iconst ht .min s, answersWord_iconst ht .max s⟩

/-- Settles O18, selector by selector: only ONE passes through the constructor. -/
theorem fixed_constants : Obligations.fixed_constants := by
  intro t s ht
  rw [← tmin_eq, ← tmax_eq, ← ofInt_two_pow, ← cell_wrap]
  exact ⟨answersWord_fconst ht .zero s, answersWord_fconst ht .one s, answersWord_fconst ht .min s,
    answersWord_fconst ht .max s⟩

end Sys2Proof.Machine
end

section
/-! Integer arithmetic (41_int_arith.md R120 to R128): the exact integer operation, truncated to `n` bits, is the operation
of the N-bit register. The lemmas on the shared operations serve the fixed-point twins (44_fixed_arith.md R205) as well. -/

namespace Sys2Proof.Machine

/-! ### Truncation commutes with the register operations -/

theorem ofInt_sub (n : Nat) (x y : Int) : BitVec.ofInt n (x - y) = BitVec.ofInt n x - BitVec.ofInt n y := by
  rw [BitVec.eq_sub_iff_add_eq, ← BitVec.ofInt_add, Int.sub_add_cancel]

/-- The remainder of the spec is the truncated one, whose sign is the dividend's (00_scope.md R17). -/
theorem trem_eq_tmod (a b : Int) : trem a b = a.tmod b :=
  (Int.tmod_def a b).symm

/-- The one quotient outside the register, the least number by −1, wraps on both sides (41_int_arith.md R123). -/
theorem ofInt_tdiv_toInt {n : Nat} (x y : BitVec n) : BitVec.ofInt n (tdiv x.toInt y.toInt) = x.sdiv y := by
  apply BitVec.eq_of_toInt_eq
  rw [tdiv, BitVec.toInt_ofInt, BitVec.toInt_sdiv]

theorem ofInt_tdiv_toNat {n : Nat} (x y : BitVec n) : BitVec.ofInt n (tdiv x.toNat y.toNat) = x.udiv y := by
  rw [tdiv, ← Int.ofNat_tdiv, BitVec.ofInt_natCast, BitVec.udiv_eq, BitVec.udiv_def]

theorem ofInt_trem_toInt {n : Nat} (x y : BitVec n) : BitVec.ofInt n (trem x.toInt y.toInt) = x.srem y := by
  rw [trem_eq_tmod, ← BitVec.toInt_srem, BitVec.ofInt_toInt]

theorem ofInt_trem_toNat {n : Nat} (x y : BitVec n) : BitVec.ofInt n (trem x.toNat y.toNat) = x.umod y := by
  rw [trem_eq_tmod, ← Int.ofNat_tmod, BitVec.ofInt_natCast, BitVec.umod_eq, BitVec.umod_def]

/-! ### Ring operations -/

section
variable (u : Family) (n : Nat) (s : State)

theorem wrapping_add : wrapping u n (fun x y => x + y) s =
    .next { s with response := some (.word (storeBits u (regBits n s.a + regBits n s.b))) } := by
  rw [wrapping_eq, BitVec.ofInt_add, ofInt_portValue, ofInt_portValue]

theorem wrapping_sub : wrapping u n (fun x y => x - y) s =
    .next { s with response := some (.word (storeBits u (regBits n s.a - regBits n s.b))) } := by
  rw [wrapping_eq, ofInt_sub, ofInt_portValue, ofInt_portValue]

theorem wrapping_mul : wrapping u n (fun x y => x * y) s =
    .next { s with response := some (.word (storeBits u (regBits n s.a * regBits n s.b))) } := by
  rw [wrapping_eq, BitVec.ofInt_mul, ofInt_portValue, ofInt_portValue]

end

/-- Settles O19: truncation to `N` bits is a ring homomorphism, one lemma per operation. -/
theorem integer_ring_operations : Obligations.integer_ring_operations := by
  intro t s ht
  exact ⟨(guardInt_of_supported ht s _).trans (wrapping_add _ _ s),
    (guardInt_of_supported ht s _).trans (wrapping_sub _ _ s),
    (guardInt_of_supported ht s _).trans (wrapping_mul _ _ s)⟩

/-! ### Division and remainder -/

theorem dividing_of_zero {u : Family} {n : Nat} {s : State} (hzero : regBits n s.b = 0#n) (op : Int → Int → Int)
    (num : Int) : dividing u n op num s = .next { s with response := some (.error .divisionByZero) } := by
  rw [dividing_eq, if_pos hzero]

theorem dividing_of_ne_zero {u : Family} {n : Nat} {s : State} (hne : regBits n s.b ≠ 0#n) (op : Int → Int → Int)
    (num : Int) : dividing u n op num s =
      .next { s with response := some (.word (storeBits u (BitVec.ofInt n (op num (portValue u n s.b))))) } := by
  rw [dividing_eq, if_neg hne]

/-- What O21 and O22 share: DivisionByZero, or the register operation that `op` truncates to in the type's own family. -/
theorem division_answers {t : IntType} (ht : t.supported = true) {i : Instr} {s : State} {op : Int → Int → Int}
    (hexec : exec i s = guardInt t s (dividing t.u t.n.toNat op (s.valA t.u t.n.toNat) s))
    {signedOp unsignedOp : BitVec t.n.toNat → BitVec t.n.toNat → BitVec t.n.toNat}
    (hsigned : ∀ x y : BitVec t.n.toNat, BitVec.ofInt t.n.toNat (op x.toInt y.toInt) = signedOp x y)
    (hunsigned : ∀ x y : BitVec t.n.toNat, BitVec.ofInt t.n.toNat (op x.toNat y.toNat) = unsignedOp x y) :
    (regBits t.n.toNat s.b = 0#_ → Raises i s .divisionByZero) ∧
    (regBits t.n.toNat s.b ≠ 0#_ →
      (t.u = .signed → AnswersWord i s
        (storeBits .signed (signedOp (regBits t.n.toNat s.a) (regBits t.n.toNat s.b)))) ∧
      (t.u = .unsigned → AnswersWord i s
        (storeBits .unsigned (unsignedOp (regBits t.n.toNat s.a) (regBits t.n.toNat s.b))))) := by
  rw [guardInt_of_supported ht] at hexec
  refine ⟨fun hzero => hexec.trans (dividing_of_zero hzero _ _), fun hne => ?_⟩
  rw [dividing_of_ne_zero hne, State.valA_eq] at hexec
  constructor
  · intro hu
    rw [← hsigned]
    rwa [hu] at hexec
  · intro hu
    rw [← hunsigned]
    rwa [hu] at hexec

/-- Settles O21: the truncated quotient is the signed or the unsigned division of registers. -/
theorem integer_division : Obligations.integer_division :=
  fun _ _ ht => division_answers ht rfl ofInt_tdiv_toInt ofInt_tdiv_toNat

/-- Settles O22: the truncated remainder is the signed or the unsigned remainder of registers. -/
theorem integer_remainder : Obligations.integer_remainder :=
  fun _ _ ht => division_answers ht rfl ofInt_trem_toInt ofInt_trem_toNat

/-! ### Saturation -/

/-- Settles O26: each operation saturates its exact result. -/
theorem integer_saturation : Obligations.integer_saturation := by
  intro t s ht
  exact ⟨(guardInt_of_supported ht s _).trans (saturating_eq _ _ _ s),
    (guardInt_of_supported ht s _).trans (saturating_eq _ _ _ s),
    (guardInt_of_supported ht s _).trans (saturating_eq _ _ _ s)⟩

/-- The low `n` bits of the cell that carries `v` are the register that `v` truncates to. -/
theorem regBits_ofInt {n : Nat} (hn : n ≤ 32) (v : Int) : regBits n (BitVec.ofInt 32 v) = BitVec.ofInt n v := by
  apply BitVec.eq_of_toInt_eq
  rw [← ofInt_operandI hn, operandI_eq]
  simp only [BitVec.toInt_ofInt]
  rw [Int.bmod_bmod_of_dvd (pow_dvd_pow 2 hn)]

/-- A port that carries a number of the type is read as that number (10_state.md R20, R24). -/
theorem portValue_ofInt {u : Family} {n : Nat} (hn : n ≤ 32) {v : Int} (hv : v ∈ typeRange u n) :
    portValue u n (BitVec.ofInt 32 v) = v := by
  rw [portValue, regBits_ofInt hn, ← wrap_eq_regValue, wrap_of_range u n v hv.1 hv.2]

theorem limit_of_greatestValue_le {u : Family} {n : Nat} {v : Int} (h : greatestValue u n ≤ v) :
    limit u n v = greatestValue u n := by
  rw [limit, min_eq_right h, max_eq_right (leastValue_le_greatestValue u n)]

theorem limit_of_le_leastValue {u : Family} {n : Nat} {v : Int} (h : v ≤ leastValue u n) :
    limit u n v = leastValue u n := by
  rw [limit, max_eq_left ((min_le_left _ _).trans h)]

/-- Settles O28: in a type that holds 1 the ports are read as the bound and 1, and the exact result lies past the bound. -/
theorem saturation_at_the_bounds : Obligations.saturation_at_the_bounds := by
  intro t s ht hone hb
  have hn := (IntType.supported_iff t).1 ht
  have hbounds := leastValue_le_greatestValue t.u t.n.toNat
  have hbVal : portValue t.u t.n.toNat s.b = 1 := by
    rw [hb]
    exact portValue_ofInt hn ⟨(zero_mem_typeRange t.u t.n.toNat).1.trans (by decide), hone⟩
  obtain ⟨hadd, hsub, -⟩ := integer_saturation t s ht
  rw [hbVal] at hadd hsub
  constructor
  · intro ha
    have haVal : portValue t.u t.n.toNat s.a = greatestValue t.u t.n.toNat := by
      rw [ha]
      exact portValue_ofInt hn ⟨hbounds, le_rfl⟩
    rwa [haVal, limit_of_greatestValue_le (by omega), ← ha] at hadd
  · intro ha
    have haVal : portValue t.u t.n.toNat s.a = leastValue t.u t.n.toNat := by
      rw [ha]
      exact portValue_ofInt hn ⟨le_rfl, hbounds⟩
    rwa [haVal, limit_of_le_leastValue (by omega), ← ha] at hsub

end Sys2Proof.Machine
end

section
/-! Clamps (41_int_arith.md R130 to R132, 44_fixed_arith.md R210 to R212): an integer clamp and its fixed-point twin are
one shared operation, so each law is stated once and read behind both width checks. -/

namespace Sys2Proof.Machine

/-- A clamp of three port values picks one of the ports; nothing is asked of the order of the bounds
(93_implementation_defined.md U2). -/
theorem clamp_portValue (u : Family) (n : Nat) (v lo hi : Word) :
    clamp (portValue u n v) (portValue u n lo) (portValue u n hi) =
      portValue u n (if portValue u n v < portValue u n lo then lo
        else if portValue u n hi < portValue u n v then hi else v) := by
  unfold clamp
  split_ifs <;> rfl

theorem clamping_eq (u : Family) (n : Nat) (s : State) : clamping u n s =
    .next { s with response := some (.word (storeBits u (regBits n
      (if portValue u n s.a < portValue u n s.b then s.b
      else if portValue u n s.c < portValue u n s.a then s.c else s.a)))) } := by
  rw [clamping, State.valA_eq, State.valB_eq, State.valC_eq, clamp_portValue, completeInRange, portValue, cell_regValue,
    complete_eq]

/-- Settles O29: the clamp picks a port, whose register is then stored. -/
theorem clamps : Obligations.clamps :=
  ⟨fun _ s ht => (guardInt_of_supported ht s _).trans (clamping_eq _ _ s),
    fun _ s ht => (guardFix_of_supported ht s _).trans (clamping_eq _ _ s)⟩

/-- Settles O30: 0 and the upper bound, 1 or `2^F`, are in order, so the clamp limits. -/
theorem clamps_to_one : Obligations.clamps_to_one :=
  ⟨fun _ s ht => (guardInt_of_supported ht s _).trans (clampingZeroTo_eq 1 (by decide) _ _ s),
    fun _ s ht => (guardFix_of_supported ht s _).trans (clampingZeroTo_eq _ (by positivity) _ _ s)⟩

theorem clampingWithOffset_eq_limits (u : Family) (n : Nat) (s : State) :
    let lo := limit u n (portValue u n s.b + s.d.toInt)
    let hi := limit u n (portValue u n s.c + s.e.toInt)
    clampingWithOffset u n s = .next { s with response := some (.word (BitVec.ofInt 32
      (max (min lo hi) (min (portValue u n s.a) (max lo hi))))) } := by
  intro lo hi
  rw [clampingWithOffset_eq, clampSwapped_eq]

/-- Settles O31: the swap puts the limited bounds in order before the value is limited. -/
theorem clamps_with_offset : Obligations.clamps_with_offset :=
  ⟨fun _ s ht => (guardInt_of_supported ht s _).trans (clampingWithOffset_eq_limits _ _ s),
    fun _ s ht => (guardFix_of_supported ht s _).trans (clampingWithOffset_eq_limits _ _ s)⟩

end Sys2Proof.Machine
end

section
/-! Integer shifts (42_int_shift_bit.md R150 to R156). The two names of each shift are one shared operation; a right
shift and a mask are the floored quotient and remainder by a power of two, which is R156. -/

namespace Sys2Proof.Machine

/-! ### The count on port `b` (42_int_shift_bit.md R150) -/

theorem toNat_toInt_of_nonneg {p : Word} (h : 0 ≤ p.toInt) : p.toInt.toNat = p.toNat := by
  rw [BitVec.toInt_eq_toNat_cond] at *
  omega

theorem shifting_of_inDomain {n : Nat} {s : State} (h : 0 ≤ s.b.toInt ∧ s.b.toInt < n) (body : Nat → Answer) :
    shifting n s body = body s.b.toNat := by
  rw [shifting_eq, if_pos h, toNat_toInt_of_nonneg h.1]

theorem shifting_of_outside {n : Nat} {s : State} (h : s.b.toInt < 0 ∨ n ≤ s.b.toInt) (body : Nat → Answer) :
    shifting n s body = .next { s with response := some (.error .rangeError) } := by
  rw [shifting_eq, if_neg (by omega)]

/-! ### Left shifts -/

theorem ofInt_shl (n : Nat) (v : Int) (k : Nat) : BitVec.ofInt n (shl v k) = BitVec.ofInt n v <<< k := by
  rw [shl, BitVec.ofInt_mul, ofInt_two_pow, ← BitVec.twoPow_eq, BitVec.mul_twoPow_eq_shiftLeft]

theorem shiftLeft_of_inDomain (u : Family) {n : Nat} {s : State} (h : 0 ≤ s.b.toInt ∧ s.b.toInt < n) :
    shiftLeft u n s =
      .next { s with response := some (.word (storeBits u (regBits n s.a <<< s.b.toNat))) } := by
  rw [shiftLeft, shifting_of_inDomain h, completeWrapped_eq, State.valA_eq, ofInt_shl, ofInt_portValue]

theorem shiftLeft_of_outside (u : Family) {n : Nat} {s : State} (h : s.b.toInt < 0 ∨ n ≤ s.b.toInt) :
    shiftLeft u n s = .next { s with response := some (.error .rangeError) } :=
  shifting_of_outside h _

/-- Settles O32: inside the domain truncation commutes with the shift; IMULPOW2 and ISHL are the same operation. -/
theorem left_shifts : Obligations.left_shifts := by
  intro t s ht
  constructor
  · intro hcount
    have hanswer := (guardInt_of_supported ht s _).trans (shiftLeft_of_inDomain t.u hcount)
    exact ⟨hanswer, hanswer⟩
  · intro hcount
    have hraises := (guardInt_of_supported ht s _).trans (shiftLeft_of_outside t.u hcount)
    exact ⟨hraises, hraises⟩

/-! ### Right shifts -/

/-- The right shift of a register that keeps its family's sign (42_int_shift_bit.md R152, R154). -/
def shiftRightBits (u : Family) {n : Nat} (x : BitVec n) (k : Nat) : BitVec n :=
  match u with
  | .signed => x.sshiftRight k
  | .unsigned => x >>> k

/-- The floored quotient by a power of two is the family's right shift, and needs no wrap (42_int_shift_bit.md R152). -/
theorem shr_regValue (u : Family) {n : Nat} (x : BitVec n) (k : Nat) :
    shr (regValue u x) k = regValue u (shiftRightBits u x k) := by
  cases u with
  | signed =>
    change x.toInt / 2 ^ k = (x.sshiftRight k).toInt
    rw [BitVec.toInt_sshiftRight, Int.shiftRight_eq_div_pow]
    norm_cast
  | unsigned =>
    change (x.toNat : Int) / 2 ^ k = (x >>> k).toNat
    rw [BitVec.toNat_ushiftRight, Nat.shiftRight_eq_div_pow]
    norm_cast

theorem shiftRight_of_inDomain (u : Family) {n : Nat} {s : State} (h : 0 ≤ s.b.toInt ∧ s.b.toInt < n) :
    shiftRight u n s =
      .next { s with response := some (.word (cell (shr (portValue u n s.a) s.b.toNat))) } := by
  rw [shiftRight, shifting_of_inDomain h, completeInRange_eq, State.valA_eq, cell]

theorem shiftRight_of_outside (u : Family) {n : Nat} {s : State} (h : s.b.toInt < 0 ∨ n ≤ s.b.toInt) :
    shiftRight u n s = .next { s with response := some (.error .rangeError) } :=
  shifting_of_outside h _

theorem answersWord_idivpow2 {t : IntType} (ht : t.supported = true) {s : State}
    (h : 0 ≤ s.b.toInt ∧ s.b.toInt < t.n.toNat) :
    AnswersWord (.idivpow2 t) s (cell (shr (portValue t.u t.n.toNat s.a) s.b.toNat)) :=
  (guardInt_of_supported ht s _).trans (shiftRight_of_inDomain t.u h)

/-- Settles O33: inside the domain the cell holds the number of the family's right shift; IDIVPOW2 and ISHR are the same
operation. -/
theorem right_shifts : Obligations.right_shifts := by
  intro t s ht
  constructor
  · intro hcount
    have hanswer := answersWord_idivpow2 ht hcount
    rw [portValue, shr_regValue, cell_regValue] at hanswer
    constructor
    · intro hu
      rw [hu] at hanswer
      exact ⟨hanswer, hanswer⟩
    · intro hu
      rw [hu] at hanswer
      exact ⟨hanswer, hanswer⟩
  · intro hcount
    have hraises := (guardInt_of_supported ht s _).trans (shiftRight_of_outside t.u hcount)
    exact ⟨hraises, hraises⟩

/-! ### The low bits -/

/-- The low `k ≤ n` bits of a value are those of its pattern: `2^k` divides `2^n` (42_int_shift_bit.md R155). -/
theorem lowBits_portValue (u : Family) {n k : Nat} (hk : k ≤ n) (p : Word) :
    lowBits (portValue u n p) k = ((regBits n p).toNat &&& (2 ^ k - 1) : Nat) := by
  calc portValue u n p % 2 ^ k
    _ = zext n (portValue u n p) % 2 ^ k := (Int.emod_emod_of_dvd _ (pow_dvd_pow 2 hk)).symm
    _ = ((regBits n p).toNat : Int) % 2 ^ k := by rw [zext_portValue]
    _ = ((regBits n p).toNat &&& (2 ^ k - 1) : Nat) := by rw [Nat.and_two_pow_sub_one_eq_mod]; norm_cast

theorem ofInt_lowBits_portValue (u : Family) {n k : Nat} (hk : k ≤ n) (p : Word) :
    BitVec.ofInt n (lowBits (portValue u n p) k) = regBits n p &&& BitVec.ofNat n (2 ^ k - 1) := by
  rw [lowBits_portValue u hk, BitVec.ofInt_natCast, BitVec.ofNat_and, BitVec.ofNat_toNat, BitVec.setWidth_eq]

theorem answersWord_imodpow2 {t : IntType} (ht : t.supported = true) {s : State}
    (h : 0 ≤ s.b.toInt ∧ s.b.toInt ≤ t.n.toNat) :
    AnswersWord (.imodpow2 t) s
      (storeBits t.u (BitVec.ofInt t.n.toNat (lowBits (portValue t.u t.n.toNat s.a) s.b.toNat))) := by
  change execImodpow2 t s = _
  rw [execImodpow2, guardInt_of_supported ht, operandI_eq, if_neg (by omega), completeWrapped_eq, State.valA_eq,
    toNat_toInt_of_nonneg h.1]

/-- Settles O34: a count of at most `N` names bits of the pattern. -/
theorem low_bits_mask : Obligations.low_bits_mask := by
  intro t s ht
  constructor
  · intro hcount
    have hk : s.b.toNat ≤ t.n.toNat := by
      have := toNat_toInt_of_nonneg hcount.1
      omega
    have hanswer := answersWord_imodpow2 ht hcount
    rwa [ofInt_lowBits_portValue t.u hk] at hanswer
  · intro hcount
    change execImodpow2 t s = _
    rw [execImodpow2, guardInt_of_supported ht, operandI_eq, if_pos hcount, raise_eq]

/-! ### Quotient and remainder by a power of two -/

theorem shr_mul_add_lowBits (v : Int) (k : Nat) : shr v k * 2 ^ k + lowBits v k = v :=
  Int.ediv_mul_add_emod v (2 ^ k)

theorem two_pow_sub_one_le_greatestValue (u : Family) {n k : Nat} (hk : k < n) :
    (2 : Int) ^ k - 1 ≤ greatestValue u n := by
  rw [← tmax_eq]
  cases u with
  | signed =>
    have hpow : (2 : Int) ^ k ≤ 2 ^ (n - 1) := pow_le_pow_right₀ (by decide) (by omega)
    simp only [tmax, signedMax, if_neg (show n ≠ 0 by omega)]
    omega
  | unsigned =>
    have hpow : (2 : Int) ^ k ≤ 2 ^ n := pow_le_pow_right₀ (by decide) hk.le
    simp only [tmax, unsignedMax]
    omega

/-- Fewer than `n` low bits are a number of either family: the sign position is not among them. -/
theorem lowBits_mem_typeRange (u : Family) {n k : Nat} (hk : k < n) (v : Int) : lowBits v k ∈ typeRange u n := by
  have hpow : (0 : Int) < 2 ^ k := by positivity
  have hnonneg : 0 ≤ lowBits v k := Int.emod_nonneg v hpow.ne'
  have hlt : lowBits v k < 2 ^ k := Int.emod_lt_of_pos v hpow
  have hmax := two_pow_sub_one_le_greatestValue u hk
  exact ⟨(zero_mem_typeRange u n).1.trans hnonneg, by omega⟩

/-- Settles O35: both answers are read back as the exact floored quotient and remainder, since both are numbers of the
type. -/
theorem power_of_two_decomposition : Obligations.power_of_two_decomposition := by
  intro t s q m ht hnonneg hlt hq hm
  have hn := (IntType.supported_iff t).1 ht
  have hk : s.b.toNat < t.n.toNat := by
    have := toNat_toInt_of_nonneg hnonneg
    omega
  have hlow := lowBits_mem_typeRange t.u hk (portValue t.u t.n.toNat s.a)
  have hqVal : portValue t.u t.n.toNat q = shr (portValue t.u t.n.toNat s.a) s.b.toNat := by
    rw [hq.unique (answersWord_idivpow2 ht ⟨hnonneg, hlt⟩)]
    exact portValue_ofInt hn (shr_mem_typeRange (portValue_mem_typeRange t.u _ s.a) _)
  have hmVal : portValue t.u t.n.toNat m = lowBits (portValue t.u t.n.toNat s.a) s.b.toNat := by
    rw [hm.unique (answersWord_imodpow2 ht ⟨hnonneg, hlt.le⟩), ← cell_wrap, wrap_of_range _ _ _ hlow.1 hlow.2]
    exact portValue_ofInt hn hlow
  rw [hqVal, hmVal, shr_mul_add_lowBits]

end Sys2Proof.Machine
end

section
/-! Integer rotates (42_int_shift_bit.md R157, R158): the two shifted halves of the pattern, masked, are the rotation of
the N-bit register; the mathematical modulo makes a negated count the rotation in the other direction. -/

namespace Sys2Proof.Machine

/-! ### The masked halves are the rotation of the register -/

theorem ofNat_and_mask (n p : Nat) : BitVec.ofNat n (p &&& (2 ^ n - 1)) = BitVec.ofNat n p := by
  apply BitVec.eq_of_toNat_eq
  rw [Nat.and_two_pow_sub_one_eq_mod, BitVec.toNat_ofNat, BitVec.toNat_ofNat, Nat.mod_mod]

theorem ofNat_toNat_shiftLeft {n : Nat} (x : BitVec n) (k : Nat) : BitVec.ofNat n (x.toNat <<< k) = x <<< k := by
  apply BitVec.eq_of_toNat_eq
  rw [BitVec.toNat_ofNat, BitVec.toNat_shiftLeft]

theorem ofNat_toNat_shiftRight {n : Nat} (x : BitVec n) (k : Nat) : BitVec.ofNat n (x.toNat >>> k) = x >>> k := by
  rw [← BitVec.toNat_ushiftRight, BitVec.ofNat_toNat, BitVec.setWidth_eq]

theorem ofNat_rotLeft {n k : Nat} (hk : k < n) (x : BitVec n) :
    BitVec.ofNat n (rotLeft n x.toNat k) = x.rotateLeft k := by
  rw [rotLeft, ofNat_and_mask, BitVec.ofNat_or, ofNat_toNat_shiftLeft, ofNat_toNat_shiftRight, BitVec.rotateLeft_def,
    Nat.mod_eq_of_lt hk]

theorem ofNat_rotRight {n k : Nat} (hk : k < n) (x : BitVec n) :
    BitVec.ofNat n (rotRight n x.toNat k) = x.rotateRight k := by
  rw [rotRight, ofNat_and_mask, BitVec.ofNat_or, ofNat_toNat_shiftLeft, ofNat_toNat_shiftRight, BitVec.rotateRight_def,
    Nat.mod_eq_of_lt hk]

/-! ### The count modulo `N` -/

theorem toNat_emod_lt {n : Nat} (hn : n ≠ 0) (c : Int) : (c % n).toNat < n := by
  have hnonneg : 0 ≤ c % n := Int.emod_nonneg c (by omega)
  have hlt : c % n < n := Int.emod_lt_of_pos c (by omega)
  omega

theorem rotating_of_ne_zero {rot : Nat → Nat → Nat → Nat} {n : Nat} (hn : n ≠ 0) {rotBits : BitVec n → Nat → BitVec n}
    (hrot : ∀ {k : Nat}, k < n → ∀ x : BitVec n, BitVec.ofNat n (rot n x.toNat k) = rotBits x k) (u : Family)
    (s : State) : rotating rot u n s =
      .next { s with response := some (.word (storeBits u (rotBits (regBits n s.a) (s.b.toInt % n).toNat))) } := by
  rw [rotating_eq, if_neg hn, hrot (toNat_emod_lt hn _)]

theorem rotating_of_eq_zero (rot : Nat → Nat → Nat → Nat) (u : Family) {n : Nat} (hn : n = 0) (s : State) :
    rotating rot u n s = .next { s with response := some (.error .rangeError) } := by
  rw [rotating_eq, if_pos hn]

theorem IntType.width_eq_zero_iff (t : IntType) : t.n.toNat = 0 ↔ t.n = 0#6 :=
  BitVec.toNat_inj (x := t.n) (y := 0#6)

/-- Settles O36: only at `N = 0` is there no count modulo `N`. -/
theorem rotates : Obligations.rotates := by
  intro t s ht
  constructor
  · intro hne
    have hn : t.n.toNat ≠ 0 := mt (IntType.width_eq_zero_iff t).1 hne
    exact ⟨(guardInt_of_supported ht s _).trans (rotating_of_ne_zero hn ofNat_rotLeft t.u s),
      (guardInt_of_supported ht s _).trans (rotating_of_ne_zero hn ofNat_rotRight t.u s)⟩
  · intro hzero
    have hn : t.n.toNat = 0 := (IntType.width_eq_zero_iff t).2 hzero
    exact ⟨(guardInt_of_supported ht s _).trans (rotating_of_eq_zero _ t.u hn s),
      (guardInt_of_supported ht s _).trans (rotating_of_eq_zero _ t.u hn s)⟩

/-! ### The other direction -/

/-- Rotating right and rotating left agree when the two counts make whole turns together. -/
theorem rotateRight_eq_rotateLeft_of_dvd {n i j : Nat} (hn : n ≠ 0) (h : n ∣ i + j) (x : BitVec n) :
    x.rotateRight i = x.rotateLeft j := by
  have hi : i % n < n := Nat.mod_lt _ (by omega)
  have hj : j % n < n := Nat.mod_lt _ (by omega)
  have hsum : n ∣ i % n + j % n := by
    rwa [Nat.dvd_iff_mod_eq_zero, ← Nat.add_mod, ← Nat.dvd_iff_mod_eq_zero]
  rw [BitVec.rotateRight_def, BitVec.rotateLeft_def]
  by_cases h0 : i % n = 0
  · have hj0 : j % n = 0 := Nat.eq_zero_of_dvd_of_lt (by simpa [h0] using hsum) hj
    rw [h0, hj0, Nat.sub_zero, BitVec.shiftLeft_eq_zero le_rfl, BitVec.ushiftRight_eq_zero le_rfl,
      BitVec.ushiftRight_zero, BitVec.shiftLeft_zero]
  · have hturn : i % n + j % n = n := Nat.eq_of_dvd_of_lt_two_mul (by omega) hsum (by omega)
    rw [show j % n = n - i % n by omega, show n - (n - i % n) = i % n by omega, BitVec.or_comm]

theorem dvd_emod_add_neg_emod {n : Nat} (hn : n ≠ 0) (c : Int) : n ∣ (c % n).toNat + (-c % n).toNat := by
  have hpos : 0 ≤ c % n := Int.emod_nonneg c (by omega)
  have hneg : 0 ≤ -c % n := Int.emod_nonneg (-c) (by omega)
  zify
  rw [Int.toNat_of_nonneg hpos, Int.toNat_of_nonneg hneg, Int.dvd_iff_emod_eq_zero, ← Int.add_emod, add_neg_cancel,
    Int.zero_emod]

theorem AnswersWord.iff_eq {i : Instr} {s : State} {r r' : Word} (h : AnswersWord i s r) :
    AnswersWord i s r' ↔ r = r' :=
  ⟨h.unique, fun hr => hr ▸ h⟩

theorem Raises.not_answersWord {i : Instr} {s : State} {kind : ErrorKind} (h : Raises i s kind) (r : Word) :
    ¬ AnswersWord i s r :=
  fun h' => Response.noConfusion (next_respond_inj.1 (h.symm.trans h'))

theorem guardInt_of_not_supported {t : IntType} (ht : ¬ t.supported = true) (s : State) (body : Answer) :
    guardInt t s body = .next { s with response := some (.error .notSupportedError) } := by
  rw [guardInt_eq, if_neg ht, raise_eq]

/-- Settles O37: for an unsupported or zero width neither rotate answers a word; otherwise the two answers are the same
rotation, as the two counts modulo `N` make whole turns together. -/
theorem rotate_right_is_rotate_left_negated : Obligations.rotate_right_is_rotate_left_negated := by
  intro t s r hb
  by_cases ht : t.supported = true
  · obtain ⟨hanswers, hraises⟩ := rotates t s ht
    obtain ⟨hanswersNeg, hraisesNeg⟩ := rotates t { s with b := -s.b } ht
    by_cases hzero : t.n = 0#6
    · exact iff_of_false ((hraises hzero).2.not_answersWord r) ((hraisesNeg hzero).1.not_answersWord r)
    · have hn : t.n.toNat ≠ 0 := mt (IntType.width_eq_zero_iff t).1 hzero
      have hcount : (-s.b).toInt = -s.b.toInt := BitVec.toInt_neg_of_ne_intMin hb
      have hsame := rotateRight_eq_rotateLeft_of_dvd hn (dvd_emod_add_neg_emod hn s.b.toInt) (regBits t.n.toNat s.a)
      rw [(hanswers hzero).2.iff_eq, (hanswersNeg hzero).1.iff_eq, hcount, hsame]
  · have hright : Raises (.iror t) s .notSupportedError := guardInt_of_not_supported ht s _
    have hleft : Raises (.irol t) { s with b := -s.b } .notSupportedError := guardInt_of_not_supported ht _ _
    exact iff_of_false (hright.not_answersWord r) (hleft.not_answersWord r)

end Sys2Proof.Machine
end

section
/-! Bit scans and counts (42_int_shift_bit.md R159 to R165): what each scan of a number's low `n` bits finds, then the
operations, which scan the pattern of port `a`. -/

namespace Sys2Proof.Machine

/-! ### The scans of a number -/

theorem popCount_eq_card (p n : Nat) : popCount p n = ((Finset.range n).filter (fun i => p.testBit i = true)).card := by
  induction n with
  | zero => rfl
  | succ n ih =>
    rw [popCount, ih, Finset.range_add_one, Finset.filter_insert]
    split
    · rw [Finset.card_insert_of_notMem (by simp)]
    · rfl

theorem highestSet_eq_none {p n : Nat} (h : ∀ i, i < n → p.testBit i = false) : highestSet p n = none := by
  induction n with
  | zero => rfl
  | succ n ih =>
    rw [highestSet, h n (by omega), if_neg Bool.false_ne_true]
    exact ih fun i hi => h i (by omega)

theorem highestSet_eq_some {p n hi : Nat} (hlt : hi < n) (hset : p.testBit hi = true)
    (habove : ∀ j, hi < j → j < n → p.testBit j = false) : highestSet p n = some hi := by
  induction n with
  | zero => omega
  | succ n ih =>
    rw [highestSet]
    by_cases htop : hi = n
    · rw [← htop, if_pos hset]
    · rw [habove n (by omega) (by omega), if_neg Bool.false_ne_true]
      exact ih (by omega) fun j h1 h2 => habove j h1 (by omega)

theorem lowestSet_eq_none {p n : Nat} (h : ∀ i, i < n → p.testBit i = false) : lowestSet p n = none := by
  induction n with
  | zero => rfl
  | succ n ih => rw [lowestSet, ih fun i hi => h i (by omega), h n (by omega)]; rfl

theorem lowestSet_eq_some {p n lo : Nat} (hlt : lo < n) (hset : p.testBit lo = true)
    (hbelow : ∀ j, j < lo → p.testBit j = false) : lowestSet p n = some lo := by
  induction n with
  | zero => omega
  | succ n ih =>
    rw [lowestSet]
    by_cases htop : lo = n
    · rw [← htop, lowestSet_eq_none hbelow, hset]; rfl
    · rw [ih (by omega)]

/-! ### The pattern of port `a` (42_int_shift_bit.md R159) -/

section
variable {s : State} {t : IntType}

theorem State.testBit_pattern {i : Nat} (hi : i < t.n.toNat) : (s.pattern t).testBit i = s.a.getLsbD i := by
  rw [State.pattern_eq, BitVec.testBit_toNat, regBits, BitVec.getLsbD_setWidth, decide_eq_true hi, Bool.true_and]

theorem State.pattern_eq_zero (h : ∀ i, i < t.n.toNat → s.a.getLsbD i = false) : s.pattern t = 0 := by
  have hreg : regBits t.n.toNat s.a = 0#_ := BitVec.eq_of_getLsbD_eq fun i hi => by
    rw [regBits, BitVec.getLsbD_setWidth, h i hi, Bool.and_false, BitVec.getLsbD_zero]
  rw [State.pattern_eq, hreg, BitVec.toNat_zero]

theorem State.pattern_ne_zero {i : Nat} (hi : i < t.n.toNat) (hset : s.a.getLsbD i = true) : s.pattern t ≠ 0 := by
  intro hzero
  have hbit := State.testBit_pattern (s := s) hi
  rw [hzero, Nat.zero_testBit, hset] at hbit
  exact Bool.false_ne_true hbit

theorem State.popCount_pattern :
    popCount (s.pattern t) t.n.toNat = ((Finset.range t.n.toNat).filter (fun i => s.a.getLsbD i = true)).card := by
  rw [popCount_eq_card]
  congr 1
  refine Finset.filter_congr fun i hi => ?_
  rw [State.testBit_pattern (Finset.mem_range.1 hi)]

/-! ### The operations -/

variable (ht : t.supported = true)
include ht

theorem answersWord_iclz_of_zero (hzero : s.pattern t = 0) : AnswersWord (.iclz t) s (BitVec.ofNat 32 t.n.toNat) := by
  change execIclz t s = _
  rw [execIclz, guardInt_of_supported ht, if_pos hzero, completeInt_eq, BitVec.ofInt_natCast]

theorem answersWord_iclz_of_ne_zero (hne : s.pattern t ≠ 0) : AnswersWord (.iclz t) s
    (BitVec.ofInt 32 ((t.n.toNat : Int) - 1 - indexOrMinusOne (highestSet (s.pattern t) t.n.toNat))) := by
  change execIclz t s = _
  rw [execIclz, guardInt_of_supported ht, if_neg hne, completeInt_eq]

theorem answersWord_ictz_of_zero (hzero : s.pattern t = 0) : AnswersWord (.ictz t) s (BitVec.ofNat 32 t.n.toNat) := by
  change execIctz t s = _
  rw [execIctz, guardInt_of_supported ht, if_pos hzero, completeInt_eq, BitVec.ofInt_natCast]

theorem answersWord_ictz_of_ne_zero (hne : s.pattern t ≠ 0) : AnswersWord (.ictz t) s
    (BitVec.ofInt 32 (indexOrMinusOne (lowestSet (s.pattern t) t.n.toNat))) := by
  change execIctz t s = _
  rw [execIctz, guardInt_of_supported ht, if_neg hne, completeInt_eq]

theorem answersWord_ibsr : AnswersWord (.ibsr t) s
    (BitVec.ofInt 32 (indexOrMinusOne (highestSet (s.pattern t) t.n.toNat))) :=
  guardInt_of_supported ht s _

theorem answersWord_ibsf : AnswersWord (.ibsf t) s
    (BitVec.ofInt 32 (indexOrMinusOne (lowestSet (s.pattern t) t.n.toNat))) :=
  guardInt_of_supported ht s _

end

theorem ofInt_indexOrMinusOne_some (i : Nat) : BitVec.ofInt 32 (indexOrMinusOne (some i)) = BitVec.ofNat 32 i :=
  BitVec.ofInt_natCast 32 i

/-- Settles O38: the count over the pattern is the count over the port's low `N` bits. -/
theorem ones_counted : Obligations.ones_counted := by
  intro t s ht ones
  have hones : popCount (s.pattern t) t.n.toNat = ones := State.popCount_pattern
  constructor
  · change execIpopcnt t s = _
    rw [execIpopcnt, guardInt_of_supported ht, completeInt_eq, hones, BitVec.ofInt_natCast]
  · change execIparity t s = _
    rw [execIparity, guardInt_of_supported ht, completeInt_eq, hones, BitVec.ofInt_natCast]

/-- Settles O39: the pattern is zero when no bit is set and only then, and the scans find the set bit that has none above, or
none below, it. -/
theorem bit_scans : Obligations.bit_scans := by
  intro t s ht
  refine ⟨fun hnone => ?_, fun hi hlt hset habove => ?_, fun lo hlt hset hbelow => ?_⟩
  · have hzero := State.pattern_eq_zero hnone
    have hpattern : ∀ i, i < t.n.toNat → (s.pattern t).testBit i = false := fun i hi => by
      rw [State.testBit_pattern hi, hnone i hi]
    have hbsr := answersWord_ibsr (s := s) ht
    have hbsf := answersWord_ibsf (s := s) ht
    rw [highestSet_eq_none hpattern] at hbsr
    rw [lowestSet_eq_none hpattern] at hbsf
    exact ⟨answersWord_iclz_of_zero ht hzero, answersWord_ictz_of_zero ht hzero, hbsr, hbsf⟩
  · have hscan : highestSet (s.pattern t) t.n.toNat = some hi :=
      highestSet_eq_some hlt (by rw [State.testBit_pattern hlt, hset])
        fun j h1 h2 => by rw [State.testBit_pattern h2, habove j h1 h2]
    have hbsr := answersWord_ibsr (s := s) ht
    have hclz := answersWord_iclz_of_ne_zero ht (State.pattern_ne_zero hlt hset)
    have hcount : (t.n.toNat : Int) - 1 - indexOrMinusOne (some hi) = (t.n.toNat - 1 - hi : Nat) := by
      rw [indexOrMinusOne]
      omega
    rw [hscan, ofInt_indexOrMinusOne_some] at hbsr
    rw [hscan, hcount, BitVec.ofInt_natCast] at hclz
    exact ⟨hbsr, hclz⟩
  · have hscan : lowestSet (s.pattern t) t.n.toNat = some lo :=
      lowestSet_eq_some hlt (by rw [State.testBit_pattern hlt, hset])
        fun j hj => by rw [State.testBit_pattern (hj.trans hlt), hbelow j hj]
    have hbsf := answersWord_ibsf (s := s) ht
    have hctz := answersWord_ictz_of_ne_zero ht (State.pattern_ne_zero hlt hset)
    rw [hscan, ofInt_indexOrMinusOne_some] at hbsf hctz
    exact ⟨hbsf, hctz⟩

end Sys2Proof.Machine
end

section
/-! The byte codec (43_bytes.md R180 to R190). A fixed-point operation is its integer twin behind another width check
(and, for FromBytes, another length check), so each law is about the shared operation and then carried past both. -/

namespace Sys2Proof.Machine

/-! ### Bytes and bits of a word (20_memory.md R41) -/

/-- The bytes of a register cover its bits. -/
theorem le_eight_mul_byteCount (n : Nat) : n ≤ 8 * byteCount n := by
  unfold byteCount
  omega

theorem getLsbD_byteMask (count k : Nat) :
    (byteMask count).getLsbD k = (decide (k < 32) && decide (k < 8 * count)) := by
  rw [byteMask, BitVec.getLsbD_ofNat, Nat.testBit_two_pow_sub_one]

theorem and_byteMask (w : Word) (count : Nat) : w &&& byteMask count = (w.setWidth (8 * count)).setWidth 32 := by
  apply BitVec.eq_of_getLsbD_eq
  intro k hk
  rw [BitVec.getLsbD_and, getLsbD_byteMask, BitVec.getLsbD_setWidth, BitVec.getLsbD_setWidth, decide_eq_true hk,
    Bool.true_and, Bool.true_and, Bool.and_comm]

/-- A masked shift is the byte that starts there. -/
theorem setWidth_extractLsb'_eight (w : Word) (k : Nat) : (w.extractLsb' k 8).setWidth 32 = (w >>> k) &&& 0xFF#32 := by
  have hmask : 0xFF#32 = byteMask 1 := rfl
  rw [hmask, and_byteMask, BitVec.setWidth_ushiftRight_eq_extractLsb]

theorem getLsbD_regBits {n j : Nat} (hj : j < n) (p : Word) : (regBits n p).getLsbD j = p.getLsbD j := by
  rw [regBits, BitVec.getLsbD_setWidth, decide_eq_true hj, Bool.true_and]

theorem getLsbD_storeBits (u : Family) {n j : Nat} (hn : n ≤ 32) (hj : j < n) (x : BitVec n) :
    (storeBits u x).getLsbD j = x.getLsbD j := by
  rw [← getLsbD_regBits hj, regBits_storeBits u hn]

/-- Replacing byte `i` of a word writes bits `8i` to `8i + 7` and keeps the others (43_bytes.md R184). -/
theorem getLsbD_replaceByte (w : Word) (i : Nat) (new : Byte) {j : Nat} (hj : j < 32) :
    (replaceByte w i new).getLsbD j = if j / 8 = i then new.getLsbD (j % 8) else w.getLsbD j := by
  have hmask : 0xFF#32 = byteMask 1 := rfl
  rw [replaceByte, hmask, BitVec.getLsbD_or, BitVec.getLsbD_and, BitVec.getLsbD_not, BitVec.getLsbD_shiftLeft,
    BitVec.getLsbD_shiftLeft, getLsbD_byteMask, BitVec.getLsbD_setWidth]
  split
  · next hbyte =>
    have hpos : j - 8 * i = j % 8 := by omega
    have hlow : ¬ j < 8 * i := by omega
    have hshort : j % 8 < 8 := by omega
    have hfits : j % 8 < 32 := by omega
    simp [hj, hpos, hlow, hshort, hfits]
  · next hbyte =>
    by_cases hlow : j < 8 * i
    · simp [hj, hlow]
    · have hhigh : 8 ≤ j - 8 * i := by omega
      simp [hj, hlow, hhigh]

/-- The register is read back from the bytes that hold its bits. -/
theorem regBits_and_byteMask (n : Nat) (w : Word) : regBits n (w &&& byteMask (byteCount n)) = regBits n w := by
  apply BitVec.eq_of_getLsbD_eq
  intro k hk
  have hcovered : k < 8 * byteCount n := hk.trans_le (le_eight_mul_byteCount n)
  rw [getLsbD_regBits hk, getLsbD_regBits hk, and_byteMask, BitVec.getLsbD_setWidth, BitVec.getLsbD_setWidth,
    decide_eq_true hcovered, Bool.true_and]
  by_cases h32 : k < 32
  · rw [decide_eq_true h32, Bool.true_and]
  · rw [decide_eq_false h32, Bool.false_and, BitVec.getLsbD_of_ge w k (not_lt.1 h32)]

/-- The length on `r2` is read back as the number of bytes. -/
theorem toNat_ofNat_byteCount {n : Nat} (hn : n ≤ 32) : (BitVec.ofNat 32 (byteCount n)).toNat = byteCount n := by
  have hcount := byteCount_le_four hn
  rw [BitVec.toNat_ofNat, Nat.mod_eq_of_lt (by omega)]

/-! ### ToBytes -/

theorem toBytes_eq_setWidth (u : Family) (n : Nat) (s : State) :
    toBytes u n s = .next { s with response := some (.bytes
      (((storeBits u (regBits n s.a)).setWidth (8 * byteCount n)).setWidth 32) (BitVec.ofNat 32 (byteCount n))) } := by
  rw [toBytes_eq, and_byteMask]

/-- Settles O40: masking the storage cell to its `ceil(N/8)` low bytes is truncation to them. -/
theorem to_bytes : Obligations.to_bytes :=
  ⟨fun t s ht => (guardInt_of_supported ht s _).trans (toBytes_eq_setWidth t.u t.n.toNat s),
    fun t s ht => (guardFix_of_supported ht s _).trans (toBytes_eq_setWidth t.u t.n.toNat s)⟩

/-! ### FromBytes -/

section
variable {accepts : Nat → Bool} {s : State}

theorem fromBytes_of_accepted (h : accepts s.b.toNat = true) (u : Family) (n : Nat) :
    fromBytes accepts u n s = .next { s with response := some (.word (storeBits u (regBits n s.a))) } := by
  rw [fromBytes_eq, if_pos h, regBits_and_byteMask]

theorem fromBytes_of_refused (h : accepts s.b.toNat = false) (u : Family) (n : Nat) :
    fromBytes accepts u n s = .next { s with response := some (.error .formatError) } := by
  rw [fromBytes_eq, h, if_neg Bool.false_ne_true]

end

theorem answersWord_ifrombytes {t : IntType} (ht : t.supported = true) {s : State}
    (hlen : byteCount t.n.toNat ≤ s.b.toNat) :
    AnswersWord (.ifrombytes t) s (storeBits t.u (regBits t.n.toNat s.a)) :=
  (guardInt_of_supported ht s _).trans (fromBytes_of_accepted (decide_eq_true hlen) _ _)

theorem answersWord_ffrombytes {t : FixType} (ht : t.supported = true) {s : State}
    (hlen : s.b.toNat = byteCount t.n.toNat) :
    AnswersWord (.ffrombytes t) s (storeBits t.u (regBits t.n.toNat s.a)) :=
  (guardFix_of_supported ht s _).trans (fromBytes_of_accepted (decide_eq_true hlen) _ _)

/-- Settles O41: the two families differ in the lengths they accept (43_bytes.md R190). -/
theorem from_bytes : Obligations.from_bytes := by
  constructor
  · intro t s ht
    exact ⟨answersWord_ifrombytes ht, fun hlen =>
      (guardInt_of_supported ht s _).trans (fromBytes_of_refused (decide_eq_false (not_le.2 hlen)) _ _)⟩
  · intro t s ht
    exact ⟨answersWord_ffrombytes ht, fun hlen =>
      (guardFix_of_supported ht s _).trans (fromBytes_of_refused (decide_eq_false hlen) _ _)⟩

/-! ### There and back (43_bytes.md R185) -/

/-- What an operation that ends in ToBytes answers: a data word that holds the register, and the number of bytes. -/
theorem bytes_of_toBytes {i : Instr} {s : State} {r r2 : Word} (h : Answers i s (.bytes r r2)) {u : Family} {n : Nat}
    (hn : n ≤ 32) (hexec : exec i s = toBytes u n s) : regBits n r = regBits n s.a ∧ r2.toNat = byteCount n := by
  have hanswer := (h.symm.trans hexec).trans (toBytes_eq u n s)
  obtain ⟨rfl, rfl⟩ := Response.bytes.inj (next_respond_inj.1 hanswer)
  exact ⟨by rw [regBits_and_byteMask, regBits_storeBits u hn], toNat_ofNat_byteCount hn⟩

/-- Settles O42: the length that ToBytes gives is accepted, and FromBytes stores the register that the data word holds. -/
theorem byte_round_trip : Obligations.byte_round_trip := by
  constructor
  · intro t s r r2 ht h
    obtain ⟨hreg, hlen⟩ := bytes_of_toBytes h ((IntType.supported_iff t).1 ht) (guardInt_of_supported ht s _)
    have hback := answersWord_ifrombytes ht (s := { s with a := r, b := r2 }) hlen.ge
    rwa [hreg] at hback
  · intro t s r r2 ht h
    obtain ⟨hreg, hlen⟩ := bytes_of_toBytes h ((FixType.supported_iff t).1 ht).1 (guardFix_of_supported ht s _)
    have hback := answersWord_ffrombytes ht (s := { s with a := r, b := r2 }) hlen
    rwa [hreg] at hback

/-! ### GetByte and SetByte -/

section
variable {n : Nat} {s : State}

theorem getByte_of_inDomain (u : Family) (h : 0 ≤ s.b.toInt ∧ s.b.toInt < byteCount n) :
    getByte u n s = .next { s with response := some (.word
      ((storeBits u (regBits n s.a) >>> (8 * s.b.toNat)) &&& 0xFF#32)) } := by
  rw [getByte_eq, if_pos h, toNat_toInt_of_nonneg h.1, setWidth_extractLsb'_eight]

theorem getByte_of_outside (u : Family) (h : s.b.toInt < 0 ∨ byteCount n ≤ s.b.toInt) :
    getByte u n s = .next { s with response := some (.error .rangeError) } := by
  rw [getByte_eq, if_neg (by omega)]

/-- The word SetByte answers is in storage form, and below bit `n` it has the operand's bits with one byte replaced. -/
theorem setByte_of_inDomain (u : Family) (hn : n ≤ 32) (h : 0 ≤ s.b.toInt ∧ s.b.toInt < byteCount n) :
    ∃ r, setByte u n s = .next { s with response := some (.word r) } ∧ Canonical u n r ∧
      ∀ j, j < n → r.getLsbD j = if j / 8 = s.b.toNat then s.c.getLsbD (j % 8) else s.a.getLsbD j := by
  refine ⟨_, (setByte_eq u n s).trans (if_pos h), canonical_storeBits u hn _, fun j hj => ?_⟩
  have hshort : j % 8 < 8 := Nat.mod_lt j (by omega)
  rw [getLsbD_storeBits u hn hj, getLsbD_regBits hj, getLsbD_replaceByte _ _ _ (hj.trans_le hn),
    toNat_toInt_of_nonneg h.1, BitVec.getLsbD_extractLsb', decide_eq_true hshort, Bool.true_and, Nat.zero_add,
    getLsbD_storeBits u hn hj, getLsbD_regBits hj]

theorem setByte_of_outside (u : Family) (h : s.b.toInt < 0 ∨ byteCount n ≤ s.b.toInt) :
    setByte u n s = .next { s with response := some (.error .rangeError) } := by
  rw [setByte_eq, if_neg (by omega)]

end

/-- Settles O43: inside the domain the byte is the one the shift brings down. -/
theorem get_byte : Obligations.get_byte := by
  constructor
  · intro t s ht
    exact ⟨fun hindex => (guardInt_of_supported ht s _).trans (getByte_of_inDomain t.u hindex),
      fun hindex => (guardInt_of_supported ht s _).trans (getByte_of_outside t.u hindex)⟩
  · intro t s ht
    exact ⟨fun hindex => (guardFix_of_supported ht s _).trans (getByte_of_inDomain t.u hindex),
      fun hindex => (guardFix_of_supported ht s _).trans (getByte_of_outside t.u hindex)⟩

/-- Settles O44: inside the domain the stored register keeps every bit below `N` of the cell with the byte replaced. -/
theorem set_byte : Obligations.set_byte := by
  constructor
  · intro t s ht
    refine ⟨fun hindex => ?_, fun hindex => (guardInt_of_supported ht s _).trans (setByte_of_outside t.u hindex)⟩
    obtain ⟨r, hanswer, hform, hbits⟩ := setByte_of_inDomain t.u ((IntType.supported_iff t).1 ht) hindex
    exact ⟨r, (guardInt_of_supported ht s _).trans hanswer, hform, hbits⟩
  · intro t s ht
    refine ⟨fun hindex => ?_, fun hindex => (guardFix_of_supported ht s _).trans (setByte_of_outside t.u hindex)⟩
    obtain ⟨r, hanswer, hform, hbits⟩ := setByte_of_inDomain t.u ((FixType.supported_iff t).1 ht).1 hindex
    exact ⟨r, (guardFix_of_supported ht s _).trans hanswer, hform, hbits⟩

end Sys2Proof.Machine
end

section
/-! Fixed-point arithmetic (44_fixed_arith.md R200 to R208): behind the width check an operation is its integer twin, with
the product shifted right by `F` and the numerator shifted left by `F`; the 64-bit product of R202 is exact. -/

namespace Sys2Proof.Machine

/-! ### Sums and differences -/

/-- Settles O20: the raws are added and subtracted by the operations that IADD and ISUB share (44_fixed_arith.md R205). -/
theorem fixed_add_sub : Obligations.fixed_add_sub := by
  intro t s ht
  exact ⟨(guardFix_of_supported ht s _).trans (wrapping_add _ _ s),
    (guardFix_of_supported ht s _).trans (wrapping_sub _ _ s)⟩

/-! ### The product in 64 bits (44_fixed_arith.md R202) -/

/-- A register widened to 64 bits, with its family's sign. -/
def widen (u : Family) {n : Nat} (x : BitVec n) : BitVec 64 :=
  match u with
  | .signed => x.signExtend 64
  | .unsigned => x.setWidth 64

theorem widen_eq_ofInt (u : Family) {n : Nat} (x : BitVec n) : widen u x = BitVec.ofInt 64 (regValue u x) := by
  cases u with
  | signed => rfl
  | unsigned => exact ((BitVec.ofInt_natCast 64 x.toNat).trans (BitVec.ofNat_toNat 64 x)).symm

/-- 64 bits hold every product of two values, whose width is at most 32. -/
theorem mul_mem_typeRange_64 (u : Family) {n : Nat} (hn : n ≤ 32) (x y : BitVec n) :
    regValue u x * regValue u y ∈ typeRange u 64 := by
  cases u with
  | signed =>
    have hpow : (2 : Int) ^ (n * 2 - 2) ≤ 2 ^ 62 := pow_le_pow_right₀ (by decide) (by omega)
    have hleast : leastValue .signed 64 = -2 ^ 63 := by decide
    have hgreatest : greatestValue .signed 64 = 2 ^ 63 - 1 := by decide
    have hlo : -2 ^ (n * 2 - 2) ≤ x.toInt * y.toInt := BitVec.le_toInt_mul_toInt
    have hhi : x.toInt * y.toInt ≤ 2 ^ (n * 2 - 2) := BitVec.toInt_mul_toInt_le
    rw [mem_typeRange, hleast, hgreatest, regValue, regValue]
    omega
  | unsigned =>
    have hpow : 2 ^ (n * 2) ≤ 2 ^ 64 := Nat.pow_le_pow_right (by decide) (by omega)
    have hgreatest : greatestValue .unsigned 64 = 2 ^ 64 - 1 := by decide
    have hlt : x.toNat * y.toNat < 2 ^ (n * 2) := BitVec.toNat_mul_toNat_lt
    rw [mem_typeRange, hgreatest, leastValue, regValue, regValue, ← Int.natCast_mul]
    omega

/-- The 64-bit product is the exact one. -/
theorem regValue_widen_mul (u : Family) {n : Nat} (hn : n ≤ 32) (x y : BitVec n) :
    regValue u (widen u x * widen u y) = regValue u x * regValue u y := by
  obtain ⟨hlo, hhi⟩ := mul_mem_typeRange_64 u hn x y
  rw [widen_eq_ofInt, widen_eq_ofInt, ← BitVec.ofInt_mul, ← wrap_eq_regValue, wrap_of_range u 64 _ hlo hhi]

/-- The wrap of a register's number to a smaller width keeps the register's low bits, whatever the family. -/
theorem ofInt_regValue_of_le (u : Family) {n m : Nat} (hn : n ≤ m) (x : BitVec m) :
    BitVec.ofInt n (regValue u x) = x.setWidth n := by
  cases u with
  | signed => exact BitVec.signExtend_eq_setWidth_of_le x hn
  | unsigned => exact (BitVec.ofInt_natCast n x.toNat).trans (BitVec.ofNat_toNat n x)

theorem ofInt_scaledMul (u : Family) {n : Nat} (hn : n ≤ 32) (f : Nat) (x y : BitVec n) :
    BitVec.ofInt n (scaledMul f (regValue u x) (regValue u y)) =
      (shiftRightBits u (widen u x * widen u y) f).setWidth n := by
  rw [scaledMul, ← regValue_widen_mul u hn, shr_regValue, ofInt_regValue_of_le u (by omega)]

theorem answersWord_fmul {t : FixType} (ht : t.supported = true) (s : State) :
    AnswersWord (.fmul t) s (storeBits t.u
      ((shiftRightBits t.u (widen t.u (regBits t.n.toNat s.a) * widen t.u (regBits t.n.toNat s.b)) t.f.toNat).setWidth
        t.n.toNat)) := by
  change execFmul t s = _
  obtain ⟨hn, -⟩ := (FixType.supported_iff t).1 ht
  rw [execFmul, guardFix_of_supported ht, wrapping_eq, portValue, portValue, ofInt_scaledMul t.u hn]

/-- Settles O23: the exact product is the 64-bit one, and `shiftRightBits` and `widen` are those of the type's family. -/
theorem fixed_multiply : Obligations.fixed_multiply := by
  intro t s ht
  have hanswer := answersWord_fmul ht s
  constructor
  · intro hu
    rwa [hu] at hanswer
  · intro hu
    rwa [hu] at hanswer

/-! ### The pre-shifted division (44_fixed_arith.md R203, R204) -/

/-- What FDIV and FMOD share: DivisionByZero, or `op` of the pre-shifted numerator, wrapped. -/
theorem preshifted_division_answers {t : FixType} (ht : t.supported = true) {i : Instr} {s : State}
    {op : Int → Int → Int}
    (hexec : exec i s = guardFix t s (dividing t.u t.n.toNat op (shl (s.valA t.u t.n.toNat) t.f.toNat) s)) :
    (regBits t.n.toNat s.b = 0#_ → Raises i s .divisionByZero) ∧
    (regBits t.n.toNat s.b ≠ 0#_ → AnswersWord i s (storeBits t.u (BitVec.ofInt t.n.toNat
      (op (portValue t.u t.n.toNat s.a * 2 ^ t.f.toNat) (portValue t.u t.n.toNat s.b))))) := by
  rw [guardFix_of_supported ht, State.valA_eq, shl] at hexec
  exact ⟨fun hzero => hexec.trans (dividing_of_zero hzero _ _), fun hne => hexec.trans (dividing_of_ne_zero hne _ _)⟩

/-- Settles O24: FDIV and FMOD divide the same numerator, one by `tdiv` and the other by `trem`. -/
theorem fixed_division : Obligations.fixed_division := by
  intro t s ht
  obtain ⟨hdivZero, hdiv⟩ := preshifted_division_answers ht (i := .fdiv t) (s := s) (op := tdiv) rfl
  obtain ⟨hmodZero, hmod⟩ := preshifted_division_answers ht (i := .fmod t) (s := s) (op := trem) rfl
  rw [trem_eq_tmod] at hmod
  exact ⟨fun hzero => ⟨hdivZero hzero, hmodZero hzero⟩, fun hne => ⟨hdiv hne, hmod hne⟩⟩

/-! ### Without fractional bits (44_fixed_arith.md R205) -/

theorem guardFix_without_fraction (u : Family) (n : BitVec 6) (s : State) (body : Answer) :
    guardFix ⟨u, n, 0#6⟩ s body = guardInt ⟨u, n⟩ s body := by
  have hsupported : (⟨u, n, 0#6⟩ : FixType).supported = (⟨u, n⟩ : IntType).supported :=
    Bool.eq_iff_iff.2 (by simp [FixType.supported_iff, IntType.supported_iff])
  rw [guardFix_eq, guardInt_eq, hsupported]

theorem scaledMul_zero : scaledMul 0 = fun x y => x * y := by
  funext x y
  rw [scaledMul, shr, pow_zero, Int.ediv_one]

theorem shl_zero (v : Int) : shl v 0 = v := by
  rw [shl, pow_zero, mul_one]

/-- Settles O25: at `F = 0` the width checks agree and neither shift moves a bit, so the meanings are the same, whatever
the answer. -/
theorem fixed_arithmetic_without_fraction : Obligations.fixed_arithmetic_without_fraction := by
  intro u n s
  refine ⟨?_, ?_, ?_⟩
  · change execFmul _ s = execImul _ s
    rw [execFmul, execImul, guardFix_without_fraction, BitVec.toNat_zero, scaledMul_zero]
  · change execFdiv _ s = execIdiv _ s
    rw [execFdiv, execIdiv, guardFix_without_fraction, BitVec.toNat_zero, shl_zero]
  · change execFmod _ s = execImod _ s
    rw [execFmod, execImod, guardFix_without_fraction, BitVec.toNat_zero, Config.fmodPreshift, fmodNumerator, if_pos rfl,
      shl_zero]

/-! ### Saturation (44_fixed_arith.md R206 to R208) -/

/-- The arithmetic right shift floors the exact quotient (00_scope.md R14). -/
theorem shr_eq_floor (v : Int) (k : Nat) : shr v k = ⌊(v : ℚ) / 2 ^ k⌋ := by
  have hfloor := Rat.floor_intCast_div_natCast v (2 ^ k)
  push_cast at hfloor
  exact hfloor.symm

theorem scaledMul_eq_floor (f : Nat) (x y : Int) : scaledMul f x y = ⌊(x * y : ℚ) / 2 ^ f⌋ := by
  rw [scaledMul, shr_eq_floor, Int.cast_mul]

/-- Settles O27: each operation saturates its exact result, the product after the shift. -/
theorem fixed_saturation : Obligations.fixed_saturation := by
  intro t s ht
  rw [← scaledMul_eq_floor]
  exact ⟨(guardFix_of_supported ht s _).trans (saturating_eq _ _ _ s),
    (guardFix_of_supported ht s _).trans (saturating_eq _ _ _ s),
    (guardFix_of_supported ht s _).trans (saturating_eq _ _ _ s)⟩

end Sys2Proof.Machine
end

section
/-! Fraction-width conversion and rounding (45_fixed_round.md R230 to R236). Past the width check each operation wraps
one integer, which is stated in two ways: as bits of the N-bit register, and as a floor or a ceiling of the exact
number. -/

namespace Sys2Proof.Machine

/-! ### The four operations past the width check -/

theorem guardCvt_of_supported {t : FixType} {f2 : BitVec 6} (ht : t.supported = true) (hf2 : f2.toNat ≤ 32)
    (s : State) (body : Answer) : guardCvt t f2 s body = body := by
  have hwidths : (t.supported && widthSupported f2) = true := by simp [ht, widthSupported, hf2]
  rw [guardCvt_eq, if_pos hwidths]

theorem answersWord_fcvt {t : FixType} {f2 : BitVec 6} (ht : t.supported = true) (hf2 : f2.toNat ≤ 32) (s : State) :
    AnswersWord (.fcvt t f2) s (storeBits t.u (BitVec.ofInt t.n.toNat
      (convertFrac t.f.toNat f2.toNat (portValue t.u t.n.toNat s.a)))) := by
  rw [← State.valA_eq]
  exact (guardCvt_of_supported ht hf2 s _).trans (completeWrapped_eq _ _ _ s)

/-- What FFLOOR, FCEIL and FROUND share: the raw each forms of the operand, wrapped. -/
theorem answersWord_of_wrapped_raw {t : FixType} (ht : t.supported = true) {i : Instr} {s : State} (raw : Int → Int)
    (hexec : exec i s = guardFix t s (completeWrapped t.u t.n.toNat (raw (s.valA t.u t.n.toNat)) s)) :
    AnswersWord i s (storeBits t.u (BitVec.ofInt t.n.toNat (raw (portValue t.u t.n.toNat s.a)))) := by
  rw [guardFix_of_supported ht, completeWrapped_eq, State.valA_eq] at hexec
  exact hexec

theorem answersWord_ffloor {t : FixType} (ht : t.supported = true) (s : State) :
    AnswersWord (.ffloor t) s (storeBits t.u (BitVec.ofInt t.n.toNat
      (clearLow (portValue t.u t.n.toNat s.a) t.f.toNat))) :=
  answersWord_of_wrapped_raw ht (clearLow · t.f.toNat) rfl

theorem answersWord_fceil {t : FixType} (ht : t.supported = true) (s : State) :
    AnswersWord (.fceil t) s (storeBits t.u (BitVec.ofInt t.n.toNat
      (ceilRaw t.f.toNat (portValue t.u t.n.toNat s.a)))) :=
  answersWord_of_wrapped_raw ht (ceilRaw t.f.toNat) rfl

theorem answersWord_fround {t : FixType} (ht : t.supported = true) (s : State) :
    AnswersWord (.fround t) s (storeBits t.u (BitVec.ofInt t.n.toNat
      (roundRaw Config.roundNegMode t.f.toNat (portValue t.u t.n.toNat s.a)))) :=
  answersWord_of_wrapped_raw ht (roundRaw Config.roundNegMode t.f.toNat) rfl

/-! ### Fraction conversion -/

theorem convertFrac_of_le {f f2 : Nat} (h : f2 ≤ f) (v : Int) : convertFrac f f2 v = shr v (f - f2) :=
  if_pos h

theorem convertFrac_of_lt {f f2 : Nat} (h : f < f2) (v : Int) : convertFrac f f2 v = shl v (f2 - f) :=
  if_neg h.not_ge

/-- Settles O45: a right shift floors the exact quotient, and truncation commutes with a left shift. -/
theorem fraction_conversion : Obligations.fraction_conversion := by
  intro t f2 s ht hf2
  have hanswer := answersWord_fcvt ht hf2 s
  constructor
  · intro hlost
    rwa [convertFrac_of_le hlost, shr_eq_floor] at hanswer
  · intro hgained
    rwa [convertFrac_of_lt hgained, ofInt_shl, ofInt_portValue] at hanswer

/-! ### Clearing the low bits -/

/-- Clearing the low bits is a right shift followed by a left shift (00_scope.md R14). -/
theorem clearLow_eq_shl_shr (v : Int) (k : Nat) : clearLow v k = shl (shr v k) k :=
  sub_eq_of_eq_add (shr_mul_add_lowBits v k).symm

theorem getLsbD_shiftRightBits (u : Family) {n : Nat} (x : BitVec n) {k i : Nat} (h : k + i < n) :
    (shiftRightBits u x k).getLsbD i = x.getLsbD (k + i) := by
  cases u with
  | signed =>
    have hi : ¬ n ≤ i := by omega
    simp [shiftRightBits, BitVec.getLsbD_sshiftRight, h, hi]
  | unsigned => exact BitVec.getLsbD_ushiftRight x k i

/-- Whatever the family's sign shifts in, the left shift drops it, so the mask alone is left. -/
theorem shiftRightBits_shiftLeft (u : Family) {n : Nat} (x : BitVec n) (k : Nat) :
    shiftRightBits u x k <<< k = x &&& (BitVec.allOnes n <<< k) := by
  apply BitVec.eq_of_getLsbD_eq
  intro i hi
  rw [BitVec.getLsbD_and, BitVec.getLsbD_shiftLeft, BitVec.getLsbD_shiftLeft, BitVec.getLsbD_allOnes]
  by_cases hk : i < k
  · simp [hk]
  · have hbit := getLsbD_shiftRightBits u x (k := k) (i := i - k) (by omega)
    rw [Nat.add_sub_cancel' (by omega)] at hbit
    have hlt : i - k < n := by omega
    simp only [hi, hk, hlt, hbit, decide_true, decide_false, Bool.not_false, Bool.true_and, Bool.and_true]

theorem ofInt_clearLow_portValue (u : Family) (n k : Nat) (p : Word) :
    BitVec.ofInt n (clearLow (portValue u n p) k) = regBits n p &&& (BitVec.allOnes n <<< k) := by
  rw [clearLow_eq_shl_shr, ofInt_shl, portValue, shr_regValue, ofInt_regValue, shiftRightBits_shiftLeft]

/-- Settles O46: the mask is applied to the register, whatever its family. -/
theorem floor_clears_fraction_bits : Obligations.floor_clears_fraction_bits := by
  intro t s ht
  rw [← ofInt_clearLow_portValue t.u]
  exact answersWord_ffloor ht s

/-! ### The rounding terms (45_fixed_round.md R233, R235) -/

theorem ceilRaw_of_nonneg {v : Int} (h : 0 ≤ v) (f : Nat) : ceilRaw f v = clearLow (v + maskOf f) f :=
  if_pos h

theorem ceilRaw_of_neg {v : Int} (h : v < 0) (f : Nat) : ceilRaw f v = clearLow v f :=
  if_neg h.not_ge

theorem roundRaw_of_nonneg {v : Int} (h : 0 ≤ v) (mode : Config.RoundNegMode) (f : Nat) :
    roundRaw mode f v = clearLow (v + halfUnit f) f :=
  if_pos h

/-- Below 0 the model follows the formula of R235 (90_conflicts.md C2). -/
theorem roundRaw_of_neg {v : Int} (h : v < 0) (f : Nat) :
    roundRaw Config.roundNegMode f v = clearLow (v - halfUnit f) f :=
  if_neg h.not_ge

/-! ### Whole numbers near `v / 2^f` -/

theorem clearLow_eq_floor (v : Int) (f : Nat) : clearLow v f = ⌊(v : ℚ) / 2 ^ f⌋ * 2 ^ f := by
  rw [clearLow_eq_shl_shr, shl, shr_eq_floor]

/-- The rounding term `2^f - 1` turns the floor into the ceiling (45_fixed_round.md R233). -/
theorem shr_add_maskOf (v : Int) (f : Nat) : shr (v + maskOf f) f = ⌈(v : ℚ) / 2 ^ f⌉ := by
  have hpow : (0 : ℚ) < 2 ^ f := by positivity
  have hle : shr (v + maskOf f) f * 2 ^ f ≤ v + maskOf f := Int.ediv_mul_le _ (by positivity)
  have hlt : v + maskOf f < (shr (v + maskOf f) f + 1) * 2 ^ f := Int.lt_ediv_add_one_mul_self _ (by positivity)
  symm
  rw [Int.ceil_eq_iff, lt_div_iff₀ hpow, div_le_iff₀ hpow]
  generalize shr (v + maskOf f) f = q at hle hlt ⊢
  rw [maskOf] at hle hlt
  have hbelow : (q - 1) * 2 ^ f < v := by linarith
  have habove : v ≤ q * 2 ^ f := by linarith
  exact ⟨mod_cast hbelow, mod_cast habove⟩

theorem clearLow_add_maskOf (v : Int) (f : Nat) : clearLow (v + maskOf f) f = ⌈(v : ℚ) / 2 ^ f⌉ * 2 ^ f := by
  rw [clearLow_eq_shl_shr, shl, shr_add_maskOf]

/-- With fractional bits, `half` is one half of the unit (45_fixed_round.md R235). -/
theorem halfUnit_div {f : Nat} (hf : 1 ≤ f) : (halfUnit f : ℚ) / 2 ^ f = 1 / 2 := by
  obtain ⟨k, rfl⟩ : ∃ k, f = k + 1 := ⟨f - 1, by omega⟩
  rw [halfUnit, if_neg k.succ_ne_zero, Nat.add_sub_cancel, pow_succ]
  push_cast
  field_simp

theorem clearLow_add_halfUnit {f : Nat} (hf : 1 ≤ f) (v : Int) :
    clearLow (v + halfUnit f) f = ⌊(v : ℚ) / 2 ^ f + 1 / 2⌋ * 2 ^ f := by
  rw [clearLow_eq_floor, Int.cast_add, add_div, halfUnit_div hf]

theorem clearLow_sub_halfUnit {f : Nat} (hf : 1 ≤ f) (v : Int) :
    clearLow (v - halfUnit f) f = ⌊(v : ℚ) / 2 ^ f - 1 / 2⌋ * 2 ^ f := by
  rw [clearLow_eq_floor, Int.cast_sub, sub_div, halfUnit_div hf]

theorem div_two_pow_nonneg_iff {v : Int} {f : Nat} : 0 ≤ (v : ℚ) / 2 ^ f ↔ 0 ≤ v := by
  rw [le_div_iff₀ (by positivity), zero_mul, Int.cast_nonneg_iff]

theorem div_two_pow_neg_iff {v : Int} {f : Nat} : (v : ℚ) / 2 ^ f < 0 ↔ v < 0 :=
  lt_iff_lt_of_le_iff_le div_two_pow_nonneg_iff

/-- Settles O47, split by the sign of the operand as FCEIL and FROUND are. -/
theorem rounding_table : Obligations.rounding_table := by
  intro t s ht hf x whole
  have hfloor := answersWord_ffloor ht s
  have hceil := answersWord_fceil ht s
  have hround := answersWord_fround ht s
  rw [clearLow_eq_floor] at hfloor
  refine ⟨hfloor, fun hx => ?_, fun hx => ?_⟩
  · have hnonneg := div_two_pow_nonneg_iff.1 hx
    rw [ceilRaw_of_nonneg hnonneg, clearLow_add_maskOf] at hceil
    rw [roundRaw_of_nonneg hnonneg, clearLow_add_halfUnit hf] at hround
    exact ⟨hceil, hround⟩
  · have hneg := div_two_pow_neg_iff.1 hx
    rw [ceilRaw_of_neg hneg, clearLow_eq_floor] at hceil
    rw [roundRaw_of_neg hneg, clearLow_sub_halfUnit hf] at hround
    exact ⟨hceil, hround⟩

/-! ### Without fractional bits -/

theorem clearLow_zero (v : Int) : clearLow v 0 = v := by
  rw [clearLow, pow_zero, Int.emod_one, sub_zero]

theorem ceilRaw_zero (v : Int) : ceilRaw 0 v = v := by
  rcases le_or_gt 0 v with h | h
  · rw [ceilRaw_of_nonneg h, clearLow_zero, maskOf, pow_zero, sub_self, add_zero]
  · rw [ceilRaw_of_neg h, clearLow_zero]

theorem roundRaw_zero (v : Int) : roundRaw Config.roundNegMode 0 v = v := by
  have hhalf : halfUnit 0 = 0 := rfl
  rcases le_or_gt 0 v with h | h
  · rw [roundRaw_of_nonneg h, clearLow_zero, hhalf, add_zero]
  · rw [roundRaw_of_neg h, clearLow_zero, hhalf, sub_zero]

/-- Settles O48: at `F = 0` both rounding terms are 0 and no bit is cleared. -/
theorem rounding_without_fraction : Obligations.rounding_without_fraction := by
  intro t s ht hf
  have hf0 : t.f.toNat = 0 := by rw [hf]; rfl
  have hfloor := answersWord_ffloor ht s
  have hceil := answersWord_fceil ht s
  have hround := answersWord_fround ht s
  rw [hf0, clearLow_zero, ofInt_portValue] at hfloor
  rw [hf0, ceilRaw_zero, ofInt_portValue] at hceil
  rw [hf0, roundRaw_zero, ofInt_portValue] at hround
  exact ⟨hfloor, hceil, hround⟩

end Sys2Proof.Machine
end

section
/-! The trigonometric functions (46_math_trig.md R250 to R272). Past the width checks every one of them answers with one
raw, which SIN, COS and the inverse functions wrap and TAN stores; what is left is each raw in the terms of its
statement. The bits of the angle are those of the operand port (R253). -/

namespace Sys2Proof.Machine

/-! ### Past the width checks -/

theorem guardAngle_of_supported {t : FixType} (ht : t.angleSupported = true) (s : State) (body : Answer) :
    guardAngle t s body = body := by
  rw [guardAngle_eq, if_pos ht]

/-- What the functions with a wrapped result share: the raw each forms of port `a`, wrapped (46_math_trig.md R251). -/
theorem answersWord_of_wrapped_angle_raw {t : FixType} (ht : t.angleSupported = true) {i : Instr} {s : State}
    (raw : Int → Int)
    (hexec : exec i s = guardAngle t s (completeWrapped t.u t.n.toNat (raw (s.valA t.u t.n.toNat)) s)) :
    AnswersWord i s (storeBits t.u (BitVec.ofInt t.n.toNat (raw (portValue t.u t.n.toNat s.a)))) := by
  rw [guardAngle_of_supported ht, completeWrapped_eq, State.valA_eq] at hexec
  exact hexec

section
variable {t : FixType} (ht : t.angleSupported = true) (s : State)
include ht

theorem answersWord_sin : AnswersWord (.sin t) s (storeBits t.u (BitVec.ofInt t.n.toNat
    (sinRaw Config.params t.u t.n.toNat t.f.toNat (portValue t.u t.n.toNat s.a)))) :=
  answersWord_of_wrapped_angle_raw ht (sinRaw Config.params t.u t.n.toNat t.f.toNat) rfl

theorem answersWord_cos : AnswersWord (.cos t) s (storeBits t.u (BitVec.ofInt t.n.toNat
    (sinRaw Config.params t.u t.n.toNat t.f.toNat (quarterAhead t.u t.n.toNat (portValue t.u t.n.toNat s.a))))) :=
  answersWord_of_wrapped_angle_raw ht
    (fun v => sinRaw Config.params t.u t.n.toNat t.f.toNat (quarterAhead t.u t.n.toNat v)) rfl

theorem answersWord_tan : AnswersWord (.tan t) s
    (BitVec.ofInt 32 (tanRaw Config.params t.u t.n.toNat t.f.toNat (portValue t.u t.n.toNat s.a))) := by
  rw [← State.valA_eq]
  exact (guardAngle_of_supported ht s _).trans (completeInRange_eq _ s)

theorem answersWord_asin : AnswersWord (.asin t) s (storeBits t.u (BitVec.ofInt t.n.toNat
    (asinRaw Config.params t.u t.n.toNat t.f.toNat (portValue t.u t.n.toNat s.a)))) :=
  answersWord_of_wrapped_angle_raw ht (asinRaw Config.params t.u t.n.toNat t.f.toNat) rfl

theorem answersWord_acos : AnswersWord (.acos t) s (storeBits t.u (BitVec.ofInt t.n.toNat
    (acosRaw Config.params t.u t.n.toNat t.f.toNat (portValue t.u t.n.toNat s.a)))) :=
  answersWord_of_wrapped_angle_raw ht (acosRaw Config.params t.u t.n.toNat t.f.toNat) rfl

theorem answersWord_atan : AnswersWord (.atan t) s (storeBits t.u (BitVec.ofInt t.n.toNat
    (atanRaw Config.params t.u t.n.toNat t.f.toNat (portValue t.u t.n.toNat s.a)))) :=
  answersWord_of_wrapped_angle_raw ht (atanRaw Config.params t.u t.n.toNat t.f.toNat) rfl

/-- `y` is the operand on port `a`, `x` the one on port `b` (46_math_trig.md R272). -/
theorem answersWord_atan2 : AnswersWord (.atan2 t) s (storeBits t.u (BitVec.ofInt t.n.toNat
    (atan2Raw Config.params t.u t.n.toNat t.f.toNat (portValue t.u t.n.toNat s.a) (portValue t.u t.n.toNat s.b)))) := by
  rw [← State.valB_eq]
  exact answersWord_of_wrapped_angle_raw ht
    (fun y => atan2Raw Config.params t.u t.n.toNat t.f.toNat y (s.valB t.u t.n.toNat)) rfl

end

/-! ### Sine and cosine -/

/-- SIN in terms of the bits of port `a`, its magnitude still unread (46_math_trig.md R253, R256). -/
theorem answersWord_sin_of_magnitude {t : FixType} (ht : t.angleSupported = true) {s : State} {mag : Q16}
    (hmag : sinMag Config.params t.n.toNat (s.a.getLsbD (t.n.toNat - 2)) (s.a.setWidth (t.n.toNat - 2)).toNat = mag) :
    AnswersWord (.sin t) s (storeBits t.u (BitVec.ofInt t.n.toNat
      (Config.params.rescaleOut t.u t.n.toNat t.f.toNat (if s.a.getLsbD (t.n.toNat - 1)
        then if mag = BitVec.intMin 32 then Config.params.q16Outside (2 ^ 31) else -mag else mag)))) := by
  obtain ⟨-, hn, -⟩ := (FixType.angleSupported_iff t).1 ht
  have hanswer := answersWord_sin ht s
  rwa [sinRaw, sinQ16_portValue _ _ _ _ hn, negQ16_eq, hmag] at hanswer

theorem sinMag_of_retro {n : Nat} (hn : n ≤ 14) (P : Config.Params) (mirror : Bool) (ph : Nat) :
    sinMag P n mirror ph = sample P.sinLut (retroIndex n mirror ph) := by
  rw [sinMag, Config.sinRetroMaxN, if_pos hn]

theorem sinMag_of_interpolated {n : Nat} (hn : 15 ≤ n) (P : Config.Params) (mirror : Bool) (ph : Nat) :
    sinMag P n mirror ph = spline P (sample P.sinLut) (P.sinPos n mirror ph) := by
  rw [sinMag, Config.sinRetroMaxN, if_neg (by omega)]

/-- No phase bit is lost at the top of the 12-bit index (46_math_trig.md R257). -/
theorem toNat_phase_on_top {n : Nat} (h2 : 2 ≤ n) (h14 : n ≤ 14) (ph : BitVec (n - 2)) :
    (ph.setWidth 12 <<< (14 - n)).toNat = ph.toNat * 2 ^ (14 - n) := by
  have hfits : ph.toNat * 2 ^ (14 - n) < 2 ^ 12 := by
    calc ph.toNat * 2 ^ (14 - n)
      _ < 2 ^ (n - 2) * 2 ^ (14 - n) := Nat.mul_lt_mul_of_pos_right ph.isLt (by positivity)
      _ = 2 ^ 12 := by rw [← pow_add, show n - 2 + (14 - n) = 12 by omega]
  rw [BitVec.toNat_shiftLeft, BitVec.toNat_setWidth, Nat.shiftLeft_eq, Nat.mod_mul_mod, Nat.mod_eq_of_lt hfits]

/-- The retro index is a 12-bit register; to mirror it is to invert its bits (46_math_trig.md R257). -/
theorem retroIndex_eq_toNat {n : Nat} (h2 : 2 ≤ n) (h14 : n ≤ 14) (mirror : Bool) (ph : BitVec (n - 2)) :
    retroIndex n mirror ph.toNat =
      ((if mirror then ~~~(ph.setWidth 12 <<< (14 - n)) else ph.setWidth 12 <<< (14 - n)).toNat : Int) := by
  have hstraight : shl ph.toNat (14 - n) = ((ph.setWidth 12 <<< (14 - n)).toNat : Int) := by
    rw [toNat_phase_on_top h2 h14, shl]
    norm_cast
  rw [retroIndex, hstraight]
  cases mirror with
  | false => rfl
  | true =>
    have hlt := (ph.setWidth 12 <<< (14 - n)).isLt
    simp only [if_true, BitVec.toNat_not, Config.lutMask]
    omega

/-- A 12-bit index reads its own entry: the clamp to the edges does nothing. -/
theorem sample_toNat (T : Fin 4096 → Q16) (index : BitVec 12) :
    sample T index.toNat = T (Fin.ofNat 4096 index.toNat) := by
  have hlt := index.isLt
  rw [sample_eq, show (max 0 (min (index.toNat : Int) 4095)).toNat = index.toNat by omega]

/-- Settles O49: the retro magnitude is the entry at the 12-bit index. -/
theorem retro_sine : Obligations.retro_sine := by
  intro t s ht hn14
  obtain ⟨-, hn2, -⟩ := (FixType.angleSupported_iff t).1 ht
  apply answersWord_sin_of_magnitude ht
  rw [sinMag_of_retro hn14, retroIndex_eq_toNat hn2 hn14, sample_toNat]

/-- Settles O50: the interpolated magnitude is the spline through clamped samples. -/
theorem interpolated_sine : Obligations.interpolated_sine := by
  intro t s ht hn
  apply answersWord_sin_of_magnitude ht
  rw [sinMag_of_interpolated hn, spline_eq]
  simp only [sample_eq]

/-- Settles O51: both answers wrap the sine of one angle. -/
theorem cosine_is_sine_ahead : Obligations.cosine_is_sine_ahead := by
  intro t s ht
  obtain ⟨-, hn2, hn31⟩ := (FixType.angleSupported_iff t).1 ht
  have hcos := answersWord_cos ht s
  rw [quarterAhead_portValue _ _ _ hn2 (by omega)] at hcos
  exact ⟨_, hcos, answersWord_sin ht _⟩

/-! ### Tangent -/

/-- A whole number of quarter turns is a quadrant with no phase (46_math_trig.md R253, R261). -/
theorem phase_quadrant_iff (u : Family) (n k : Nat) (p : Word) :
    phase n (portValue u n p) = 0 ∧ quadrant n (portValue u n p) = k ↔ (regBits n p).toNat = k * 2 ^ (n - 2) := by
  rw [phase_portValue, quadrant_portValue]
  constructor
  · rintro ⟨hphase, rfl⟩
    exact (Nat.div_mul_cancel (Nat.dvd_of_mod_eq_zero hphase)).symm
  · intro hangle
    rw [hangle]
    exact ⟨Nat.mul_mod_left _ _, Nat.mul_div_cancel _ (by positivity)⟩

section
variable (P : Config.Params) (u : Family) (n f : Nat) (p : Word)

theorem tanRaw_of_90 (hangle : (regBits n p).toNat = 2 ^ (n - 2)) :
    tanRaw P u n f (portValue u n p) = greatestValue u n := by
  rw [tanRaw, if_pos ((phase_quadrant_iff u n 1 p).2 (by rw [hangle, one_mul])), tmax_eq]

theorem tanRaw_of_270 (hangle : (regBits n p).toNat = 3 * 2 ^ (n - 2)) :
    tanRaw P u n f (portValue u n p) = leastValue u n := by
  have hpos : 0 < 2 ^ (n - 2) := by positivity
  have hnot90 : ¬ (regBits n p).toNat = 1 * 2 ^ (n - 2) := by omega
  rw [tanRaw, if_neg (hnot90 ∘ (phase_quadrant_iff u n 1 p).1), if_pos ((phase_quadrant_iff u n 3 p).2 hangle),
    tmin_eq]

theorem tanRaw_elsewhere (h90 : (regBits n p).toNat ≠ 2 ^ (n - 2)) (h270 : (regBits n p).toNat ≠ 3 * 2 ^ (n - 2)) :
    tanRaw P u n f (portValue u n p) =
      wrap u n (tanCore P u n f ((regBits n p).toNat / 2 ^ (n - 2)) ((regBits n p).toNat % 2 ^ (n - 2))) := by
  rw [← one_mul (2 ^ (n - 2))] at h90
  rw [tanRaw, if_neg (h90 ∘ (phase_quadrant_iff u n 1 p).1), if_neg (h270 ∘ (phase_quadrant_iff u n 3 p).1),
    phase_portValue, quadrant_portValue]

end

/-- Settles O52: the two sentinels are the angles of one and of three quarter turns. -/
theorem tangent : Obligations.tangent := by
  intro t s ht
  have hanswer := answersWord_tan ht s
  refine ⟨fun h90 => ?_, fun h270 => ?_, fun h90 h270 => ?_⟩
  · rwa [tanRaw_of_90 _ _ _ _ _ h90] at hanswer
  · rwa [tanRaw_of_270 _ _ _ _ _ h270] at hanswer
  · rw [tanRaw_elsewhere _ _ _ _ _ h90 h270] at hanswer
    rwa [← cell_wrap]

/-- Settles O53: the conditions of the core, tried in order, cut the widths into the four buckets. -/
theorem tangent_buckets : Obligations.tangent_buckets := by
  intro P u n f quad ph
  refine ⟨fun hn => ?_, fun hn3 hn12 => ?_, fun hn => ?_, fun hn => ?_, fun hn => ?_⟩
  · rw [tanCore, if_pos hn]
  · rw [tanCore, if_neg (by omega), if_pos (.inl hn12)]
  · rw [tanCore, if_neg (by omega)]
    by_cases hdirect : n ≤ 12 ∨ (n = 13 ∧ P.tan13Direct = true)
    · exact .inl (if_pos hdirect)
    · exact .inr (by rw [if_neg hdirect, if_pos (by omega)])
  · rw [tanCore, if_neg (by omega), if_neg (by omega), if_pos (by omega)]
  · rw [tanCore, if_neg (by omega), if_neg (by omega), if_neg (by omega), spline_eq]
    simp only [sample_eq]

/-! ### Exact results that a Q16.16 number may not hold (00_scope.md R12) -/

theorem toQ16_of_outside (P : Config.Params) {v : Int} (h : v < -2 ^ 31 ∨ 2 ^ 31 ≤ v) :
    toQ16 P v = P.q16Outside v :=
  if_neg (by omega)

/-! ### Arcsine and arccosine -/

section
variable {P : Config.Params} {n : Nat} {x : Q16}

/-- The retro band (46_math_trig.md R266 (2)). -/
theorem asinCore_of_retro (hx : |x.toInt| ≤ 65536) (hn : n ≤ 6) : asinCore P n x = asinNearest P n x := by
  rw [asinCore, Config.q16One, if_neg hx.not_gt, Config.asinRetroMaxN, if_pos hn]

/-- Above the retro band (46_math_trig.md R266 (1), (3), (4)). -/
theorem asinCore_of_interpolated (hx : |x.toInt| ≤ 65536) (hn : 7 ≤ n) : asinCore P n x = asinSpline P n x := by
  rw [asinCore, Config.q16One, if_neg hx.not_gt, Config.asinRetroMaxN, if_neg (by omega)]

theorem beyondSin75_of_lt (h : P.sin75.toInt < |x.toInt|) : beyondSin75 P x = true := by
  rw [beyondSin75, decide_eq_true h, Bool.true_or]

theorem beyondSin75_of_gt (h : |x.toInt| < P.sin75.toInt) : beyondSin75 P x = false := by
  rw [beyondSin75, decide_eq_false h.not_gt, decide_eq_false h.ne, Bool.and_false, Bool.or_false]

theorem beyondSin75_of_eq (h : |x.toInt| = P.sin75.toInt) : beyondSin75 P x = P.sin75Inclusive := by
  rw [beyondSin75, decide_eq_false h.le.not_gt, decide_eq_true h, Bool.and_true, Bool.false_or]

theorem asinNearest_of_tail (htail : P.asinRetroTail = true) (h : beyondSin75 P x = true) : asinNearest P n x =
    forSign (P.asinTailAngle n x) x (tailSample P (nearestIndex (P.asinTailPos n x) (P.asinTieUp n x))) := by
  rw [asinNearest, if_pos (by rw [htail, h, Bool.and_true])]

theorem asinNearest_of_main (h : beyondSin75 P x = false ∨ P.asinRetroTail = false) :
    asinNearest P n x = sample P.asinLut (nearestIndex (P.asinPos n x) (P.asinTieUp n x)) := by
  have hmain : (P.asinRetroTail && beyondSin75 P x) = false := by
    rw [Bool.and_eq_false_iff]
    exact h.symm
  rw [asinNearest, hmain, if_neg Bool.false_ne_true]

end

/-- Settles O54: the two instructions differ after the core only, and the core splits by the band and by the side of
sin 75 degrees, with a nearest index that lies within half an entry of its position. -/
theorem arcsine_and_arccosine : Obligations.arcsine_and_arccosine := by
  refine ⟨fun t s ht => ⟨answersWord_asin ht s, answersWord_acos ht s⟩, ?_⟩
  intro P n x hx main tail through tailAngle nearest
  have hmain : sample P.asinLut = main := funext (sample_eq P.asinLut)
  have htail : tailSample P = tail := funext (tailSample_eq P)
  refine ⟨fun hn hbeyond => ?_, fun hn hbelow => ?_, fun hn hat => ?_, fun hn hmainSide => ?_,
    fun hn hbeyond hretro => ?_⟩
  · rw [asinCore_of_interpolated hx hn, asinSpline, beyondSin75_of_lt hbeyond, htail]
    rfl
  · rw [asinCore_of_interpolated hx hn, asinSpline, beyondSin75_of_gt hbelow, hmain]
    rfl
  · rw [asinCore_of_interpolated hx hn, asinSpline, beyondSin75_of_eq hat, hmain, htail]
    rfl
  · refine ⟨_, nearestIndex_spec (P.asinPos n x) (P.asinTieUp n x), ?_⟩
    rw [asinCore_of_retro hx hn, asinNearest_of_main (hmainSide.imp_left beyondSin75_of_gt), hmain]
  · refine ⟨_, nearestIndex_spec (P.asinTailPos n x) (P.asinTieUp n x), ?_⟩
    rw [asinCore_of_retro hx hn, asinNearest_of_tail hretro (beyondSin75_of_lt hbeyond), htail]
    rfl

/-! ### Arctangents -/

section
variable {P : Config.Params} {n : Nat}

theorem atanCore_of_le {x : Q16} (hx : |x.toInt| ≤ 65536) :
    atanCore P n x = forSign (P.atanAngle n x) x (atanTable P n (BitVec.ofInt 32 |x.toInt|)) := by
  rw [atanCore, Config.q16One, if_neg hx.not_gt, ← BitVec.ofInt_natCast, Int.natCast_natAbs]

theorem atanCore_of_gt {x : Q16} (hx : 65536 < |x.toInt|) : atanCore P n x =
    forSign (P.atanAngle n x) x (subQ16 P P.halfPi (atanTable P n (P.atanRecip n x.toInt.natAbs))) := by
  rw [atanCore, Config.q16One, if_pos hx]

theorem atan2Core_off_axes {y x : Int} (hy : y ≠ 0) (hx : x ≠ 0) : atan2Core P n y x =
    P.atan2Angle n (atan2Steep P y x) (decide (x < 0)) (decide (y < 0)) (atan2Table P n (P.atan2Ratio n y x)) := by
  rw [atan2Core, if_neg (not_or.2 ⟨hy, hx⟩)]

theorem atan2Steep_of_lt {y x : Int} (h : |x| < |y|) : atan2Steep P y x = true := by
  rw [atan2Steep, decide_eq_true h, Bool.true_or]

theorem atan2Steep_of_gt {y x : Int} (h : |y| < |x|) : atan2Steep P y x = false := by
  rw [atan2Steep, decide_eq_false h.not_gt, decide_eq_false h.ne', Bool.and_false, Bool.or_false]

theorem atan2Steep_of_eq {y x : Int} (h : |x| = |y|) : atan2Steep P y x = P.atan2EqualSteep := by
  rw [atan2Steep, decide_eq_false h.ge.not_gt, decide_eq_true h, Bool.and_true, Bool.false_or]

end

/-- Settles O55: both cores read `ATAN_LUT` through one lookup; ATAN splits at magnitude 1.0 and ATAN2 by the order of
the two magnitudes. -/
theorem arctangents : Obligations.arctangents := by
  refine ⟨fun t s ht => ⟨answersWord_atan ht s, answersWord_atan2 ht s⟩, ?_⟩
  intro P n entry lookup ofRatio signed
  have hentry : sample P.atanLut = entry := funext (sample_eq P.atanLut)
  have hlookup (interpolates : Bool) (pos : Q16) (index : Fin 4096) :
      atanLookup P interpolates pos index = lookup interpolates pos index := by
    rw [atanLookup, hentry]
    rfl
  have hofRatio (r : Q16) : atanTable P n r = ofRatio r := hlookup _ _ _
  refine ⟨fun x hx => ?_, fun x hx => ⟨fun hlo hhi => ?_, fun hout => ?_⟩,
    fun y x hy hx => ⟨fun h => ?_, fun h => ?_, fun h => ?_⟩⟩
  · rw [atanCore_of_le hx, hofRatio]
    rfl
  · rw [atanCore_of_gt hx, hofRatio, subQ16, toQ16_of_range P _ hlo hhi]
    rfl
  · rw [atanCore_of_gt hx, hofRatio, subQ16, toQ16_of_outside P hout]
    rfl
  · rw [atan2Core_off_axes hy hx, atan2Steep_of_lt h, atan2Table, hlookup]
  · rw [atan2Core_off_axes hy hx, atan2Steep_of_gt h, atan2Table, hlookup]
  · rw [atan2Core_off_axes hy hx, atan2Steep_of_eq h, atan2Table, hlookup]

end Sys2Proof.Machine
end

section
/-! Square root, exponential and logarithm (47_math_sqrt_exp_log.md). Past the width check each of them wraps one raw.
The root is exact because a pre-shifted magnitude fits in 64 bits (R300, R308); of the cores what is left is the laws of
R302, R304 and R306 in the ranges of the statement. -/

namespace Sys2Proof.Machine

/-! ### Square root -/

theorem isqrt_eq_sqrt {x : Nat} (hx : x < 2 ^ 64) : isqrt x = Nat.sqrt x :=
  Nat.eq_sqrt.2 (isqrt_spec x hx)

/-- The magnitude of a number of `n` bits has at most `n` bits, that of the least signed one included. -/
theorem natAbs_regValue_lt (u : Family) {n : Nat} (x : BitVec n) : (regValue u x).natAbs < 2 ^ n := by
  cases u with
  | signed =>
    have hpos : 0 < 2 ^ n := by positivity
    have hlo := BitVec.le_two_mul_toInt (x := x)
    have hhi := BitVec.two_mul_toInt_lt (x := x)
    zify at *
    rw [regValue, abs_lt]
    omega
  | unsigned => exact x.isLt

/-- 64 bits hold every argument SQRT can form (47_math_sqrt_exp_log.md R300, corner case 1). -/
theorem preshifted_magnitude_lt {t : FixType} (ht : t.supported = true) (p : Word) :
    (portValue t.u t.n.toNat p).natAbs * 2 ^ t.f.toNat < 2 ^ 64 := by
  obtain ⟨hn, hf⟩ := (FixType.supported_iff t).1 ht
  calc (portValue t.u t.n.toNat p).natAbs * 2 ^ t.f.toNat
    _ < 2 ^ t.n.toNat * 2 ^ t.f.toNat := Nat.mul_lt_mul_of_pos_right (natAbs_regValue_lt _ _) (by positivity)
    _ = 2 ^ (t.n.toNat + t.f.toNat) := (pow_add 2 _ _).symm
    _ ≤ 2 ^ 64 := Nat.pow_le_pow_right (by decide) (by omega)

theorem answersWord_sqrt {t : FixType} (ht : t.supported = true) (s : State) :
    AnswersWord (.sqrt t) s (storeBits t.u (BitVec.ofInt t.n.toNat
      (sqrtRaw t.f.toNat (portValue t.u t.n.toNat s.a)))) :=
  answersWord_of_wrapped_raw ht (sqrtRaw t.f.toNat) rfl

/-- Settles O56: the root taken is that of a number below `2^64`, where bit by bit it is the exact one. -/
theorem square_root : Obligations.square_root := by
  intro t s ht
  have hanswer := answersWord_sqrt ht s
  rwa [sqrtRaw, isqrt_eq_sqrt (preshifted_magnitude_lt ht s.a), BitVec.ofInt_natCast] at hanswer

/-! ### Exponential and logarithm -/

section
variable {t : FixType} (ht : t.supported = true) (s : State)
include ht

theorem answersWord_exp2 : AnswersWord (.exp2 t) s (storeBits t.u (BitVec.ofInt t.n.toNat
    (exp2Core Config.params t.u t.n.toNat t.f.toNat (portValue t.u t.n.toNat s.a)))) :=
  answersWord_of_wrapped_raw ht (exp2Raw Config.params t.u t.n.toNat t.f.toNat) rfl

theorem answersWord_exp : AnswersWord (.exp t) s (storeBits t.u (BitVec.ofInt t.n.toNat
    (exp2Core Config.params t.u t.n.toNat t.f.toNat
      (expArg Config.params t.u t.n.toNat t.f.toNat (portValue t.u t.n.toNat s.a))))) :=
  answersWord_of_wrapped_raw ht (expRaw Config.params t.u t.n.toNat t.f.toNat) rfl

theorem answersWord_log2 : AnswersWord (.log2 t) s (storeBits t.u (BitVec.ofInt t.n.toNat
    (log2Core Config.params t.u t.n.toNat t.f.toNat (portValue t.u t.n.toNat s.a)))) :=
  answersWord_of_wrapped_raw ht (log2Raw Config.params t.u t.n.toNat t.f.toNat) rfl

end

section
variable (P : Config.Params) (u : Family) (n f : Nat)

/-- Only the greatest value limits a power of two: none lies below the least value of a type (R302). -/
theorem exp2Core_whole_of_le_greatest {k : Int} (hf : 0 ≤ k + f) (hbits : 0 ≤ k + P.exp2Bits u n f (k * 2 ^ f))
    (hword : k ≤ 0 ∨ 2 ^ (k + P.exp2Bits u n f (k * 2 ^ f)).toNat ≤ greatestValue u 32)
    (hhi : 2 ^ (k + f).toNat ≤ greatestValue u n) : exp2Core P u n f (k * 2 ^ f) = 2 ^ (k + f).toNat := by
  have hlo : leastValue u n ≤ 2 ^ (k + f).toNat := le_trans (zero_mem_typeRange u n).1 (by positivity)
  rw [← tmin_eq] at hlo
  rw [← tmax_eq] at hhi hword
  rw [add_comm k (P.exp2Bits u n f (k * 2 ^ f) : Int)] at hbits hword
  exact exp2Core_whole P u n f k hbits hword hf hlo hhi

/-- The power of 0 is 1.0: a working precision, whatever it is, holds `2^0` (R302). -/
theorem exp2Core_zero (hone : 2 ^ f ≤ greatestValue u n) : exp2Core P u n f 0 = 2 ^ f := by
  have hwhole := exp2Core_whole_of_le_greatest P u n f (k := 0) (by omega) (by omega) (.inl le_rfl)
    (by simpa using hone)
  simpa using hwhole

theorem expArg_zero : expArg P u n f 0 = 0 := by
  rw [expArg, zero_mul, scaled_zero]

/-- Where the type holds the sum, LOG2 is the position of the highest set bit plus the linear correction (R306). -/
theorem log2Core_of_range {k : Nat} {v : Int} (hk : k < 32) (hv : 2 ^ k ≤ v) (hv' : v < 2 ^ (k + 1))
    (hsum : ((k : Int) - f) * 2 ^ f + log2Correction P u n f k v ∈ typeRange u n) :
    log2Core P u n f v = ((k : Int) - f) * 2 ^ f + log2Correction P u n f k v := by
  rw [mem_typeRange, ← tmin_eq, ← tmax_eq] at hsum
  rw [log2Core_of_bounds P u n f k v hv hv' hk, rawOrElse_of_range _ _ _ _ hsum.1 hsum.2]

end

/-- Settles O57: the three answers wrap their cores, and each law of a core holds where the type holds its result. -/
theorem exponential_and_logarithm : Obligations.exponential_and_logarithm := by
  refine ⟨fun t s ht => ⟨answersWord_exp2 ht s, answersWord_exp ht s, answersWord_log2 ht s⟩, fun P u n f => ?_⟩
  refine ⟨fun k => exp2Core_whole_of_le_greatest P u n f, exp2Core_zero P u n f, expArg_zero P u n f, ?_⟩
  intro v k hk hv hv' linear sum hlo hhi
  exact log2Core_of_range P u n f hk hv hv' ⟨hlo, hhi⟩

end Sys2Proof.Machine
end

section
/-! Reset (70_reset_and_hazards.md R452). -/

namespace Sys2Proof.Machine

theorem State.conforms_of_no_response {s : State} (h : s.response = none) : s.Conforms := by
  intro resp hresp
  rw [h] at hresp
  contradiction

/-- Settles O10: with no response there is none whose form could be wrong. -/
theorem reset_has_no_response : Obligations.reset_has_no_response :=
  have hnone : State.reset.response = none := rfl
  ⟨hnone, State.conforms_of_no_response hnone⟩

end Sys2Proof.Machine
end

section
/-! Errors (60_exceptions.md R401 to R405): the error of every instruction, said once. The widths are checked first
(R405); past them a division, a shift, a rotate, a byte access and FromBytes each check one operand, and nothing else can
fail. Every statement then only picks the instructions that can raise its kind. -/

namespace Sys2Proof

open Machine

/-- The error that an instruction of supported widths answers with, if any (60_exceptions.md R401 to R403). -/
def Instr.operandError (i : Instr) (s : State) : Option ErrorKind :=
  match i with
  | .idiv t | .imod t => if regBits t.n.toNat s.b = 0#_ then some .divisionByZero else none
  | .fdiv t | .fmod t => if regBits t.n.toNat s.b = 0#_ then some .divisionByZero else none
  | .imulpow2 t | .idivpow2 t | .ishl t | .ishr t =>
    if 0 ≤ s.b.toInt ∧ s.b.toInt < t.n.toNat then none else some .rangeError
  | .imodpow2 t => if 0 ≤ s.b.toInt ∧ s.b.toInt ≤ t.n.toNat then none else some .rangeError
  | .irol t | .iror t => if t.n = 0#6 then some .rangeError else none
  | .igetbyte t | .isetbyte t =>
    if 0 ≤ s.b.toInt ∧ s.b.toInt < byteCount t.n.toNat then none else some .rangeError
  | .fgetbyte t | .fsetbyte t =>
    if 0 ≤ s.b.toInt ∧ s.b.toInt < byteCount t.n.toNat then none else some .rangeError
  | .ifrombytes t => if byteCount t.n.toNat ≤ s.b.toNat then none else some .formatError
  | .ffrombytes t => if s.b.toNat = byteCount t.n.toNat then none else some .formatError
  | _ => none

/-- The error of an instruction: an unsupported width comes before everything else (60_exceptions.md R404, R405). -/
def Instr.error (i : Instr) (s : State) : Option ErrorKind :=
  if i.wellFormed then i.operandError s else some .notSupportedError

namespace Machine

/-- The answer `x` to the request `s` carries the error `err`, or none. -/
def HasError (s : State) (x : Answer) (err : Option ErrorKind) : Prop := ∀ kind, x = raise kind s ↔ err = some kind

section
variable {s : State}

/-! ### The ways of answering -/

theorem raise_hasError (kind : ErrorKind) : HasError s (raise kind s) (some kind) := by
  intro kind'
  rw [raise, raise, next_respond_inj, Response.error.injEq, Option.some.injEq]

theorem complete_hasError (r : Word) : HasError s (complete r s) none := by
  intro kind
  rw [complete, raise, next_respond_inj]
  exact iff_of_false nofun nofun

theorem completeBytes_hasError (r r2 : Word) : HasError s (completeBytes r r2 s) none := by
  intro kind
  rw [completeBytes, raise, next_respond_inj]
  exact iff_of_false nofun nofun

theorem ite_hasError {c c' : Prop} [Decidable c] [Decidable c'] (hc : c ↔ c') {x y : Answer}
    {err err' : Option ErrorKind} (hx : HasError s x err) (hy : HasError s y err') :
    HasError s (if c then x else y) (if c' then err else err') := by
  by_cases h : c
  · rwa [if_pos h, if_pos (hc.1 h)]
  · rwa [if_neg h, if_neg (mt hc.2 h)]

/-! ### The width checks -/

theorem guardInt_hasError {t : IntType} {body : Answer} {err : Option ErrorKind} (hbody : HasError s body err) :
    HasError s (guardInt t s body) (if t.supported then err else some .notSupportedError) := by
  rw [guardInt_eq]
  exact ite_hasError Iff.rfl hbody (raise_hasError _)

theorem guardFix_hasError {t : FixType} {body : Answer} {err : Option ErrorKind} (hbody : HasError s body err) :
    HasError s (guardFix t s body) (if t.supported then err else some .notSupportedError) := by
  rw [guardFix_eq]
  exact ite_hasError Iff.rfl hbody (raise_hasError _)

theorem guardCvt_hasError {t : FixType} {f2 : BitVec 6} {body : Answer} {err : Option ErrorKind}
    (hbody : HasError s body err) :
    HasError s (guardCvt t f2 s body)
      (if t.supported && widthSupported f2 then err else some .notSupportedError) := by
  rw [guardCvt_eq]
  exact ite_hasError Iff.rfl hbody (raise_hasError _)

theorem guardAngle_hasError {t : FixType} {body : Answer} {err : Option ErrorKind} (hbody : HasError s body err) :
    HasError s (guardAngle t s body) (if t.angleSupported then err else some .notSupportedError) := by
  rw [guardAngle_eq]
  exact ite_hasError Iff.rfl hbody (raise_hasError _)

/-! ### The operand checks -/

theorem dividing_hasError {u : Family} {n : Nat} {op : Int → Int → Int} {num : Int} :
    HasError s (dividing u n op num s) (if regBits n s.b = 0#n then some .divisionByZero else none) := by
  rw [dividing, State.valB_eq]
  exact ite_hasError (portValue_eq_zero u n s.b) (raise_hasError _) (complete_hasError _)

/-- A check for what lies outside the domain of a count or an index (60_exceptions.md R402). -/
theorem outside_hasError {c domain : Prop} [Decidable c] [Decidable domain] (hc : c ↔ ¬domain) (r : Word) :
    HasError s (if c then raise .rangeError s else complete r s) (if domain then none else some .rangeError) := by
  rw [← ite_not (p := domain)]
  exact ite_hasError hc (raise_hasError _) (complete_hasError r)

theorem rotating_hasError {rot : Nat → Nat → Nat → Nat} {t : IntType} :
    HasError s (rotating rot t.u t.n.toNat s) (if t.n = 0#6 then some .rangeError else none) :=
  ite_hasError (IntType.width_eq_zero_iff t) (raise_hasError _) (complete_hasError _)

theorem fromBytes_hasError {accepts : Nat → Bool} {fits : Prop} [Decidable fits] {u : Family} {n : Nat}
    (hfits : accepts s.b.toNat ↔ fits) :
    HasError s (fromBytes accepts u n s) (if fits then none else some .formatError) :=
  ite_hasError hfits (complete_hasError _) (raise_hasError _)

theorem not_inDomain_iff (v bound : Int) : v < 0 ∨ bound ≤ v ↔ ¬(0 ≤ v ∧ v < bound) := by omega

theorem shifting_hasError {n : Nat} {result : Nat → Word} :
    HasError s (shifting n s fun k => complete (result k) s)
      (if 0 ≤ s.b.toInt ∧ s.b.toInt < n then none else some .rangeError) :=
  outside_hasError (not_inDomain_iff s.b.toInt n) _

theorem getByte_hasError {u : Family} {n : Nat} : HasError s (getByte u n s)
    (if 0 ≤ s.b.toInt ∧ s.b.toInt < byteCount n then none else some .rangeError) :=
  outside_hasError (not_inDomain_iff s.b.toInt (byteCount n)) _

theorem setByte_hasError {u : Family} {n : Nat} : HasError s (setByte u n s)
    (if 0 ≤ s.b.toInt ∧ s.b.toInt < byteCount n then none else some .rangeError) :=
  outside_hasError (not_inDomain_iff s.b.toInt (byteCount n)) _

end

/-! ### Every instruction -/

/-- Every meaning is its width check around one of the shared operations, whose error is known. -/
theorem exec_hasError (i : Instr) (s : State) : HasError s (exec i s) (i.error s) := by
  cases i with
  | iconst t sel => exact guardInt_hasError (complete_hasError _)
  | iwrap t | iadd t | isub t | imul t | iaddsat t | isubsat t | imulsat t | iclamp t | iclamp01 t | iclampofs t
  | ipopcnt t | iparity t | ibsr t | ibsf t =>
    exact guardInt_hasError (complete_hasError _)
  | iclz t | ictz t =>
    refine guardInt_hasError ?_
    split <;> exact complete_hasError _
  | idiv t | imod t => exact guardInt_hasError dividing_hasError
  | imulpow2 t | idivpow2 t | ishl t | ishr t => exact guardInt_hasError shifting_hasError
  | imodpow2 t =>
    refine guardInt_hasError (outside_hasError ?_ _)
    rw [operandI_eq]
    omega
  | irol t | iror t => exact guardInt_hasError rotating_hasError
  | itobytes t => exact guardInt_hasError (completeBytes_hasError _ _)
  | ifrombytes t => exact guardInt_hasError (fromBytes_hasError decide_eq_true_iff)
  | igetbyte t => exact guardInt_hasError getByte_hasError
  | isetbyte t => exact guardInt_hasError setByte_hasError
  | fconst t sel => exact guardFix_hasError (complete_hasError _)
  | fwrap t | fadd t | fsub t | fmul t | faddsat t | fsubsat t | fmulsat t | fclamp t | fclamp01 t | fclampofs t
  | ffloor t | fceil t | fround t | sqrt t | exp2 t | exp t | log2 t =>
    exact guardFix_hasError (complete_hasError _)
  | fdiv t | fmod t => exact guardFix_hasError dividing_hasError
  | fcvt t f2 => exact guardCvt_hasError (complete_hasError _)
  | ftobytes t => exact guardFix_hasError (completeBytes_hasError _ _)
  | ffrombytes t => exact guardFix_hasError (fromBytes_hasError decide_eq_true_iff)
  | fgetbyte t => exact guardFix_hasError getByte_hasError
  | fsetbyte t => exact guardFix_hasError setByte_hasError
  | sin t | cos t | tan t | asin t | acos t | atan t | atan2 t => exact guardAngle_hasError (complete_hasError _)

/-- A step answers with an error other than IllegalCommand where it serves an instruction that has that error. -/
theorem stepAnswers_error_iff {s : State} (kind : ErrorKind) (hkind : kind ≠ .illegalCommand) :
    StepAnswers s (.error kind) ↔ ∃ i, decode s.cw = .ok i ∧ i.error s = some kind := by
  change step s = raise kind s ↔ _
  cases h : decode s.cw with
  | ok i =>
    rw [step_of_decode_ok h, exec_hasError i s kind]
    simp
  | error err =>
    rw [step_of_decode_error h, raise_hasError .illegalCommand kind]
    simp [hkind.symm]

theorem error_eq_some_iff (i : Instr) (s : State) (kind : ErrorKind) (hkind : kind ≠ .notSupportedError) :
    i.error s = some kind ↔ i.wellFormed = true ∧ i.operandError s = some kind := by
  simp [Instr.error, ite_eq_iff, hkind.symm]

/-! ### DivisionByZero (60_exceptions.md R401) -/

theorem error_eq_divisionByZero_iff (i : Instr) (s : State) :
    i.error s = some .divisionByZero ↔
      (∃ t : IntType, (i = .idiv t ∨ i = .imod t) ∧ t.supported = true ∧ regBits t.n.toNat s.b = 0#_) ∨
      (∃ t : FixType, (i = .fdiv t ∨ i = .fmod t) ∧ t.supported = true ∧ regBits t.n.toNat s.b = 0#_) := by
  rw [error_eq_some_iff i s .divisionByZero nofun]
  cases i with
  | idiv t | imod t | fdiv t | fmod t => simp [Instr.operandError, Instr.wellFormed]
  | _ => simp [Instr.operandError]

/-- Settles O11: only the four divisions check their divisor, and a word that is no instruction gives another error. -/
theorem division_by_zero_exactly : Obligations.division_by_zero_exactly := by
  intro s
  rw [stepAnswers_error_iff .divisionByZero nofun]
  cases decode s.cw with
  | ok i =>
    simp only [Except.ok.injEq, exists_eq_left']
    exact error_eq_divisionByZero_iff i s
  | error err => simp

/-! ### RangeError (60_exceptions.md R402) -/

theorem error_eq_rangeError_iff (i : Instr) (s : State) :
    i.error s = some .rangeError ↔
      (∃ t : IntType, t.supported = true ∧
        (((i = .imulpow2 t ∨ i = .idivpow2 t ∨ i = .ishl t ∨ i = .ishr t) ∧
            ¬(0 ≤ s.b.toInt ∧ s.b.toInt < t.n.toNat)) ∨
          (i = .imodpow2 t ∧ ¬(0 ≤ s.b.toInt ∧ s.b.toInt ≤ t.n.toNat)) ∨
          ((i = .irol t ∨ i = .iror t) ∧ t.n = 0#6) ∨
          ((i = .igetbyte t ∨ i = .isetbyte t) ∧ ¬(0 ≤ s.b.toInt ∧ s.b.toInt < byteCount t.n.toNat)))) ∨
      (∃ t : FixType, t.supported = true ∧ (i = .fgetbyte t ∨ i = .fsetbyte t) ∧
        ¬(0 ≤ s.b.toInt ∧ s.b.toInt < byteCount t.n.toNat)) := by
  rw [error_eq_some_iff i s .rangeError nofun]
  cases i with
  | imulpow2 t | idivpow2 t | ishl t | ishr t | imodpow2 t | irol t | iror t | igetbyte t | isetbyte t | fgetbyte t
  | fsetbyte t =>
    simp [Instr.operandError, Instr.wellFormed]
  | _ => simp [Instr.operandError]

/-- Settles O12: only the shifts, the rotates and the byte accesses check a count or an index. -/
theorem range_error_exactly : Obligations.range_error_exactly := by
  intro s
  rw [stepAnswers_error_iff .rangeError nofun]
  cases decode s.cw with
  | ok i =>
    simp only [Except.ok.injEq, exists_eq_left']
    exact error_eq_rangeError_iff i s
  | error err => simp

/-! ### FormatError (60_exceptions.md R403, 43_bytes.md R190) -/

theorem error_eq_formatError_iff (i : Instr) (s : State) :
    i.error s = some .formatError ↔
      (∃ t : IntType, t.supported = true ∧ i = .ifrombytes t ∧ s.b.toNat < byteCount t.n.toNat) ∨
      (∃ t : FixType, t.supported = true ∧ i = .ffrombytes t ∧ s.b.toNat ≠ byteCount t.n.toNat) := by
  rw [error_eq_some_iff i s .formatError nofun]
  cases i with
  | ifrombytes t | ffrombytes t => simp [Instr.operandError, Instr.wellFormed]
  | _ => simp [Instr.operandError]

/-- Settles O13: only the FromBytes pair checks a length, each against its own condition. -/
theorem format_error_exactly : Obligations.format_error_exactly := by
  intro s
  rw [stepAnswers_error_iff .formatError nofun]
  cases decode s.cw with
  | ok i =>
    simp only [Except.ok.injEq, exists_eq_left']
    exact error_eq_formatError_iff i s
  | error err => simp

end Machine
end Sys2Proof
end

section
/-! NotSupportedError (60_exceptions.md R404): the width checks of an instruction, told by the numbers in the fields of
its command word. -/

namespace Sys2Proof

open Machine

/-- The widths that R404 excludes: `N` and `F` for every opcode, `X` for FCVT's `F2`, `N` once more for the angle
functions. -/
def UnsupportedWidths (op n f x : Nat) : Prop :=
  32 < n ∨ 32 < f ∨ (op = 0x50 ∧ 32 < x) ∨ (0x70 ≤ op ∧ op ≤ 0x76 ∧ (n < 2 ∨ 31 < n))

/-- The widths in the fields of a command word are among those. -/
def UnsupportedWord (w : Word) : Prop :=
  UnsupportedWidths (fieldOP w).toNat (fieldN w).toNat (fieldF w).toNat (fieldX w).toNat

theorem unsupportedWord_packWord (op : BitVec 8) (n f x : BitVec 6) (u : Family) :
    UnsupportedWord (packWord op n f x u) ↔ UnsupportedWidths op.toNat n.toNat f.toNat x.toNat := by
  rw [UnsupportedWord, fieldOP_packWord, fieldN_packWord, fieldF_packWord, fieldX_packWord]

theorem toNat_fieldN (w : Word) : (fieldN w).toNat = w.toNat / 2 ^ 8 % 2 ^ 6 := by
  rw [fieldN, BitVec.extractLsb'_toNat, Nat.shiftRight_eq_div_pow]

theorem not_supported_int_iff {op : BitVec 8} (hop : op.toNat < 0x40) (t : IntType) (x : BitVec 6) :
    ¬t.supported = true ↔ UnsupportedWord (packWord op t.n 0 x t.u) := by
  rw [unsupportedWord_packWord, UnsupportedWidths, IntType.supported_iff]
  have hzero : (0 : BitVec 6).toNat = 0 := rfl
  omega

theorem not_supported_fix_iff {op : BitVec 8} (hop : op.toNat ≠ 0x50) (hangle : op.toNat < 0x70 ∨ 0x76 < op.toNat)
    (t : FixType) (x : BitVec 6) : ¬t.supported = true ↔ UnsupportedWord (packWord op t.n t.f x t.u) := by
  rw [unsupportedWord_packWord, UnsupportedWidths, FixType.supported_iff]
  omega

theorem not_supported_fcvt_iff (t : FixType) (f2 : BitVec 6) :
    ¬(t.supported && widthSupported f2) = true ↔ UnsupportedWord (packWord 0x50#8 t.n t.f f2 t.u) := by
  rw [unsupportedWord_packWord, UnsupportedWidths, Bool.and_eq_true, FixType.supported_iff, widthSupported,
    decide_eq_true_eq, BitVec.toNat_ofNat]
  omega

theorem not_angleSupported_iff {op : BitVec 8} (hop : 0x70 ≤ op.toNat ∧ op.toNat ≤ 0x76) (t : FixType) (x : BitVec 6) :
    ¬t.angleSupported = true ↔ UnsupportedWord (packWord op t.n t.f x t.u) := by
  rw [unsupportedWord_packWord, UnsupportedWidths, FixType.angleSupported_iff]
  omega

/-- The width checks of an instruction, read off its command word: by the four kinds of check. -/
theorem not_wellFormed_iff (i : Instr) : ¬i.wellFormed = true ↔ UnsupportedWord (encode i) := by
  cases i with
  | iconst t sel => exact not_supported_int_iff (by decide) t _
  | iwrap t | iadd t | isub t | imul t | idiv t | imod t | iaddsat t | isubsat t | imulsat t | iclamp t | iclamp01 t
  | iclampofs t | imulpow2 t | idivpow2 t | ishl t | ishr t | imodpow2 t | irol t | iror t | ipopcnt t | iparity t
  | iclz t | ictz t | ibsr t | ibsf t | itobytes t | ifrombytes t | igetbyte t | isetbyte t =>
    exact not_supported_int_iff (by decide) t _
  | fconst t sel => exact not_supported_fix_iff (by decide) (by decide) t _
  | fwrap t | fadd t | fsub t | fmul t | fdiv t | fmod t | faddsat t | fsubsat t | fmulsat t | fclamp t | fclamp01 t
  | fclampofs t | ffloor t | fceil t | fround t | ftobytes t | ffrombytes t | fgetbyte t | fsetbyte t | sqrt t | exp2 t
  | exp t | log2 t =>
    exact not_supported_fix_iff (by decide) (by decide) t _
  | fcvt t f2 => exact not_supported_fcvt_iff t f2
  | sin t | cos t | tan t | asin t | acos t | atan t | atan2 t => exact not_angleSupported_iff (by decide) t _

namespace Machine

theorem operandError_ne_notSupportedError (i : Instr) (s : State) : i.operandError s ≠ some .notSupportedError := by
  cases i with
  | idiv t | imod t | imulpow2 t | idivpow2 t | ishl t | ishr t | imodpow2 t | irol t | iror t | ifrombytes t
  | igetbyte t | isetbyte t | fdiv t | fmod t | ffrombytes t | fgetbyte t | fsetbyte t =>
    rw [Instr.operandError]
    split <;> nofun
  | _ => nofun

theorem error_eq_notSupportedError_iff (i : Instr) (s : State) :
    i.error s = some .notSupportedError ↔ ¬i.wellFormed = true := by
  unfold Instr.error
  split
  · next h => exact iff_of_false (operandError_ne_notSupportedError i s) (not_not.2 h)
  · next h => exact iff_of_true rfl h

/-- Settles O14: the error of an instruction is NotSupportedError when its width checks fail, and the word it was
decoded from is the one that encodes it. -/
theorem not_supported_exactly : Obligations.not_supported_exactly := by
  intro s i hdecode w op n f x
  rw [stepAnswers_error_iff .notSupportedError nofun, hdecode]
  simp only [Except.ok.injEq, exists_eq_left']
  rw [error_eq_notSupportedError_iff, not_wellFormed_iff, encode_decode s.cw i hdecode, UnsupportedWord, toNat_fieldOP,
    toNat_fieldN, toNat_fieldF, toNat_fieldX]
  exact Iff.rfl

end Machine
end Sys2Proof
end

section
/-! The host's codecs (48_host_codecs.md R320 to R329): what the writers write in terms of the port's value, and what
the readers make of it. -/

namespace Sys2Proof.Machine

/-! ### Decimal text -/

/-- The decimal text of a value: a minus sign for a negative one, then its digits. -/
theorem decimal_operandV (u : Family) (n : Nat) (p : Word) : decimal (operandV u n p) =
    (if portValue u n p < 0 then ['-'] else []) ++ Nat.toDigits 10 (portValue u n p).natAbs := by
  rw [decimal_eq _ (operandV_natAbs_lt u n p), operandV_eq]

/-- A width needs no sign. -/
theorem decimal_width (w : BitVec 6) : decimal w.toNat = Nat.toDigits 10 w.toNat := by
  have hlt : ((w.toNat : Int)).natAbs < 10 ^ 10 := by omega
  rw [decimal_eq _ hlt, if_neg (by omega), List.nil_append, Int.natAbs_natCast]

/-- Wrapping the value of a port again stores the register it was read from. -/
theorem cell_wrap_operandV (u : Family) (n : Nat) (p : Word) :
    cell (wrap u n (operandV u n p)) = storeBits u (regBits n p) := by
  rw [cell_wrap, operandV_eq, ofInt_portValue]

/-! ### Numeric strings and the compact JSON (48_host_codecs.md R320 to R323) -/

theorem parse_of_parseNumber {text : List Char} {v : Int} (h : parseNumber text = some v) (u : Family) (n : Nat) :
    parse u n text = .ok (cell (wrap u n v)) := by
  rw [parse, h]

theorem parse_of_isDigit {text : List Char} (hne : text ≠ []) (hdigits : ∀ ch ∈ text, ch.isDigit = true) (u : Family)
    (n : Nat) : parse u n text = .ok (storeBits u (BitVec.ofNat n (Nat.ofDigitChars 10 text 0))) := by
  rw [parse_of_parseNumber (parseNumber_of_isDigit text hne hdigits), cell_wrap, BitVec.ofInt_natCast]

theorem fromJson_toJson (u : Family) (n : Nat) (w : Word) :
    fromJson u n (toJson u n w) = .ok (storeBits u (regBits n w)) := by
  rw [fromJson, toJson, unquoted_quoted]
  exact (parse_of_parseNumber (parseNumber_decimal _ (operandV_natAbs_lt u n w)) u n).trans
    (congrArg _ (cell_wrap_operandV u n w))

/-- Settles O59: a run of digits is its number in base ten, and the text between the quotation marks is the raw's. -/
theorem decimal_strings : Obligations.decimal_strings := by
  refine ⟨fun t text _ hne hdigits => parse_of_isDigit hne hdigits t.u t.n.toNat, fun t w _ => ⟨?_, ?_⟩⟩
  · rw [toJson, decimal_operandV]
  · exact fromJson_toJson t.u t.n.toNat w

/-! ### The self-describing JSON (48_host_codecs.md R324 to R326) -/

/-- A type is told by the members that the object writes of it. -/
theorem FixType.eq_iff_members (t t' : FixType) :
    t = t' ↔ t.u = t'.u ∧ (t.n.toNat : Int) = t'.n.toNat ∧ (t.f.toNat : Int) = t'.f.toNat := by
  obtain ⟨u, n, f⟩ := t
  obtain ⟨u', n', f'⟩ := t'
  simp only [FixType.mk.injEq, Int.natCast_inj, BitVec.toNat_inj]

/-- What the reader makes of the three members in the writer's order: the family decides whether the target finds its
width key. -/
theorem fromJsonWithMeta_of_readMeta {text : List Char} {u : Family} {n f raw : Int}
    (h : readMeta text = some [(widthKey u, n), (.fracBits, f), (.raw, raw)]) (t : FixType) :
    fromJsonWithMeta t text = if u = t.u ∧ n = t.n.toNat ∧ f = t.f.toNat then .ok (cell (wrap t.u t.n.toNat raw))
      else .error .formatError := by
  obtain ⟨u', n', f'⟩ := t
  rw [fromJsonWithMeta, h]
  by_cases hu : u = u'
  · subst hu
    simp only [true_and]
    cases u <;> rfl
  · rw [if_neg fun hall => hu hall.1]
    cases u with
    | signed =>
      cases u' with
      | signed => contradiction
      | unsigned => rfl
    | unsigned =>
      cases u' with
      | signed => rfl
      | unsigned => contradiction

/-- Settles O58: the text is written member by member, and a target accepts it if and only if it is the writer's
type. -/
theorem meta_json_round_trip : Obligations.meta_json_round_trip := by
  refine ⟨fun t w _ => ?_, fun t w _ => ?_, fun t t' w hne => ?_⟩
  · rw [toJsonWithMeta, memberText, memberText, memberText, decimal_width, decimal_width, decimal_operandV]
    simp only [List.append_assoc, List.cons_append, List.nil_append]
  · rw [fromJsonWithMeta_of_readMeta (readMeta_toJsonWithMeta t w), if_pos ⟨rfl, rfl, rfl⟩, cell_wrap_operandV]
  · rw [fromJsonWithMeta_of_readMeta (readMeta_toJsonWithMeta t w), if_neg (mt (FixType.eq_iff_members t t').2 hne)]

/-! ### Doubles that are no finite number (48_host_codecs.md R329) -/

theorem realOfFields_of_top (eb fb : Nat) (neg : Bool) (frac : Nat) :
    realOfFields eb fb neg (2 ^ eb - 1) frac = if frac = 0 then .inf neg else .nan := by
  rw [realOfFields, if_pos rfl]

theorem realOfDouble_of_top {w : BitVec 64} (hex : w.extractLsb' 52 11 = 0x7FF#11) :
    realOfDouble w = if w.extractLsb' 0 52 = 0#52 then .inf (w.getLsbD 63) else .nan := by
  have hzero : (w.extractLsb' 0 52).toNat = 0 ↔ w.extractLsb' 0 52 = 0#52 := BitVec.toNat_inj (y := 0#52)
  simp only [← hzero]
  rw [realOfDouble, hex]
  exact realOfFields_of_top 11 52 _ _

theorem cell_unsignedMax (n : Nat) : cell (unsignedMax n) = storeBits .unsigned (BitVec.allOnes n) := by
  have hmax : unsignedMax n = regValue .unsigned (BitVec.allOnes n) := tmax_eq .unsigned n
  rw [hmax, cell_regValue]

theorem cell_signBit (n : Nat) : cell (signBit n) = storeBits .unsigned (BitVec.intMin n) := by
  have hbit : signBit n = regValue .unsigned (BitVec.intMin n) := by
    cases n with
    | zero => rfl
    | succ k =>
      have hpow : 2 ^ k % 2 ^ (k + 1) = 2 ^ k := Nat.mod_eq_of_lt (Nat.pow_lt_pow_succ (by decide))
      rw [signBit, if_neg k.succ_ne_zero, regValue, BitVec.toNat_intMin, Nat.add_sub_cancel, hpow]
      norm_cast
  rw [hbit, cell_regValue]

/-- Settles O60: an exponent field of all ones leaves a NaN and two infinities, which the cast tells apart. -/
theorem double_to_unsigned_edges : Obligations.double_to_unsigned_edges := by
  intro P n w _ hex
  rw [realOfDouble_of_top hex]
  refine ⟨fun hfrac => ?_, fun hfrac hsign => ?_, fun hfrac hsign => ?_⟩
  · rw [if_neg hfrac]
    rfl
  · rw [if_pos hfrac, hsign]
    exact cell_unsignedMax n
  · rw [if_pos hfrac, hsign]
    exact cell_signBit n

end Sys2Proof.Machine
end
